-- ==== Sys2Proof/Word.lean ====
section
/-! DEFINITION. The widths of the machine: bytes, words, long words, the Size attribute (00_scope.md rule R1) and
register numbers (10_state.md rules R17, R19). -/

namespace Sys2Proof

/-- A byte, the unit of memory (20_memory.md rule R30). -/
abbrev Byte := BitVec 8

/-- A 16-bit word, the unit of instruction text (30_encoding.md rule R41). -/
abbrev Word := BitVec 16

/-- A 32-bit long word: a register or an address (10_state.md rules R17, R19, R20). -/
abbrev Long := BitVec 32

/-- The Size attribute, "Size = (Byte, Word, Long)" (00_scope.md rule R1). -/
inductive Size where
  | byte | word | long
deriving DecidableEq, Repr

/-- The width in bits of an operand, `n` of rule R1. -/
abbrev Size.bits : Size → Nat
  | .byte => 8
  | .word => 16
  | .long => 32

/-- The width in bytes of an operand, `k = n / 8` of rule R33. -/
def Size.bytes : Size → Nat
  | .byte => 1
  | .word => 2
  | .long => 4

/-- The number of a data or address register: eight of each (rules R17, R19). -/
abbrev RegNum := Fin 8

end Sys2Proof
end

