-- ==== Sys2Proof/Config.lean ====
section
/-! DEFINITION. The parameters the spec leaves open (00_scope.md section 5), as plain data, and the free values: what the
spec calls undefined is a draw, an opaque constant that no proof can evaluate. -/

namespace Sys2Proof

/-- `P_MISALIGNED`: what a Word or Long access at an odd address does (20_memory.md rule R32). The family's third
behaviour, the address error exception, has no description in the spec and is not a value here (log 7). -/
inductive Misaligned where
  /-- the access has no step: the spec's default -/
  | refuse
  /-- the access is performed, as the later family members do -/
  | perform
deriving DecidableEq, Repr

/-- `P_BCD_INVALID`: what ABCD, SBCD and NBCD do with an operand that holds a digit above 9 (41_bcd.md, decision D18). -/
inductive BcdInvalid where
  /-- the instruction has no step: the spec's default -/
  | refuse
  /-- the instruction runs, its result and its carry free values (log 11) -/
  | free
deriving DecidableEq, Repr

/-- A run of byte addresses: `size` bytes from `base` on. -/
structure Region where
  base : Nat
  size : Nat
deriving DecidableEq, Repr

/-- The open parameters of 00_scope.md section 5. A state carries them and no step changes them, so a statement about
every state holds for every value of each. -/
structure Config where
  /-- `P_MEMORY_MAP`: the allocated byte addresses (rule R30) -/
  map : List Region
  /-- the program text fixed at launch (rules R38, R215); a store into it is refused -/
  text : Region
  /-- `P_MISALIGNED` (rule R32) -/
  misaligned : Misaligned
  /-- `P_HAS_CHK2` (rule R121) -/
  hasChk2 : Bool
  /-- `P_MUL_DIV_FORMS`: whether the 32 x 32 -> 32 multiply is present (rules R132, R133) -/
  longMultiply : Bool
  /-- `P_BCD_INVALID` (rules R70 to R72) -/
  bcdInvalid : BcdInvalid
  /-- `P_SHIFT_COUNT_MAX`: the largest count a register gives a shift or rotate (rule R158, decision D15; log 29) -/
  shiftCountMax : Nat
  /-- `P_ASL_CARRY_INVERTED`: ASL's carry as Table 4-10 prints it (rule R150) -/
  aslCarryInverted : Bool
deriving DecidableEq, Repr

/-- The parameters of the machine right after reset: the defaults the spec states (misaligned access refused, no long
multiply, decimal operands with a digit above 9 refused, shift counts up to 63, ASL carry not inverted) and, DESIGN CHOICE (log
4, 5, 9), the whole address space allocated, CHK2 present and no program text. -/
def Config.atReset : Config where
  map := [⟨0, 2 ^ 32⟩]
  text := ⟨0, 0⟩
  misaligned := .refuse
  hasChk2 := true
  longMultiply := false
  bcdInvalid := .refuse
  shiftCountMax := 63
  aslCarryInverted := false

/-- Free value: the bit the `i`-th draw gives, for a condition code bit marked U (`P_UNDEF`, 40_cc_common.md rule R60;
log 10). It has no body on purpose. -/
opaque Config.freeBit : Nat → Bool

/-- Free value: the byte the `i`-th draw gives, for the decimal result of operands that are not packed decimal
where `P_BCD_INVALID` is free (41_bcd.md; log 11). It has no body on purpose. -/
opaque Config.freeByte : Nat → Byte

end Sys2Proof
end

