-- ==== Sys2Proof/Syntax.lean ====
section
/-! DEFINITION. The instructions: one constructor of `Instr` per row of spec/opcode_table.json, in the table's order, and
the operand forms they carry (30_encoding.md rules R45 to R47, R49 and section 5.3). -/

namespace Sys2Proof

/-- The index extension word of modes 110 and 111/011 (rule R47): an index register, read as a word or a long word, and an
8-bit displacement. The layout is PRESUMED (log 13). -/
structure Index where
  /-- the index register is an address register -/
  isAddr : Bool
  reg : RegNum
  /-- the whole 32-bit register is the index; otherwise its sign-extended low word -/
  isLong : Bool
  disp : Byte
deriving DecidableEq, Repr

/-- An effective address, one constructor per row of rule R47. -/
inductive Ea where
  | dn (r : RegNum)                    -- Dn
  | an (r : RegNum)                    -- An
  | ind (r : RegNum)                   -- (An)
  | postInc (r : RegNum)               -- (An)+
  | preDec (r : RegNum)                -- -(An)
  | disp (r : RegNum) (d : Word)       -- (d16,An)
  | index (r : RegNum) (ix : Index)    -- (d8,An,Xn)
  | absW (a : Word)                    -- (xxx).W
  | absL (a : Long)                    -- (xxx).L
  | pcDisp (d : Word)                  -- (d16,PC)
  | pcIndex (ix : Index)               -- (d8,PC,Xn)
  | imm (v : Long)                     -- #imm, the value zero-extended
deriving DecidableEq, Repr

/-- The two operand forms of ABCD, SBCD, ADDX and SUBX (rules R43, R44): both data registers, or both memory operands
addressed by predecrement. -/
inductive XForm where
  | data | predec
deriving DecidableEq, Repr

/-- The direction an Opmode field selects: `<ea>` with Dn to Dn (000, 001, 010), or Dn with `<ea>` to `<ea>` (100, 101, 110). -/
inductive Dir where
  | toDn | toEa
deriving DecidableEq, Repr

/-- Where a register shift takes its count (47_shift_rotate.md rule R158): the 3-bit field (000 meaning 8), or a data
register modulo 64. -/
inductive ShiftCount where
  | imm (c : Fin 8)
  | reg (r : RegNum)
deriving DecidableEq, Repr

/-- The displacement of a conditional branch (48_conditional_tests.md rule R187): 8 bits, not zero, or the 16-bit word that
follows. -/
inductive Disp where
  | byte (d : Byte)
  | word (d : Word)
deriving DecidableEq, Repr

/-- The forms of `P_MUL_DIV_FORMS` for a multiply (rules R132, R133): 16 x 16 -> 32, and 32 x 32 -> 32. -/
inductive MulForm where
  | word | long
deriving DecidableEq, Repr

/-- The sixteen conditional tests of Table 4-11 (rules R171 to R186). -/
inductive Cond where
  | t | f | hi | ls | cc | cs | ne | eq | vc | vs | pl | mi | ge | lt | gt | le
deriving DecidableEq, Repr

/-- The instructions, one constructor per row of spec/opcode_table.json. -/
inductive Instr where
  | abcd (form : XForm) (dst src : RegNum)
  | add (sz : Size) (dir : Dir) (dn : RegNum) (ea : Ea)
  | addi (sz : Size) (imm : Long) (ea : Ea)
  | addq (sz : Size) (data : Fin 8) (ea : Ea)
  | addxB (form : XForm) (dst src : RegNum)
  | addxW (form : XForm) (dst src : RegNum)
  | addxL (form : XForm) (dst src : RegNum)
  | and (sz : Size) (dir : Dir) (dn : RegNum) (ea : Ea)
  | andi (sz : Size) (imm : Long) (ea : Ea)
  | eor (sz : Size) (dn : RegNum) (ea : Ea)
  | eori (sz : Size) (imm : Long) (ea : Ea)
  | moveq (dn : RegNum) (data : Byte)
  | move (sz : Size) (src dst : Ea)
  | or (sz : Size) (dir : Dir) (dn : RegNum) (ea : Ea)
  | ori (sz : Size) (imm : Long) (ea : Ea)
  | clr (sz : Size) (ea : Ea)
  | extW (dn : RegNum)
  | extL (dn : RegNum)
  | not (sz : Size) (ea : Ea)
  | tas (ea : Ea)
  | tst (sz : Size) (ea : Ea)
  | chk (sz : Size) (dn : RegNum) (ea : Ea)
  | chk2 (sz : Size) (isAddr : Bool) (reg : RegNum) (ea : Ea)
  | sub (sz : Size) (dir : Dir) (dn : RegNum) (ea : Ea)
  | subi (sz : Size) (imm : Long) (ea : Ea)
  | subq (sz : Size) (data : Fin 8) (ea : Ea)
  | subxB (form : XForm) (dst src : RegNum)
  | subxW (form : XForm) (dst src : RegNum)
  | subxL (form : XForm) (dst src : RegNum)
  | cmpB (dn : RegNum) (ea : Ea)
  | cmpW (dn : RegNum) (ea : Ea)
  | cmpL (dn : RegNum) (ea : Ea)
  | cmpi (sz : Size) (imm : Long) (ea : Ea)
  | cmpm (sz : Size) (dst src : RegNum)
  | divs (dn : RegNum) (ea : Ea)
  | divu (dn : RegNum) (ea : Ea)
  | muls (form : MulForm) (dn : RegNum) (ea : Ea)
  | mulu (form : MulForm) (dn : RegNum) (ea : Ea)
  | sbcd (form : XForm) (dst src : RegNum)
  | nbcd (ea : Ea)
  | neg (sz : Size) (ea : Ea)
  | negx (sz : Size) (ea : Ea)
  | btstReg (bit : RegNum) (ea : Ea)
  | btstImm (bit : Byte) (ea : Ea)
  | bchgReg (bit : RegNum) (ea : Ea)
  | bchgImm (bit : Byte) (ea : Ea)
  | bclrReg (bit : RegNum) (ea : Ea)
  | bclrImm (bit : Byte) (ea : Ea)
  | bsetReg (bit : RegNum) (ea : Ea)
  | bsetImm (bit : Byte) (ea : Ea)
  | asrReg (sz : Size) (count : ShiftCount) (dn : RegNum)
  | asrMem (ea : Ea)
  | aslReg (sz : Size) (count : ShiftCount) (dn : RegNum)
  | aslMem (ea : Ea)
  | lsrReg (sz : Size) (count : ShiftCount) (dn : RegNum)
  | lsrMem (ea : Ea)
  | lslReg (sz : Size) (count : ShiftCount) (dn : RegNum)
  | lslMem (ea : Ea)
  | roxrReg (sz : Size) (count : ShiftCount) (dn : RegNum)
  | roxrMem (ea : Ea)
  | roxlReg (sz : Size) (count : ShiftCount) (dn : RegNum)
  | roxlMem (ea : Ea)
  | rorReg (sz : Size) (count : ShiftCount) (dn : RegNum)
  | rorMem (ea : Ea)
  | rolReg (sz : Size) (count : ShiftCount) (dn : RegNum)
  | rolMem (ea : Ea)
  | bhi (disp : Disp)
  | bls (disp : Disp)
  | bcc (disp : Disp)
  | bcs (disp : Disp)
  | bne (disp : Disp)
  | beq (disp : Disp)
  | bvc (disp : Disp)
  | bvs (disp : Disp)
  | bpl (disp : Disp)
  | bmi (disp : Disp)
  | bge (disp : Disp)
  | blt (disp : Disp)
  | bgt (disp : Disp)
  | ble (disp : Disp)
  | st (ea : Ea)
  | sf (ea : Ea)
  | shi (ea : Ea)
  | sls (ea : Ea)
  | scc (ea : Ea)
  | scs (ea : Ea)
  | sne (ea : Ea)
  | seq (ea : Ea)
  | svc (ea : Ea)
  | svs (ea : Ea)
  | spl (ea : Ea)
  | smi (ea : Ea)
  | sge (ea : Ea)
  | slt (ea : Ea)
  | sgt (ea : Ea)
  | sle (ea : Ea)
deriving DecidableEq, Repr

end Sys2Proof
end

