-- ==== Sys2Proof/Machine/State.lean ====
section
/-! DEFINITION. The state of the machine, why a step can stop, and the machine right after reset. -/

namespace Sys2Proof.Machine

/-- The Condition Code Register: five one-bit condition codes in the order the source writes them (10_state.md rule R10).
The model keeps them as five named bits and no status register around them (rules R10, R23). -/
structure CCR where
  /-- extend (rule R11) -/
  x : Bool
  /-- negative (rule R12) -/
  n : Bool
  /-- zero (rule R13) -/
  z : Bool
  /-- overflow (rule R14) -/
  v : Bool
  /-- carry (rule R15) -/
  c : Bool
deriving DecidableEq, Repr

/-- Memory: the bytes that differ from what an unlisted address reads as, by strictly rising address (20_memory.md rule
R30). -/
abbrev Memory := List Host.Cell

/-- The whole state. `d`, `a`, `pc`, `ccr` and `mem` are the spec's (10_state.md rules R10 to R21); `cfg` holds the spec's
open parameters, which no step changes; `draws` is the model's own count of the free values used so far (log 10). -/
structure State where
  /-- data registers D0 to D7 (rule R17) -/
  d : Vector Long 8
  /-- address registers A0 to A7 (rule R19) -/
  a : Vector Long 8
  /-- the program counter, the address of the instruction being executed (rule R20) -/
  pc : Long
  /-- the condition codes (rule R10) -/
  ccr : CCR
  /-- the one byte-addressed space (rules R21, R30) -/
  mem : Memory
  /-- how many free values have been drawn (rule R60; the model's own) -/
  draws : Nat
  /-- the open parameters (00_scope.md section 5) -/
  cfg : Config
deriving DecidableEq, Repr

/-- Why the machine stops with a fault. -/
inductive Fault where
  /-- Raised by any access to an address outside `P_MEMORY_MAP` (rule R30, "an access to an address outside it is
  refused"), by the fetch as well. Safe: the machine stops where hardware might go on. -/
  | outsideMap (addr : Nat)
deriving DecidableEq, Repr

/-- Why an instruction has no step. -/
inductive Refusal where
  /-- Raised by an arm of `exec` whose instruction has no meaning yet. Safe. -/
  | notModelled (mnemonic : String)
  /-- Raised by the fetch for an operation word, or words, that no rule covers (rule R48). Safe. -/
  | noSuchEncoding (op : Word)
  /-- Raised by a meaning for an operand form that no rule covers (rule R48). Safe. -/
  | noSuchForm
  /-- Raised by CHK2 where `P_HAS_CHK2` is false (rule R121). Safe. -/
  | chk2Absent
  /-- Raised by the 32 x 32 multiply where `P_MUL_DIV_FORMS` does not admit it (rules R132, R133). Safe. -/
  | longMultiplyAbsent
  /-- Raised by a Word or Long access at an odd address where `P_MISALIGNED` is refuse (rule R32). Safe. -/
  | misaligned (addr : Long)
  /-- Raised by the fetch at an odd address (rules R20, R32). Safe. -/
  | oddFetch (addr : Long)
  /-- Raised by a taken branch to an odd address (rule R187). Safe. -/
  | oddTarget (addr : Long)
  /-- Raised by -(A7) with Byte size (rule R33, decision D13). Safe. -/
  | byteStackPredecrement
  /-- Raised by a predecrement below address 0 (rule R33). Safe. -/
  | predecrementWrap (r : RegNum)
  /-- Raised by a postincrement or an address sum that leaves the address space (93_implementation_defined.md U10). Safe. -/
  | addressWrap
  /-- Raised where the pc would pass the top of the address space (rule R20). Safe. -/
  | pcWrap
  /-- Raised by a store into the program text (rule R38). Safe. -/
  | storeToText (addr : Long)
  /-- Raised by ABCD, SBCD and NBCD on a digit above 9 where `P_BCD_INVALID` is refuse (decision D18). Safe. -/
  | invalidDecimal
  /-- Raised by CHK and CHK2 out of bounds (rule R201). Safe. -/
  | outOfBounds
  /-- Raised by DIVS and DIVU with a zero divisor (rule R202). Safe. -/
  | divideByZero
deriving DecidableEq, Repr

/-- What a meaning answers. -/
abbrev Result := Host.Outcome State Fault Refusal

/-- The machine right after reset. The spec leaves every element unspecified (rules R22, R210, R211); every value here is a
DESIGN CHOICE (log 1, 2, 3, 10) or a parameter's value at reset (log 4 to 9). -/
def State.reset : State where
  d := Vector.replicate 8 0
  a := Vector.replicate 8 0
  pc := 0
  ccr := ⟨false, false, false, false, false⟩
  mem := []
  draws := 0
  cfg := Config.atReset

end Sys2Proof.Machine
end

