-- ==== Sys2Proof/Machine/Ops.lean ====
section
/-! DEFINITION. The named operations over memory and registers. An operation that can stop is split in two: what it does,
a total function, and whether it stops, an `Option Stop`; a meaning checks the stops in the order of the spec's
pseudocode (60_exceptions.md rule R203) and then writes everything together (10_state.md rule R16). The spec has no
exception: no operation takes one (rule R200). -/

namespace Sys2Proof.Machine

/-! ### Stopping -/

/-- A reason to stop. -/
inductive Stop where
  | fault (f : Fault)
  | refused (r : Refusal)
deriving DecidableEq, Repr

/-- A stop as the outcome of a step. -/
def Stop.outcome : Stop → Result
  | .fault f => .fault f
  | .refused r => .refused r

/-- Go on unless there is a reason to stop. -/
def check (stop : Option Stop) (k : Result) : Result :=
  match stop with
  | none => k
  | some st => st.outcome

/-- A refusal when a condition holds. -/
def refuseIf (b : Bool) (r : Refusal) : Option Stop := if b then some (.refused r) else none

/-! ### Memory, byte by byte -/

/-- What an address that memory does not list reads as: DESIGN CHOICE (log 3). -/
def unlisted : Byte := 0

/-- The byte at an address. -/
def Memory.read : Memory → Nat → Byte
  | [], _ => unlisted
  | (k, b) :: m, addr => if addr = k then b else Memory.read m addr

/-- Memory with one byte written; writing the value an unlisted address reads as removes the entry. -/
def Memory.write : Memory → Nat → Byte → Memory
  | [], addr, v => if v = unlisted then [] else [(addr, v)]
  | (k, b) :: m, addr, v =>
    if addr < k then (if v = unlisted then (k, b) :: m else (addr, v) :: (k, b) :: m)
    else if addr = k then (if v = unlisted then m else (k, v) :: m)
    else (k, b) :: Memory.write m addr v

/-- Memory from a lowest address on is canonical: addresses strictly rising and inside the address space, and no byte equal
to what an unlisted address reads as. -/
def Memory.wfFrom : Nat → Memory → Bool
  | _, [] => true
  | lo, (k, b) :: m => lo ≤ k && k < 2 ^ 32 && b != unlisted && Memory.wfFrom (k + 1) m

/-- Memory is canonical: the one form that equal memories share. -/
def Memory.wf (m : Memory) : Bool := Memory.wfFrom 0 m

/-- Memory with a list of bytes written from an address on; bytes beyond the address space are dropped. -/
def Memory.writeBytes : Memory → Nat → List Byte → Memory
  | m, _, [] => m
  | m, addr, b :: bs =>
    Memory.writeBytes (if addr < 2 ^ 32 then Memory.write m addr b else m) (addr + 1) bs

/-! ### Memory, operand by operand -/

/-- `MemRead(addr, k)`: the bytes of an operand, the one at the lowest address the most significant (20_memory.md rule
R31). -/
def memRead (sz : Size) (addr : Long) (s : State) : BitVec sz.bits :=
  let byte (i : Nat) : Byte := s.mem.read (addr.toNat + i)
  match sz with
  | .byte => byte 0
  | .word => byte 0 ++ byte 1
  | .long => byte 0 ++ byte 1 ++ byte 2 ++ byte 3

/-- `MemWrite(addr, k, v)`: the bytes of an operand stored the same way (rule R31). -/
def memWrite (sz : Size) (addr : Long) (v : BitVec sz.bits) (s : State) : State :=
  let bytes : List Byte :=
    match sz with
    | .byte => [v.setWidth 8]
    | .word => [v.extractLsb' 8 8, v.extractLsb' 0 8]
    | .long => [v.extractLsb' 24 8, v.extractLsb' 16 8, v.extractLsb' 8 8, v.extractLsb' 0 8]
  { s with mem := s.mem.writeBytes addr.toNat bytes }

/-- An address lies in a region. -/
def inRegion (r : Region) (addr : Nat) : Bool := r.base ≤ addr && addr < r.base + r.size

/-- `P_MEMORY_MAP`: an address of the 32-bit space is allocated (rule R30). -/
def allocated (c : Config) (addr : Nat) : Bool := addr < 2 ^ 32 && c.map.any (inRegion · addr)

/-- A condition holds of each of the `k` addresses from `addr` on. -/
def everyByte (p : Nat → Bool) (addr : Nat) : Nat → Bool
  | 0 => true
  | k + 1 => p addr && everyByte p (addr + 1) k

/-- Why an access does not happen: a Word or Long at an odd address where `P_MISALIGNED` refuses it (rule R32), or a byte
outside the map (rule R30). The spec does not order the two; that the first is reported where both hold is a DESIGN
CHOICE (log 30). -/
def accessStop (sz : Size) (addr : Long) (s : State) : Option Stop :=
  if sz ≠ .byte ∧ addr.toNat % 2 = 1 ∧ s.cfg.misaligned = .refuse then some (.refused (.misaligned addr))
  else if everyByte (allocated s.cfg) addr.toNat sz.bytes then none
  else some (.fault (.outsideMap addr.toNat))

/-- Why a store does not happen: as any access, or into the program text (rule R38). -/
def storeStop (sz : Size) (addr : Long) (s : State) : Option Stop :=
  match accessStop sz addr s with
  | some st => some st
  | none =>
    if everyByte (fun x => !inRegion s.cfg.text x) addr.toNat sz.bytes then none
    else some (.refused (.storeToText addr))

/-! ### Registers -/

/-- A register's value after its low `n` bits are replaced; bits 31 to n keep their value (10_state.md rule R18). -/
def mergeLow (sz : Size) (old : Long) (v : BitVec sz.bits) : Long :=
  match sz with
  | .byte => old.extractLsb' 8 24 ++ (v : Byte)
  | .word => old.extractLsb' 16 16 ++ (v : Word)
  | .long => v

/-- The low `n` bits of a register (rule R18). -/
def lowPart (sz : Size) (v : Long) : BitVec sz.bits := v.setWidth sz.bits

/-- `D[r] <- v`. -/
def State.setD (s : State) (r : RegNum) (v : Long) : State := { s with d := s.d.set r v }

/-- `A[r] <- v`. -/
def State.setA (s : State) (r : RegNum) (v : Long) : State := { s with a := s.a.set r v }

/-- `D[r][n-1:0] <- v`. -/
def State.setDLow (s : State) (sz : Size) (r : RegNum) (v : BitVec sz.bits) : State :=
  s.setD r (mergeLow sz s.d[r] v)

/-! ### Program counter and the end of an instruction -/

/-- An instruction of `words` words at the pc would carry it past the top of the address space (rule R20). No
pseudocode places the pc's advance; that every other stop comes before this one is a DESIGN CHOICE (log 30). -/
def pcStop (words : Nat) (s : State) : Option Stop :=
  refuseIf (2 ^ 32 ≤ s.pc.toNat + 2 * words) .pcWrap

/-- `pc <- pc + L` for an instruction of `words` words (rule R20). -/
def State.advance (s : State) (words : Nat) : State := { s with pc := s.pc + BitVec.ofNat 32 (2 * words) }

/-- The `i`-th free bit from this state on (40_cc_common.md rule R60; log 10). -/
def State.freeBit (s : State) (i : Nat) : Bool := Config.freeBit (s.draws + i)

/-- The next free byte (log 11). -/
def State.freeByte (s : State) : Byte := Config.freeByte s.draws

/-- The end of an instruction: the five condition codes written together (rule R16), the free values it used counted, the
pc past its words. -/
def State.finish (s : State) (ccr : CCR) (spent words : Nat) : State :=
  { s.advance words with ccr := ccr, draws := s.draws + spent }

/-- The address of an extension word: the operation word's address and 2, and two more for each word between (rules R47,
R187). -/
def State.extAddr (s : State) (before : Nat) : Long := s.pc + BitVec.ofNat 32 (2 + 2 * before)

end Sys2Proof.Machine
end

