-- ==== Sys2Proof/Machine/Flags.lean ====
section
/-! DEFINITION. The condition code computations: the recurring formulas of 40_cc_common.md, and for each instruction its
result and its row of Table 4-10 as one function of the operands and the condition codes before. -/

namespace Sys2Proof.Machine

/-- `P_CCR_PACK`: X, N, Z, V, C as bits 4 to 0 of a byte (10_state.md rule R10). No instruction reads it (log 20). -/
def CCR.pack (f : CCR) : Byte :=
  BitVec.ofNat 8 (f.x.toNat * 16 + f.n.toNat * 8 + f.z.toNat * 4 + f.v.toNat * 2 + f.c.toNat)

/-- What an operation computes from its operands: the result, the condition codes after, and how many free values it
used. -/
structure Effect (n : Nat) where
  result : BitVec n
  ccr : CCR
  spent : Nat := 0
deriving DecidableEq, Repr

section Formulas
variable {n : Nat}

/-- Addition overflow (rule R55). -/
def addV (S D R : BitVec n) : Bool := (S.msb && D.msb && !R.msb) || (!S.msb && !D.msb && R.msb)

/-- Addition carry (rule R56). -/
def addC (S D R : BitVec n) : Bool := (S.msb && D.msb) || (!R.msb && D.msb) || (S.msb && !R.msb)

/-- Subtraction overflow (rule R57). -/
def subV (S D R : BitVec n) : Bool := (!S.msb && D.msb && !R.msb) || (S.msb && !D.msb && R.msb)

/-- Subtraction borrow (rule R58). -/
def subC (S D R : BitVec n) : Bool := (S.msb && !D.msb) || (R.msb && !D.msb) || (S.msb && R.msb)

/-- Negation overflow (rule R59). -/
def negV (D R : BitVec n) : Bool := D.msb && R.msb

/-- Negation borrow (rule R59). -/
def negC (D R : BitVec n) : Bool := D.msb || R.msb

/-- The extend bit as a number to add. -/
def CCR.xBit (f : CCR) : BitVec n := BitVec.ofNat n f.x.toNat

/-- The general case of Z: the result is zero (rule R53). -/
def isZero (R : BitVec n) : Bool := R == 0

/-! ### 42_add_sub_cmp_neg.md -/

/-- ADD, ADDI, ADDQ (rules R80 to R82). -/
def addEffect (_f : CCR) (S D : BitVec n) : Effect n :=
  let R := S + D
  ⟨R, ⟨addC S D R, R.msb, isZero R, addV S D R, addC S D R⟩, 0⟩

/-- ADDX (rule R83): Z accumulates (rule R54). -/
def addxEffect (f : CCR) (S D : BitVec n) : Effect n :=
  let R := S + D + f.xBit
  ⟨R, ⟨addC S D R, R.msb, f.z && isZero R, addV S D R, addC S D R⟩, 0⟩

/-- SUB, SUBI, SUBQ (rules R84 to R86). -/
def subEffect (_f : CCR) (S D : BitVec n) : Effect n :=
  let R := D - S
  ⟨R, ⟨subC S D R, R.msb, isZero R, subV S D R, subC S D R⟩, 0⟩

/-- SUBX (rule R87): Z accumulates (rule R54). -/
def subxEffect (f : CCR) (S D : BitVec n) : Effect n :=
  let R := D - S - f.xBit
  ⟨R, ⟨subC S D R, R.msb, f.z && isZero R, subV S D R, subC S D R⟩, 0⟩

/-- CMP, CMPI, CMPM (rules R88 to R90): X is not affected. -/
def cmpFlags (f : CCR) (S D : BitVec n) : CCR :=
  let R := D - S
  ⟨f.x, R.msb, isZero R, subV S D R, subC S D R⟩

/-- NEG (rule R91). -/
def negEffect (_f : CCR) (D : BitVec n) : Effect n :=
  let R := 0 - D
  ⟨R, ⟨negC D R, R.msb, isZero R, negV D R, negC D R⟩, 0⟩

/-- NEGX (rule R92): Z accumulates (rule R54). -/
def negxEffect (f : CCR) (D : BitVec n) : Effect n :=
  let R := 0 - D - f.xBit
  ⟨R, ⟨negC D R, R.msb, f.z && isZero R, negV D R, negC D R⟩, 0⟩

/-! ### 43_logic_move.md -/

/-- `LOGIC_FLAGS(R)`, the row of AND to TST. -/
def logicFlags (f : CCR) (R : BitVec n) : CCR := ⟨f.x, R.msb, isZero R, false, false⟩

/-- A result with the logic row's flags (rules R100 to R110). -/
def logicEffect (f : CCR) (R : BitVec n) : Effect n := ⟨R, logicFlags f R, 0⟩

/-- TAS (rule R111): the flags are of the operand before bit 7 is set. -/
def tasEffect (f : CCR) (D : Byte) : Effect 8 := ⟨D ||| 0x80, logicFlags f D, 0⟩

/-! ### 41_bcd.md -/

/-- A byte is a valid packed decimal. -/
def bcdValid (b : Byte) : Bool := b.toNat / 16 ≤ 9 && b.toNat % 16 ≤ 9

/-- `dec(b)`. -/
def bcdDec (b : Byte) : Nat := 10 * (b.toNat / 16) + b.toNat % 16

/-- `bcd(v)` for 0 to 99. -/
def bcdEnc (v : Nat) : Byte := BitVec.ofNat 8 (v / 10 * 16 + v % 10)

/-- The decimal row: C and X the carry or borrow, Z accumulating, N and V free (rules R70 to R72). -/
def bcdEffect (s : State) (R : Byte) (carry : Bool) : Effect 8 :=
  ⟨R, ⟨carry, s.freeBit 0, s.ccr.z && isZero R, s.freeBit 1, carry⟩, 3⟩

/-- The decimal row for operands that are not packed decimal: the result and the carry are free (`P_BCD_INVALID` where
it is free; log 11). -/
def bcdFree (s : State) : Effect 8 := bcdEffect s s.freeByte (s.freeBit 2)

/-- ABCD (rule R70). -/
def abcdEffect (s : State) (S D : Byte) : Effect 8 :=
  if bcdValid S && bcdValid D then
    let t := bcdDec S + bcdDec D + s.ccr.x.toNat
    bcdEffect s (bcdEnc (t % 100)) (99 < t)
  else bcdFree s

/-- SBCD (rule R71). -/
def sbcdEffect (s : State) (S D : Byte) : Effect 8 :=
  if bcdValid S && bcdValid D then
    let t : Int := (bcdDec D : Int) - bcdDec S - s.ccr.x.toNat
    bcdEffect s (bcdEnc (t % 100).toNat) (t < 0)
  else bcdFree s

/-- NBCD (rule R72). -/
def nbcdEffect (s : State) (D : Byte) : Effect 8 :=
  if bcdValid D then
    let t : Int := 0 - (bcdDec D : Int) - s.ccr.x.toNat
    bcdEffect s (bcdEnc (t % 100).toNat) (t < 0)
  else bcdFree s

/-! ### 44_chk.md -/

/-- CHK is out of bounds: the register is negative or above the bound, both signed (rules R120, R201). -/
def chkOut (R UB : BitVec n) : Bool := R.toInt < 0 || UB.toInt < R.toInt

/-- CHK (rule R120): N as far as the rule gives it, Z, V and C free. -/
def chkFlags (s : State) (R UB : BitVec n) : CCR :=
  let negative :=
    if R.toInt < 0 then true
    else if UB.toInt < R.toInt then false
    else s.freeBit 3
  ⟨s.ccr.x, negative, s.freeBit 0, s.freeBit 1, s.freeBit 2⟩

/-- CHK2's carry, grouped (rule R121, conflict C9); the comparisons are unsigned, which gives the same value as signed
ones. -/
def chk2Carry (R LB UB : BitVec n) : Bool :=
  (decide (LB.toNat ≤ UB.toNat) && (decide (R.toNat < LB.toNat) || decide (UB.toNat < R.toNat)))
    || (decide (UB.toNat < LB.toNat) && decide (UB.toNat < R.toNat) && decide (R.toNat < LB.toNat))

/-- CHK2 (rule R121): Z and C, N and V free. -/
def chk2Flags (s : State) (R LB UB : BitVec n) : CCR :=
  ⟨s.ccr.x, s.freeBit 0, R == LB || R == UB, s.freeBit 1, chk2Carry R LB UB⟩

end Formulas

/-! ### 45_mul_div.md -/

/-- A divide's effect from its exact quotient, remainder and overflow (rules R130, R131): `rem[15:0] ++ q[15:0]`, or with
overflow the register unchanged and N and Z free. -/
def divEffect (s : State) (D : Long) (q rem : Word) (overflow : Bool) : Effect 32 :=
  if overflow then ⟨D, ⟨s.ccr.x, s.freeBit 0, s.freeBit 1, true, false⟩, 2⟩
  else ⟨rem ++ q, ⟨s.ccr.x, q.msb, isZero q, false, false⟩, 0⟩

/-- DIVS of a non-zero divisor (rule R130): truncation toward zero, the remainder with the dividend's sign. -/
def divsEffect (s : State) (S : Word) (D : Long) : Effect 32 :=
  let q := D.toInt.tdiv S.toInt
  let rem := D.toInt - q * S.toInt
  divEffect s D (BitVec.ofInt 16 q) (BitVec.ofInt 16 rem) (q < -32768 || 32767 < q)

/-- DIVU of a non-zero divisor (rule R131). -/
def divuEffect (s : State) (S : Word) (D : Long) : Effect 32 :=
  let q := D.toNat / S.toNat
  divEffect s D (BitVec.ofNat 16 q) (BitVec.ofNat 16 (D.toNat % S.toNat)) (65535 < q)

/-- A multiply's flags (rules R132, R133). -/
def mulEffect (f : CCR) (R : Long) (overflow : Bool) : Effect 32 :=
  ⟨R, ⟨f.x, R.msb, isZero R, overflow, false⟩, 0⟩

/-- MULS of two operands of a size into 32 bits (rule R132); overflow is that the exact product is no signed 32-bit
number. -/
def mulsEffect {n : Nat} (f : CCR) (S D : BitVec n) : Effect 32 :=
  let p := S.toInt * D.toInt
  mulEffect f (BitVec.ofInt 32 p) (p < -2147483648 || 2147483647 < p)

/-- MULU of two operands of a size into 32 bits (rule R133); overflow is that the exact product does not fit 32 bits. -/
def muluEffect {n : Nat} (f : CCR) (S D : BitVec n) : Effect 32 :=
  let p := S.toNat * D.toNat
  mulEffect f (BitVec.ofNat 32 p) (2 ^ 32 ≤ p)

/-! ### 46_bit.md -/

/-- A bit number within an operand of a size: modulo 32 for a data register, modulo 8 for a byte of memory. -/
def bitIndex (sz : Size) (b : Nat) : Nat := b % sz.bits

/-- `BIT_FLAGS(D, b)`: Z is the complement of bit b before the instruction. -/
def bitFlags {n : Nat} (f : CCR) (D : BitVec n) (b : Nat) : CCR := { f with z := !D.getLsbD b }

/-- The mask `1 << b`. -/
def bitMask (n b : Nat) : BitVec n := 1#n <<< b

/-! ### 47_shift_rotate.md -/

/-- The eight shifts and rotates. -/
inductive Shift where
  | asl | lsl | roxl | rol | asr | lsr | roxr | ror
deriving DecidableEq, Repr

/-- What the single-bit steps of rule R159 carry: the value, the extend bit, the last bit shifted out, and whether the most
significant bit has changed. -/
structure ShiftState (n : Nat) where
  v : BitVec n
  x : Bool
  out : Bool
  changed : Bool
deriving DecidableEq, Repr

/-- A bit as the least significant bit of a value. -/
def lowBit (n : Nat) (b : Bool) : BitVec n := BitVec.ofNat n b.toNat

/-- A bit as the most significant bit of a value. -/
def highBit (n : Nat) (b : Bool) : BitVec n := BitVec.ofNat n (b.toNat * 2 ^ (n - 1))

/-- One single-bit step (rule R159). -/
def shiftStep {n : Nat} (k : Shift) (t : ShiftState n) : ShiftState n :=
  let v := t.v
  let high := v.msb
  let low := v.getLsbD 0
  let left (i : Bool) (x : Bool) : ShiftState n :=
    let v' := (v <<< 1) ||| lowBit n i
    ⟨v', x, high, t.changed || v'.msb != high⟩
  let right (i : Bool) (x : Bool) : ShiftState n :=
    let v' := (v >>> 1) ||| highBit n i
    ⟨v', x, low, t.changed || v'.msb != high⟩
  match k with
  | .asl => left false t.x
  | .lsl => left false t.x
  | .roxl => left t.x high
  | .rol => left high t.x
  | .asr => right high t.x
  | .lsr => right false t.x
  | .roxr => right t.x low
  | .ror => right low t.x

/-- `r` single-bit steps. -/
def shiftSteps {n : Nat} (k : Shift) : Nat → ShiftState n → ShiftState n
  | 0, t => t
  | r + 1, t => shiftSteps k r (shiftStep k t)

/-- A rotate through the extend bit. -/
def Shift.throughX : Shift → Bool
  | .roxl | .roxr => true
  | _ => false

/-- A rotate that leaves the extend bit alone. -/
def Shift.keepsX : Shift → Bool
  | .rol | .ror => true
  | _ => false

/-- A shift or rotate by `r` (rules R150 to R157). ASL's carry is complemented where `P_ASL_CARRY_INVERTED` says so. -/
def shiftEffect {n : Nat} (k : Shift) (inverted : Bool) (f : CCR) (r : Nat) (D : BitVec n) : Effect n :=
  let t := shiftSteps k r ⟨D, f.x, false, false⟩
  let R := t.v
  if r = 0 then ⟨R, ⟨f.x, R.msb, isZero R, false, k.throughX && f.x⟩, 0⟩
  else
    let c := if k = .asl && inverted then !t.out else t.out
    ⟨R, ⟨if k.keepsX then f.x else c, R.msb, isZero R, k = .asl && t.changed, c⟩, 0⟩

/-- The count of a register shift (rule R158): the 3-bit field, 000 meaning 8, or the register modulo 64, which is one more than
`P_SHIFT_COUNT_MAX` at its default. That another value of the parameter takes the register modulo one more than it as well is
a DESIGN CHOICE (log 29). -/
def shiftCount (c : ShiftCount) (s : State) : Nat :=
  match c with
  | .imm q => if q = 0 then 8 else q
  | .reg r => s.d[r].toNat % (s.cfg.shiftCountMax + 1)

/-! ### 48_conditional_tests.md -/

/-- `cond(cc)`: the sixteen tests of Table 4-11 (rules R171 to R186). -/
def condHolds (c : Cond) (f : CCR) : Bool :=
  match c with
  | .t => true
  | .f => false
  | .hi => !f.c && !f.z
  | .ls => f.c || f.z
  | .cc => !f.c
  | .cs => f.c
  | .ne => !f.z
  | .eq => f.z
  | .vc => !f.v
  | .vs => f.v
  | .pl => !f.n
  | .mi => f.n
  | .ge => (f.n && f.v) || (!f.n && !f.v)
  | .lt => (f.n && !f.v) || (!f.n && f.v)
  | .gt => (f.n && f.v && !f.z) || (!f.n && !f.v && !f.z)
  | .le => f.z || (f.n && !f.v) || (!f.n && f.v)

end Sys2Proof.Machine
end

