-- ==== Sys2Proof/Machine/Modes.lean ====
section
/-! DEFINITION. Which operand forms each instruction admits, and how many extension words an operand takes. The spec
gives the twelve modes (30_encoding.md rule R47) and says that the family restricts them per instruction without
reproducing the restrictions (section 5.3); the classes here are PRESUMED (log 12), the widest that a family member
documents. -/

namespace Sys2Proof

/-- An immediate fits the operand size: #imm carries a Byte, Word or Long value (rule R47). -/
def immFits (sz : Size) (v : Long) : Bool := v.toNat < 2 ^ sz.bits

namespace Ea

/-- Any mode of rule R47: An only for Word and Long, an immediate within the size. -/
def admitsAll (sz : Size) : Ea → Bool
  | .an _ => sz != .byte
  | .imm v => immFits sz v
  | _ => true

/-- Data modes: any but An. -/
def admitsData (sz : Size) : Ea → Bool
  | .an _ => false
  | .imm v => immFits sz v
  | _ => true

/-- Data alterable modes, a place a result can be stored: not An, not relative to the pc, not an immediate. -/
def admitsDataAlterable : Ea → Bool
  | .an _ | .pcDisp _ | .pcIndex _ | .imm _ => false
  | _ => true

/-- Memory alterable modes: data alterable and not Dn. -/
def admitsMemoryAlterable : Ea → Bool
  | .dn _ | .an _ | .pcDisp _ | .pcIndex _ | .imm _ => false
  | _ => true

/-- Data alterable modes and the two relative to the pc: an operand that is read only and is no immediate. -/
def admitsDataAddressable : Ea → Bool
  | .an _ | .imm _ => false
  | _ => true

/-- Control modes: a memory address that no increment or decrement moves. -/
def admitsControl : Ea → Bool
  | .dn _ | .an _ | .postInc _ | .preDec _ | .imm _ => false
  | _ => true

/-- How many extension words a mode takes at an operand size (rule R47). -/
def extWords (sz : Size) : Ea → Nat
  | .disp _ _ | .index _ _ | .absW _ | .pcDisp _ | .pcIndex _ => 1
  | .absL _ => 2
  | .imm _ => if sz = .long then 2 else 1
  | _ => 0

end Ea

/-- How many words an immediate of a size takes: one for Byte and Word, two for Long (opcode_table.json, ADDI). -/
def Size.immWords (sz : Size) : Nat := if sz = .long then 2 else 1

/-- How many words a branch displacement takes beyond the operation word (rule R187). -/
def Disp.extWords : Disp → Nat
  | .byte _ => 0
  | .word _ => 1

/-- A multiply form's operand size (rules R132, R133). -/
abbrev MulForm.size : MulForm → Size
  | .word => .word
  | .long => .long

/-- How many words stand between a multiply's operation word and its `<ea>` extension words: PRESUMED one for the 32-bit
form, "for some later instructions a second control word" (rule R41; log 6). -/
def MulForm.controlWords : MulForm → Nat
  | .word => 0
  | .long => 1

/-- `<ea>` of ADD and SUB: any mode towards Dn, memory alterable towards `<ea>` (opmodes 100 to 110 with MMM = 000 or 001
are ADDX and SUBX). -/
def wfArith (sz : Size) (dir : Dir) (ea : Ea) : Bool :=
  match dir with
  | .toDn => ea.admitsAll sz
  | .toEa => ea.admitsMemoryAlterable

/-- `<ea>` of AND and OR: data modes towards Dn, memory alterable towards `<ea>`. -/
def wfLogic (sz : Size) (dir : Dir) (ea : Ea) : Bool :=
  match dir with
  | .toDn => ea.admitsData sz
  | .toEa => ea.admitsMemoryAlterable

/-- An immediate of the size and a data alterable destination. -/
def wfImmediate (sz : Size) (imm : Long) (ea : Ea) : Bool :=
  immFits sz imm && ea.admitsDataAlterable

/-- An 8-bit displacement is not zero: zero means that the displacement word follows (rule R187). -/
def wfDisp : Disp → Bool
  | .byte d => d != 0
  | .word _ => true

/-- The forms of each instruction that a rule of the spec covers. -/
def Instr.formAdmitted : Instr → Bool
  | .abcd _ _ _ => true
  | .add sz dir _ ea => wfArith sz dir ea
  | .addi sz imm ea => wfImmediate sz imm ea
  | .addq _ _ ea => ea.admitsDataAlterable
  | .addxB _ _ _ => true
  | .addxW _ _ _ => true
  | .addxL _ _ _ => true
  | .and sz dir _ ea => wfLogic sz dir ea
  | .andi sz imm ea => wfImmediate sz imm ea
  | .eor _ _ ea => ea.admitsDataAlterable
  | .eori sz imm ea => wfImmediate sz imm ea
  | .moveq _ _ => true
  | .move sz src dst => src.admitsAll sz && dst.admitsDataAlterable
  | .or sz dir _ ea => wfLogic sz dir ea
  | .ori sz imm ea => wfImmediate sz imm ea
  | .clr _ ea => ea.admitsDataAlterable
  | .extW _ => true
  | .extL _ => true
  | .not _ ea => ea.admitsDataAlterable
  | .tas ea => ea.admitsDataAlterable
  | .tst sz ea => ea.admitsAll sz
  | .chk sz _ ea => sz != .byte && ea.admitsData sz
  | .chk2 _ _ _ ea => ea.admitsControl
  | .sub sz dir _ ea => wfArith sz dir ea
  | .subi sz imm ea => wfImmediate sz imm ea
  | .subq _ _ ea => ea.admitsDataAlterable
  | .subxB _ _ _ => true
  | .subxW _ _ _ => true
  | .subxL _ _ _ => true
  | .cmpB _ ea => ea.admitsAll .byte
  | .cmpW _ ea => ea.admitsAll .word
  | .cmpL _ ea => ea.admitsAll .long
  | .cmpi sz imm ea => immFits sz imm && ea.admitsDataAddressable
  | .cmpm _ _ _ => true
  | .divs _ ea => ea.admitsData .word
  | .divu _ ea => ea.admitsData .word
  | .muls form _ ea => ea.admitsData form.size
  | .mulu form _ ea => ea.admitsData form.size
  | .sbcd _ _ _ => true
  | .nbcd ea => ea.admitsDataAlterable
  | .neg _ ea => ea.admitsDataAlterable
  | .negx _ ea => ea.admitsDataAlterable
  | .btstReg _ ea => ea.admitsDataAddressable
  | .btstImm _ ea => ea.admitsDataAddressable
  | .bchgReg _ ea => ea.admitsDataAlterable
  | .bchgImm _ ea => ea.admitsDataAlterable
  | .bclrReg _ ea => ea.admitsDataAlterable
  | .bclrImm _ ea => ea.admitsDataAlterable
  | .bsetReg _ ea => ea.admitsDataAlterable
  | .bsetImm _ ea => ea.admitsDataAlterable
  | .asrReg _ _ _ => true
  | .asrMem ea => ea.admitsMemoryAlterable
  | .aslReg _ _ _ => true
  | .aslMem ea => ea.admitsMemoryAlterable
  | .lsrReg _ _ _ => true
  | .lsrMem ea => ea.admitsMemoryAlterable
  | .lslReg _ _ _ => true
  | .lslMem ea => ea.admitsMemoryAlterable
  | .roxrReg _ _ _ => true
  | .roxrMem ea => ea.admitsMemoryAlterable
  | .roxlReg _ _ _ => true
  | .roxlMem ea => ea.admitsMemoryAlterable
  | .rorReg _ _ _ => true
  | .rorMem ea => ea.admitsMemoryAlterable
  | .rolReg _ _ _ => true
  | .rolMem ea => ea.admitsMemoryAlterable
  | .bhi d => wfDisp d
  | .bls d => wfDisp d
  | .bcc d => wfDisp d
  | .bcs d => wfDisp d
  | .bne d => wfDisp d
  | .beq d => wfDisp d
  | .bvc d => wfDisp d
  | .bvs d => wfDisp d
  | .bpl d => wfDisp d
  | .bmi d => wfDisp d
  | .bge d => wfDisp d
  | .blt d => wfDisp d
  | .bgt d => wfDisp d
  | .ble d => wfDisp d
  | .st ea => ea.admitsDataAlterable
  | .sf ea => ea.admitsDataAlterable
  | .shi ea => ea.admitsDataAlterable
  | .sls ea => ea.admitsDataAlterable
  | .scc ea => ea.admitsDataAlterable
  | .scs ea => ea.admitsDataAlterable
  | .sne ea => ea.admitsDataAlterable
  | .seq ea => ea.admitsDataAlterable
  | .svc ea => ea.admitsDataAlterable
  | .svs ea => ea.admitsDataAlterable
  | .spl ea => ea.admitsDataAlterable
  | .smi ea => ea.admitsDataAlterable
  | .sge ea => ea.admitsDataAlterable
  | .slt ea => ea.admitsDataAlterable
  | .sgt ea => ea.admitsDataAlterable
  | .sle ea => ea.admitsDataAlterable

end Sys2Proof
end

