-- ==== Sys2Proof/WellFormed.lean ====
section
/-! DEFINITION. Which instructions are well formed: the operand forms a rule of the spec covers. A form that is not well
formed has no rule and is refused (30_encoding.md rule R48). -/

namespace Sys2Proof

/-- An instruction is well formed when its operand form is one that a rule covers: `Instr.formAdmitted` of
Machine/Modes.lean says which, instruction by instruction. -/
def Instr.wf (i : Instr) : Bool := i.formAdmitted

end Sys2Proof
end

