-- ==== Sys2Proof/Machine/Operands.lean ====
section
/-! DEFINITION. The operand forms: where each effective address of 30_encoding.md rule R47 points, what it does to its
address register, why it can stop, and how the operand there is read and written. -/

namespace Sys2Proof.Machine

/-- Where an operand is. -/
inductive Loc where
  | dreg (r : RegNum)
  | areg (r : RegNum)
  | mem (addr : Long)
  | const (v : Long)
deriving DecidableEq, Repr

/-- The value of an index register: the register, or its sign-extended low word (rule R47; log 13). -/
def indexValue (ix : Index) (s : State) : Long :=
  let v := if ix.isAddr then s.a[ix.reg] else s.d[ix.reg]
  if ix.isLong then v else (v.setWidth 16).signExtend 32

/-- A mathematical address lies in the 32-bit space. -/
def inSpace (v : Int) : Bool := 0 ≤ v && v < 2 ^ 32

/-- A base and a signed displacement leave the address space (93_implementation_defined.md U10; log 15). -/
def dispStop (base : Long) (d : Word) : Option Stop :=
  refuseIf (!inSpace (base.toNat + d.toInt)) .addressWrap

/-- A base, a signed displacement and an index leave the address space, whether the index is read as a signed or as an
unsigned number (U10; log 15). -/
def indexStop (base : Long) (ix : Index) (s : State) : Option Stop :=
  let x := indexValue ix s
  refuseIf (!inSpace (base.toNat + ix.disp.toInt + x.toInt) && !inSpace (base.toNat + ix.disp.toInt + x.toNat))
    .addressWrap

/-- The address of a base, a displacement and an index. -/
def indexAddr (base : Long) (ix : Index) (s : State) : Long :=
  base + ix.disp.signExtend 32 + indexValue ix s

/-- Why a predecrement does not happen: -(A7) with Byte (rule R33, D13), or below address 0 (rule R33). -/
def predecStop (sz : Size) (r : RegNum) (s : State) : Option Stop :=
  if sz = .byte ∧ r = 7 then some (.refused .byteStackPredecrement)
  else if s.a[r].toNat < sz.bytes then some (.refused (.predecrementWrap r))
  else none

/-- `A[r] <- (A[r] - k) mod 2^32` (rule R33). -/
def predec (sz : Size) (r : RegNum) (s : State) : State := s.setA r (s.a[r] - BitVec.ofNat 32 sz.bytes)

/-- A postincrement leaves the address space (U10). -/
def postincStop (sz : Size) (r : RegNum) (s : State) : Option Stop :=
  refuseIf (2 ^ 32 ≤ s.a[r].toNat + sz.bytes) .addressWrap

/-- The increment of mode 011: "incremented by the operand size in bytes" (rule R47). -/
def postinc (sz : Size) (r : RegNum) (s : State) : State := s.setA r (s.a[r] + BitVec.ofNat 32 sz.bytes)

/-- Why an effective address has no operand, before any access. `ext` is the address of its first extension word. -/
def eaStop (sz : Size) (ea : Ea) (ext : Long) (s : State) : Option Stop :=
  match ea with
  | .preDec r => predecStop sz r s
  | .disp r d => dispStop s.a[r] d
  | .index r ix => indexStop s.a[r] ix s
  | .pcDisp d => dispStop ext d
  | .pcIndex ix => indexStop ext ix s
  | _ => none

/-- Why an effective address stops after its access: mode 011 is "memory at A[n], then A[n] incremented" (rule R47). -/
def eaAfterStop (sz : Size) (ea : Ea) (s : State) : Option Stop :=
  match ea with
  | .postInc r => postincStop sz r s
  | _ => none

/-- The operand an effective address names (rule R47). The base of (d8,PC,Xn), which the rule calls "the program counter",
is the address of the extension word, as the rule says of (d16,PC): DEDUCED, the model's choice (log 27). -/
def eaLoc (sz : Size) (ea : Ea) (ext : Long) (s : State) : Loc :=
  match ea with
  | .dn r => .dreg r
  | .an r => .areg r
  | .ind r => .mem s.a[r]
  | .postInc r => .mem s.a[r]
  | .preDec r => .mem (s.a[r] - BitVec.ofNat 32 sz.bytes)
  | .disp r d => .mem (s.a[r] + d.signExtend 32)
  | .index r ix => .mem (indexAddr s.a[r] ix s)
  | .absW w => .mem (w.signExtend 32)
  | .absL w => .mem w
  | .pcDisp d => .mem (ext + d.signExtend 32)
  | .pcIndex ix => .mem (indexAddr ext ix s)
  | .imm v => .const v

/-- The state after an effective address has been formed: an incremented or decremented register, nothing else. -/
def eaAfter (sz : Size) (ea : Ea) (s : State) : State :=
  match ea with
  | .postInc r => postinc sz r s
  | .preDec r => predec sz r s
  | _ => s

/-- The operand at a place, at a size. -/
def locRead (sz : Size) (l : Loc) (s : State) : BitVec sz.bits :=
  match l with
  | .dreg r => lowPart sz s.d[r]
  | .areg r => lowPart sz s.a[r]
  | .mem addr => memRead sz addr s
  | .const v => lowPart sz v

/-- Why an operand cannot be read. -/
def locReadStop (sz : Size) (l : Loc) (s : State) : Option Stop :=
  match l with
  | .mem addr => accessStop sz addr s
  | _ => none

/-- A place with a result stored (rule R18 for a data register). A constant and an address register hold no result; the
forms that would store to one are not well formed. -/
def locWrite (sz : Size) (l : Loc) (v : BitVec sz.bits) (s : State) : State :=
  match l with
  | .dreg r => s.setDLow sz r v
  | .mem addr => memWrite sz addr v s
  | _ => s

/-- Why a result cannot be stored. -/
def locWriteStop (sz : Size) (l : Loc) (s : State) : Option Stop :=
  match l with
  | .dreg _ => none
  | .mem addr => storeStop sz addr s
  | _ => some (.refused .noSuchForm)

/-- The operand form of an instruction has no rule (30_encoding.md rule R48). -/
def formStop (i : Instr) : Option Stop := refuseIf (!i.wf) .noSuchForm

end Sys2Proof.Machine
end

