-- ==== Sys2Proof/Machine/Shapes.lean ====
section
/-! DEFINITION. The shapes that instructions share: an operand into a register, a result into `<ea>`, a test of `<ea>`, the
register and predecrement forms of the extended instructions, the shifts, branches and sets. Each checks its stops in the
order of the spec's pseudocode (60_exceptions.md rule R203), and writes its results, the condition codes and the pc
together (10_state.md rule R16). -/

namespace Sys2Proof.Machine

/-- The operand of `<ea>`, in the state its addressing leaves. `before` is the number of words between the operation word
and the extension words of `<ea>`. -/
def eaRead (sz : Size) (ea : Ea) (before : Nat) (s : State) : BitVec sz.bits :=
  locRead sz (eaLoc sz ea (s.extAddr before) s) (eaAfter sz ea s)

/-- Why the operand of `<ea>` cannot be read: its address, then its access, then its increment (rule R47). That the
increment's wrap is reported before a stop on the operand's value (a zero divisor, a bound, a digit above 9) is a DESIGN
CHOICE (log 30). -/
def eaReadStop (sz : Size) (ea : Ea) (before : Nat) (s : State) : Option Stop :=
  (eaStop sz ea (s.extAddr before) s).or <|
  (locReadStop sz (eaLoc sz ea (s.extAddr before) s) (eaAfter sz ea s)).or <| eaAfterStop sz ea s

/-- A result stored at `<ea>`. -/
def eaWrite (sz : Size) (ea : Ea) (before : Nat) (v : BitVec sz.bits) (s : State) : State :=
  locWrite sz (eaLoc sz ea (s.extAddr before) s) v (eaAfter sz ea s)

/-- Why a result cannot be stored at `<ea>`, in the same order. -/
def eaWriteStop (sz : Size) (ea : Ea) (before : Nat) (s : State) : Option Stop :=
  (eaStop sz ea (s.extAddr before) s).or <|
  (locWriteStop sz (eaLoc sz ea (s.extAddr before) s) (eaAfter sz ea s)).or <| eaAfterStop sz ea s

/-- `<ea>` with Dn, the result to the whole of Dn: `alu` has the operand and the register; `stop` may stop on them. -/
def eaToDn (i : Instr) (sz : Size) (dn : RegNum) (ea : Ea) (before : Nat) (s : State)
    (alu : BitVec sz.bits → Long → Effect 32) (stop : BitVec sz.bits → Option Stop := fun _ => none) : Result :=
  let words := 1 + before + ea.extWords sz
  let e := alu (eaRead sz ea before s) s.d[dn]
  check (formStop i) <| check (eaReadStop sz ea before s) <| check (stop (eaRead sz ea before s)) <|
  check (pcStop words s) <|
  .next (((eaAfter sz ea s).setD dn e.result).finish e.ccr e.spent words)

/-- `<ea>` with the low `n` bits of Dn, the result to the same bits (rule R18). -/
def eaToDnLow (i : Instr) (sz : Size) (dn : RegNum) (ea : Ea) (s : State)
    (alu : BitVec sz.bits → BitVec sz.bits → Effect sz.bits) : Result :=
  eaToDn i sz dn ea 0 s fun S D =>
    let e := alu S (lowPart sz D)
    ⟨mergeLow sz D e.result, e.ccr, e.spent⟩

/-- `<ea>` read, changed and written back; `stop` may stop on the operand. -/
def modifyEa (i : Instr) (sz : Size) (ea : Ea) (before : Nat) (s : State)
    (alu : BitVec sz.bits → Effect sz.bits) (stop : BitVec sz.bits → Option Stop := fun _ => none) : Result :=
  let words := 1 + before + ea.extWords sz
  let e := alu (eaRead sz ea before s)
  check (formStop i) <| check (eaReadStop sz ea before s) <| check (stop (eaRead sz ea before s)) <|
  check (eaWriteStop sz ea before s) <| check (pcStop words s) <|
  .next ((eaWrite sz ea before e.result s).finish e.ccr e.spent words)

/-- `<ea>` written without being read. -/
def storeEa (i : Instr) (sz : Size) (ea : Ea) (s : State) (v : BitVec sz.bits) (ccr : CCR) : Result :=
  let words := 1 + ea.extWords sz
  check (formStop i) <| check (eaWriteStop sz ea 0 s) <| check (pcStop words s) <|
  .next ((eaWrite sz ea 0 v s).finish ccr 0 words)

/-- `<ea>` read for the condition codes alone. -/
def testEa (i : Instr) (sz : Size) (ea : Ea) (before : Nat) (s : State)
    (flags : BitVec sz.bits → CCR) : Result :=
  let words := 1 + before + ea.extWords sz
  check (formStop i) <| check (eaReadStop sz ea before s) <| check (pcStop words s) <|
  .next ((eaAfter sz ea s).finish (flags (eaRead sz ea before s)) 0 words)

/-- ABCD, SBCD, ADDX, SUBX: both operands in data registers, or both in memory by predecrement, the source register and
read first (20_memory.md rule R34; for ABCD and SBCD log 16); `stop` may stop on the two operands. -/
def extended (sz : Size) (form : XForm) (dst src : RegNum) (s : State)
    (alu : BitVec sz.bits → BitVec sz.bits → Effect sz.bits)
    (stop : BitVec sz.bits → BitVec sz.bits → Option Stop := fun _ _ => none) : Result :=
  match form with
  | .data =>
    let e := alu (lowPart sz s.d[src]) (lowPart sz s.d[dst])
    check (stop (lowPart sz s.d[src]) (lowPart sz s.d[dst])) <| check (pcStop 1 s) <|
    .next ((s.setDLow sz dst e.result).finish e.ccr e.spent 1)
  | .predec =>
    let s1 := predec sz src s
    let s2 := predec sz dst s1
    let e := alu (memRead sz s1.a[src] s) (memRead sz s2.a[dst] s)
    check (predecStop sz src s) <| check (accessStop sz s1.a[src] s) <|
    check (predecStop sz dst s1) <| check (accessStop sz s2.a[dst] s) <|
    check (stop (memRead sz s1.a[src] s) (memRead sz s2.a[dst] s)) <| check (storeStop sz s2.a[dst] s) <|
    check (pcStop 1 s) <|
    .next ((memWrite sz s2.a[dst] e.result s2).finish e.ccr e.spent 1)

/-- The operand size of a bit instruction: a data register whole, a byte of memory (46_bit.md). -/
abbrev bitSize (ea : Ea) : Size :=
  match ea with
  | .dn _ => .long
  | _ => .byte

/-- A bit instruction that changes bit `b` of its destination; `change` has the operand and the mask. -/
def modifyBit (i : Instr) (ea : Ea) (before b : Nat) (s : State)
    (change : {n : Nat} → BitVec n → BitVec n → BitVec n) : Result :=
  let sz := bitSize ea
  let k := bitIndex sz b
  modifyEa i sz ea before s fun D => ⟨change D (bitMask sz.bits k), bitFlags s.ccr D k, 0⟩

/-- A bit instruction that only tests (rule R140). -/
def testBit (i : Instr) (ea : Ea) (before b : Nat) (s : State) : Result :=
  let sz := bitSize ea
  testEa i sz ea before s fun D => bitFlags s.ccr D (bitIndex sz b)

/-- A shift or rotate of a data register (rules R150 to R158). -/
def shiftDn (k : Shift) (sz : Size) (count : ShiftCount) (dn : RegNum) (s : State) : Result :=
  let e := shiftEffect k s.cfg.aslCarryInverted s.ccr (shiftCount count s) (lowPart sz s.d[dn])
  check (pcStop 1 s) <|
  .next ((s.setDLow sz dn e.result).finish e.ccr e.spent 1)

/-- A shift or rotate of a word of memory by 1 (rule R158). -/
def shiftEa (i : Instr) (k : Shift) (ea : Ea) (s : State) : Result :=
  modifyEa i .word ea 0 s fun D => shiftEffect k s.cfg.aslCarryInverted s.ccr 1 D

/-- A branch target: the branch's address and 2, and the sign-extended displacement, modulo 2^32 (rule R187). -/
def branchTarget (disp : Disp) (s : State) : Long :=
  let d : Long :=
    match disp with
    | .byte d => d.signExtend 32
    | .word d => d.signExtend 32
  s.pc + 2 + d

/-- A conditional branch (rule R187): to the target when the test holds, past the branch otherwise; the condition codes are
not changed. A target at an odd address is refused. -/
def branch (i : Instr) (c : Cond) (disp : Disp) (s : State) : Result :=
  let target := branchTarget disp s
  let words := 1 + disp.extWords
  check (formStop i) <|
  if condHolds c s.ccr then
    check (refuseIf (target.toNat % 2 = 1) (.oddTarget target)) <| .next { s with pc := target }
  else check (pcStop words s) <| .next (s.advance words)

/-- A set instruction (rule R188): the byte becomes 0xFF or 0x00; the condition codes are not changed. -/
def setByte (i : Instr) (c : Cond) (ea : Ea) (s : State) : Result :=
  storeEa i .byte ea s (if condHolds c s.ccr then (0xFF : Byte) else 0) s.ccr

end Sys2Proof.Machine
end

