-- ==== Sys2Proof/Machine/Arith.lean ====
section
/-! DEFINITION. Binary add, subtract, compare and negate (42_add_sub_cmp_neg.md). -/

namespace Sys2Proof.Machine

/-- The quick immediate of ADDQ and SUBQ: 001 to 111 is 1 to 7, 000 is 8. -/
def quickValue (sz : Size) (data : Fin 8) : BitVec sz.bits :=
  BitVec.ofNat sz.bits (if data = 0 then 8 else data)

/-- An opmode instruction: `<ea>` op Dn to Dn, or Dn op `<ea>` to `<ea>`, the source first (opcode_table.json, ADD). -/
def opmode (i : Instr) (sz : Size) (dir : Dir) (dn : RegNum) (ea : Ea) (s : State)
    (alu : BitVec sz.bits → BitVec sz.bits → Effect sz.bits) : Result :=
  match dir with
  | .toDn => eaToDnLow i sz dn ea s alu
  | .toEa => modifyEa i sz ea 0 s (alu (lowPart sz s.d[dn]))

/-- ADD (rule R80). -/
def execAdd (sz : Size) (dir : Dir) (dn : RegNum) (ea : Ea) (s : State) : Result :=
  opmode (.add sz dir dn ea) sz dir dn ea s (addEffect s.ccr)

/-- ADDI (rule R81). -/
def execAddi (sz : Size) (imm : Long) (ea : Ea) (s : State) : Result :=
  modifyEa (.addi sz imm ea) sz ea sz.immWords s (addEffect s.ccr (lowPart sz imm))

/-- ADDQ (rule R82). -/
def execAddq (sz : Size) (data : Fin 8) (ea : Ea) (s : State) : Result :=
  modifyEa (.addq sz data ea) sz ea 0 s (addEffect s.ccr (quickValue sz data))

/-- ADDX.B (rule R83). -/
def execAddxB (form : XForm) (dst src : RegNum) (s : State) : Result :=
  extended .byte form dst src s (addxEffect s.ccr)

/-- ADDX.W (rule R83). -/
def execAddxW (form : XForm) (dst src : RegNum) (s : State) : Result :=
  extended .word form dst src s (addxEffect s.ccr)

/-- ADDX.L (rule R83). -/
def execAddxL (form : XForm) (dst src : RegNum) (s : State) : Result :=
  extended .long form dst src s (addxEffect s.ccr)

/-- SUB (rule R84). -/
def execSub (sz : Size) (dir : Dir) (dn : RegNum) (ea : Ea) (s : State) : Result :=
  opmode (.sub sz dir dn ea) sz dir dn ea s (subEffect s.ccr)

/-- SUBI (rule R85). -/
def execSubi (sz : Size) (imm : Long) (ea : Ea) (s : State) : Result :=
  modifyEa (.subi sz imm ea) sz ea sz.immWords s (subEffect s.ccr (lowPart sz imm))

/-- SUBQ (rule R86). -/
def execSubq (sz : Size) (data : Fin 8) (ea : Ea) (s : State) : Result :=
  modifyEa (.subq sz data ea) sz ea 0 s (subEffect s.ccr (quickValue sz data))

/-- SUBX.B (rule R87). -/
def execSubxB (form : XForm) (dst src : RegNum) (s : State) : Result :=
  extended .byte form dst src s (subxEffect s.ccr)

/-- SUBX.W (rule R87). -/
def execSubxW (form : XForm) (dst src : RegNum) (s : State) : Result :=
  extended .word form dst src s (subxEffect s.ccr)

/-- SUBX.L (rule R87). -/
def execSubxL (form : XForm) (dst src : RegNum) (s : State) : Result :=
  extended .long form dst src s (subxEffect s.ccr)

/-- CMP.B (rule R88, Opmode 000): Dn - `<ea>`, nothing stored. -/
def execCmpB (dn : RegNum) (ea : Ea) (s : State) : Result :=
  testEa (.cmpB dn ea) .byte ea 0 s fun S => cmpFlags s.ccr S (lowPart .byte s.d[dn])

/-- CMP.W (rule R88, Opmode 001). -/
def execCmpW (dn : RegNum) (ea : Ea) (s : State) : Result :=
  testEa (.cmpW dn ea) .word ea 0 s fun S => cmpFlags s.ccr S (lowPart .word s.d[dn])

/-- CMP.L (rule R88, Opmode 010). -/
def execCmpL (dn : RegNum) (ea : Ea) (s : State) : Result :=
  testEa (.cmpL dn ea) .long ea 0 s fun S => cmpFlags s.ccr S (lowPart .long s.d[dn])

/-- CMPI (rule R89): `<ea>` - immediate, nothing stored. -/
def execCmpi (sz : Size) (imm : Long) (ea : Ea) (s : State) : Result :=
  testEa (.cmpi sz imm ea) sz ea sz.immWords s (cmpFlags s.ccr (lowPart sz imm))

/-- CMPM (rule R90), `CMPM (Ay)+,(Ax)+`: the source first (log 16), each operand before its increment (rule
R47). -/
def execCmpm (sz : Size) (dst src : RegNum) (s : State) : Result :=
  let s1 := postinc sz src s
  let s2 := postinc sz dst s1
  check (accessStop sz s.a[src] s) <| check (postincStop sz src s) <|
  check (accessStop sz s1.a[dst] s) <| check (postincStop sz dst s1) <| check (pcStop 1 s) <|
  .next (s2.finish (cmpFlags s.ccr (memRead sz s.a[src] s) (memRead sz s1.a[dst] s)) 0 1)

/-- NEG (rule R91). -/
def execNeg (sz : Size) (ea : Ea) (s : State) : Result :=
  modifyEa (.neg sz ea) sz ea 0 s (negEffect s.ccr)

/-- NEGX (rule R92). -/
def execNegx (sz : Size) (ea : Ea) (s : State) : Result :=
  modifyEa (.negx sz ea) sz ea 0 s (negxEffect s.ccr)

end Sys2Proof.Machine
end

