-- ==== Sys2Proof/Machine/Bits.lean ====
section
/-! DEFINITION. Bit instructions: BTST, BCHG, BCLR, BSET (46_bit.md). -/

namespace Sys2Proof.Machine

/-- BTST, bit number in a register (rule R140). -/
def execBtstReg (bit : RegNum) (ea : Ea) (s : State) : Result :=
  testBit (.btstReg bit ea) ea 0 s.d[bit].toNat s

/-- BTST, immediate bit number (rule R140). -/
def execBtstImm (bit : Byte) (ea : Ea) (s : State) : Result :=
  testBit (.btstImm bit ea) ea 1 bit.toNat s

/-- BCHG, bit number in a register (rule R141). -/
def execBchgReg (bit : RegNum) (ea : Ea) (s : State) : Result :=
  modifyBit (.bchgReg bit ea) ea 0 s.d[bit].toNat s fun D mask => D ^^^ mask

/-- BCHG, immediate bit number (rule R141). -/
def execBchgImm (bit : Byte) (ea : Ea) (s : State) : Result :=
  modifyBit (.bchgImm bit ea) ea 1 bit.toNat s fun D mask => D ^^^ mask

/-- BCLR, bit number in a register (rule R143). -/
def execBclrReg (bit : RegNum) (ea : Ea) (s : State) : Result :=
  modifyBit (.bclrReg bit ea) ea 0 s.d[bit].toNat s fun D mask => D &&& ~~~mask

/-- BCLR, immediate bit number (rule R143). -/
def execBclrImm (bit : Byte) (ea : Ea) (s : State) : Result :=
  modifyBit (.bclrImm bit ea) ea 1 bit.toNat s fun D mask => D &&& ~~~mask

/-- BSET, bit number in a register (rule R142). -/
def execBsetReg (bit : RegNum) (ea : Ea) (s : State) : Result :=
  modifyBit (.bsetReg bit ea) ea 0 s.d[bit].toNat s fun D mask => D ||| mask

/-- BSET, immediate bit number (rule R142). -/
def execBsetImm (bit : Byte) (ea : Ea) (s : State) : Result :=
  modifyBit (.bsetImm bit ea) ea 1 bit.toNat s fun D mask => D ||| mask

end Sys2Proof.Machine
end

