-- ==== Sys2Proof/Machine/Bounds.lean ====
section
/-! DEFINITION. Bounds checks: CHK, CHK2 (44_chk.md). Out of bounds the machine does not step (60_exceptions.md rule R201). -/

namespace Sys2Proof.Machine

/-- CHK (rule R120): the low bits of Dn against 0 and the bound at `<ea>`; four free values. -/
def execChk (sz : Size) (dn : RegNum) (ea : Ea) (s : State) : Result :=
  let words := 1 + ea.extWords sz
  let R := lowPart sz s.d[dn]
  let UB := eaRead sz ea 0 s
  check (formStop (.chk sz dn ea)) <| check (eaReadStop sz ea 0 s) <|
  check (refuseIf (chkOut R UB) .outOfBounds) <| check (pcStop words s) <|
  .next ((eaAfter sz ea s).finish (chkFlags s R UB) 4 words)

/-- The address of CHK2's lower bound: its `<ea>` follows one extension word. -/
def chk2Addr (sz : Size) (ea : Ea) (s : State) : Long :=
  match eaLoc sz ea (s.extAddr 1) s with
  | .mem addr => addr
  | _ => 0

/-- The address of CHK2's upper bound, "the next operand-size unit" (rule R121). -/
def chk2UpperAddr (sz : Size) (ea : Ea) (s : State) : Long := chk2Addr sz ea s + BitVec.ofNat 32 sz.bytes

/-- CHK2's three values at 32 bits, for an address register: the register and the sign-extended bounds. -/
def chk2Wide (sz : Size) (reg : RegNum) (ea : Ea) (s : State) : Long × Long × Long :=
  (s.a[reg], (memRead sz (chk2Addr sz ea s) s).signExtend 32, (memRead sz (chk2UpperAddr sz ea s) s).signExtend 32)

/-- CHK2's three values at the operand size, for a data register. -/
def chk2Narrow (sz : Size) (reg : RegNum) (ea : Ea) (s : State) : BitVec sz.bits × BitVec sz.bits × BitVec sz.bits :=
  (lowPart sz s.d[reg], memRead sz (chk2Addr sz ea s) s, memRead sz (chk2UpperAddr sz ea s) s)

/-- CHK2's condition codes. -/
def chk2Result (sz : Size) (isAddr : Bool) (reg : RegNum) (ea : Ea) (s : State) : CCR :=
  if isAddr then
    let (R, LB, UB) := chk2Wide sz reg ea s
    chk2Flags s R LB UB
  else
    let (R, LB, UB) := chk2Narrow sz reg ea s
    chk2Flags s R LB UB

/-- The upper bound would start at or past the top of the address space (U10). -/
def chk2WrapStop (sz : Size) (ea : Ea) (s : State) : Option Stop :=
  refuseIf (2 ^ 32 ≤ (chk2Addr sz ea s).toNat + sz.bytes) .addressWrap

/-- CHK2 (rule R121), where `P_HAS_CHK2`: the lower bound at `<ea>`, the upper one after it; two free values. -/
def execChk2 (sz : Size) (isAddr : Bool) (reg : RegNum) (ea : Ea) (s : State) : Result :=
  let words := 2 + ea.extWords sz
  let f := chk2Result sz isAddr reg ea s
  check (refuseIf (!s.cfg.hasChk2) .chk2Absent) <| check (formStop (.chk2 sz isAddr reg ea)) <|
  check (eaStop sz ea (s.extAddr 1) s) <| check (accessStop sz (chk2Addr sz ea s) s) <|
  check (chk2WrapStop sz ea s) <| check (accessStop sz (chk2UpperAddr sz ea s) s) <|
  check (refuseIf f.c .outOfBounds) <| check (pcStop words s) <|
  .next (s.finish f 2 words)

end Sys2Proof.Machine
end

