-- ==== Sys2Proof/Machine/Conditions.lean ====
section
/-! DEFINITION. The users of the conditional tests: the fourteen conditional branches (48_conditional_tests.md rule R187) and
the sixteen set instructions (rule R188). -/

namespace Sys2Proof.Machine

/-- BHI (rules R187, R173). -/
def execBhi (disp : Disp) (s : State) : Result := branch (.bhi disp) .hi disp s

/-- BLS (rules R187, R174). -/
def execBls (disp : Disp) (s : State) : Result := branch (.bls disp) .ls disp s

/-- BCC (rules R187, R175). -/
def execBcc (disp : Disp) (s : State) : Result := branch (.bcc disp) .cc disp s

/-- BCS (rules R187, R176). -/
def execBcs (disp : Disp) (s : State) : Result := branch (.bcs disp) .cs disp s

/-- BNE (rules R187, R177). -/
def execBne (disp : Disp) (s : State) : Result := branch (.bne disp) .ne disp s

/-- BEQ (rules R187, R178). -/
def execBeq (disp : Disp) (s : State) : Result := branch (.beq disp) .eq disp s

/-- BVC (rules R187, R179). -/
def execBvc (disp : Disp) (s : State) : Result := branch (.bvc disp) .vc disp s

/-- BVS (rules R187, R180). -/
def execBvs (disp : Disp) (s : State) : Result := branch (.bvs disp) .vs disp s

/-- BPL (rules R187, R181). -/
def execBpl (disp : Disp) (s : State) : Result := branch (.bpl disp) .pl disp s

/-- BMI (rules R187, R182). -/
def execBmi (disp : Disp) (s : State) : Result := branch (.bmi disp) .mi disp s

/-- BGE (rules R187, R183). -/
def execBge (disp : Disp) (s : State) : Result := branch (.bge disp) .ge disp s

/-- BLT (rules R187, R184). -/
def execBlt (disp : Disp) (s : State) : Result := branch (.blt disp) .lt disp s

/-- BGT (rules R187, R185). -/
def execBgt (disp : Disp) (s : State) : Result := branch (.bgt disp) .gt disp s

/-- BLE (rules R187, R186). -/
def execBle (disp : Disp) (s : State) : Result := branch (.ble disp) .le disp s

/-- ST (rules R188, R171). -/
def execSt (ea : Ea) (s : State) : Result := setByte (.st ea) .t ea s

/-- SF (rules R188, R172). -/
def execSf (ea : Ea) (s : State) : Result := setByte (.sf ea) .f ea s

/-- SHI (rules R188, R173). -/
def execShi (ea : Ea) (s : State) : Result := setByte (.shi ea) .hi ea s

/-- SLS (rules R188, R174). -/
def execSls (ea : Ea) (s : State) : Result := setByte (.sls ea) .ls ea s

/-- SCC (rules R188, R175). -/
def execScc (ea : Ea) (s : State) : Result := setByte (.scc ea) .cc ea s

/-- SCS (rules R188, R176). -/
def execScs (ea : Ea) (s : State) : Result := setByte (.scs ea) .cs ea s

/-- SNE (rules R188, R177). -/
def execSne (ea : Ea) (s : State) : Result := setByte (.sne ea) .ne ea s

/-- SEQ (rules R188, R178). -/
def execSeq (ea : Ea) (s : State) : Result := setByte (.seq ea) .eq ea s

/-- SVC (rules R188, R179). -/
def execSvc (ea : Ea) (s : State) : Result := setByte (.svc ea) .vc ea s

/-- SVS (rules R188, R180). -/
def execSvs (ea : Ea) (s : State) : Result := setByte (.svs ea) .vs ea s

/-- SPL (rules R188, R181). -/
def execSpl (ea : Ea) (s : State) : Result := setByte (.spl ea) .pl ea s

/-- SMI (rules R188, R182). -/
def execSmi (ea : Ea) (s : State) : Result := setByte (.smi ea) .mi ea s

/-- SGE (rules R188, R183). -/
def execSge (ea : Ea) (s : State) : Result := setByte (.sge ea) .ge ea s

/-- SLT (rules R188, R184). -/
def execSlt (ea : Ea) (s : State) : Result := setByte (.slt ea) .lt ea s

/-- SGT (rules R188, R185). -/
def execSgt (ea : Ea) (s : State) : Result := setByte (.sgt ea) .gt ea s

/-- SLE (rules R188, R186). -/
def execSle (ea : Ea) (s : State) : Result := setByte (.sle ea) .le ea s

end Sys2Proof.Machine
end

