-- ==== Sys2Proof/Machine/Decimal.lean ====
section
/-! DEFINITION. Decimal arithmetic: ABCD, SBCD, NBCD (41_bcd.md). -/

namespace Sys2Proof.Machine

/-- An operand holds a digit above 9 and `P_BCD_INVALID` refuses it (decision D18). -/
def bcdStop (s : State) (S D : Byte) : Option Stop :=
  refuseIf (!(bcdValid S && bcdValid D) && s.cfg.bcdInvalid = .refuse) .invalidDecimal

/-- ABCD (rule R70). -/
def execAbcd (form : XForm) (dst src : RegNum) (s : State) : Result :=
  extended .byte form dst src s (abcdEffect s) (bcdStop s)

/-- SBCD (rule R71). -/
def execSbcd (form : XForm) (dst src : RegNum) (s : State) : Result :=
  extended .byte form dst src s (sbcdEffect s) (bcdStop s)

/-- NBCD (rule R72). -/
def execNbcd (ea : Ea) (s : State) : Result :=
  modifyEa (.nbcd ea) .byte ea 0 s (nbcdEffect s) fun D => bcdStop s D D

end Sys2Proof.Machine
end

