-- ==== Sys2Proof/Machine/Logic.lean ====
section
/-! DEFINITION. Logical, move, clear, extend, complement and test (43_logic_move.md). -/

namespace Sys2Proof.Machine

/-- AND (rule R100). -/
def execAnd (sz : Size) (dir : Dir) (dn : RegNum) (ea : Ea) (s : State) : Result :=
  opmode (.and sz dir dn ea) sz dir dn ea s fun S D => logicEffect s.ccr (S &&& D)

/-- ANDI (rule R101). -/
def execAndi (sz : Size) (imm : Long) (ea : Ea) (s : State) : Result :=
  modifyEa (.andi sz imm ea) sz ea sz.immWords s fun D => logicEffect s.ccr (lowPart sz imm &&& D)

/-- EOR (rule R102). -/
def execEor (sz : Size) (dn : RegNum) (ea : Ea) (s : State) : Result :=
  modifyEa (.eor sz dn ea) sz ea 0 s fun D => logicEffect s.ccr (lowPart sz s.d[dn] ^^^ D)

/-- EORI (rule R103). -/
def execEori (sz : Size) (imm : Long) (ea : Ea) (s : State) : Result :=
  modifyEa (.eori sz imm ea) sz ea sz.immWords s fun D => logicEffect s.ccr (lowPart sz imm ^^^ D)

/-- MOVEQ (rule R104). -/
def execMoveq (dn : RegNum) (data : Byte) (s : State) : Result :=
  let R : Long := data.signExtend 32
  check (pcStop 1 s) <| .next ((s.setD dn R).finish (logicFlags s.ccr R) 0 1)

/-- MOVE (rule R105): the source is read before the destination is addressed (log 16). -/
def execMove (sz : Size) (src dst : Ea) (s : State) : Result :=
  let before := src.extWords sz
  let words := 1 + before + dst.extWords sz
  let R := eaRead sz src 0 s
  let s1 := eaAfter sz src s
  check (formStop (.move sz src dst)) <| check (eaReadStop sz src 0 s) <| check (eaWriteStop sz dst before s1) <|
  check (pcStop words s) <|
  .next ((eaWrite sz dst before R s1).finish (logicFlags s.ccr R) 0 words)

/-- OR (rule R106). -/
def execOr (sz : Size) (dir : Dir) (dn : RegNum) (ea : Ea) (s : State) : Result :=
  opmode (.or sz dir dn ea) sz dir dn ea s fun S D => logicEffect s.ccr (S ||| D)

/-- ORI (rule R107). -/
def execOri (sz : Size) (imm : Long) (ea : Ea) (s : State) : Result :=
  modifyEa (.ori sz imm ea) sz ea sz.immWords s fun D => logicEffect s.ccr (lowPart sz imm ||| D)

/-- CLR (rule R108): the old value plays no part and is not read (log 24). -/
def execClr (sz : Size) (ea : Ea) (s : State) : Result :=
  storeEa (.clr sz ea) sz ea s 0 (logicFlags s.ccr (0 : BitVec sz.bits))

/-- EXT.W (rule R109): the sign-extended low byte to the low word. -/
def execExtW (dn : RegNum) (s : State) : Result :=
  let R : Word := (lowPart .byte s.d[dn]).signExtend 16
  check (pcStop 1 s) <| .next ((s.setDLow .word dn R).finish (logicFlags s.ccr R) 0 1)

/-- EXT.L (rule R109): the sign-extended low word to the whole register. -/
def execExtL (dn : RegNum) (s : State) : Result :=
  let R : Long := (lowPart .word s.d[dn]).signExtend 32
  check (pcStop 1 s) <| .next ((s.setD dn R).finish (logicFlags s.ccr R) 0 1)

/-- NOT (rule R110). -/
def execNot (sz : Size) (ea : Ea) (s : State) : Result :=
  modifyEa (.not sz ea) sz ea 0 s fun D => logicEffect s.ccr (~~~D)

/-- TAS (rule R111). -/
def execTas (ea : Ea) (s : State) : Result :=
  modifyEa (.tas ea) .byte ea 0 s (tasEffect s.ccr)

/-- TST (rule R112). -/
def execTst (sz : Size) (ea : Ea) (s : State) : Result :=
  testEa (.tst sz ea) sz ea 0 s (logicFlags s.ccr)

end Sys2Proof.Machine
end

