-- ==== Sys2Proof/Machine/MulDiv.lean ====
section
/-! DEFINITION. Divide and multiply: DIVS, DIVU, MULS, MULU (45_mul_div.md). -/

namespace Sys2Proof.Machine

/-- A zero divisor (60_exceptions.md rule R202). -/
def divisorStop (S : Word) : Option Stop := refuseIf (S == 0) .divideByZero

/-- DIVS (rule R130): the 32-bit register by the 16-bit operand. -/
def execDivs (dn : RegNum) (ea : Ea) (s : State) : Result :=
  eaToDn (.divs dn ea) .word dn ea 0 s (divsEffect s) divisorStop

/-- DIVU (rule R131). -/
def execDivu (dn : RegNum) (ea : Ea) (s : State) : Result :=
  eaToDn (.divu dn ea) .word dn ea 0 s (divuEffect s) divisorStop

/-- The 32 x 32 form is absent (`P_MUL_DIV_FORMS`). -/
def mulFormStop (form : MulForm) (s : State) : Option Stop :=
  refuseIf (form = .long && !s.cfg.longMultiply) .longMultiplyAbsent

/-- MULS (rule R132). -/
def execMuls (form : MulForm) (dn : RegNum) (ea : Ea) (s : State) : Result :=
  check (mulFormStop form s) <|
  eaToDn (.muls form dn ea) form.size dn ea form.controlWords s fun S D => mulsEffect s.ccr S (lowPart form.size D)

/-- MULU (rule R133). -/
def execMulu (form : MulForm) (dn : RegNum) (ea : Ea) (s : State) : Result :=
  check (mulFormStop form s) <|
  eaToDn (.mulu form dn ea) form.size dn ea form.controlWords s fun S D => muluEffect s.ccr S (lowPart form.size D)

end Sys2Proof.Machine
end

