-- ==== Sys2Proof/Machine/Shifts.lean ====
section
/-! DEFINITION. Shifts and rotates, on a data register and on a word of memory (47_shift_rotate.md). -/

namespace Sys2Proof.Machine

/-- ASR of a data register (rule R154). -/
def execAsrReg (sz : Size) (count : ShiftCount) (dn : RegNum) (s : State) : Result :=
  shiftDn .asr sz count dn s

/-- ASR of a word of memory (rule R154). -/
def execAsrMem (ea : Ea) (s : State) : Result :=
  shiftEa (.asrMem ea) .asr ea s

/-- ASL of a data register (rule R150). -/
def execAslReg (sz : Size) (count : ShiftCount) (dn : RegNum) (s : State) : Result :=
  shiftDn .asl sz count dn s

/-- ASL of a word of memory (rule R150). -/
def execAslMem (ea : Ea) (s : State) : Result :=
  shiftEa (.aslMem ea) .asl ea s

/-- LSR of a data register (rule R155). -/
def execLsrReg (sz : Size) (count : ShiftCount) (dn : RegNum) (s : State) : Result :=
  shiftDn .lsr sz count dn s

/-- LSR of a word of memory (rule R155). -/
def execLsrMem (ea : Ea) (s : State) : Result :=
  shiftEa (.lsrMem ea) .lsr ea s

/-- LSL of a data register (rule R151). -/
def execLslReg (sz : Size) (count : ShiftCount) (dn : RegNum) (s : State) : Result :=
  shiftDn .lsl sz count dn s

/-- LSL of a word of memory (rule R151). -/
def execLslMem (ea : Ea) (s : State) : Result :=
  shiftEa (.lslMem ea) .lsl ea s

/-- ROXR of a data register (rule R156). -/
def execRoxrReg (sz : Size) (count : ShiftCount) (dn : RegNum) (s : State) : Result :=
  shiftDn .roxr sz count dn s

/-- ROXR of a word of memory (rule R156). -/
def execRoxrMem (ea : Ea) (s : State) : Result :=
  shiftEa (.roxrMem ea) .roxr ea s

/-- ROXL of a data register (rule R152). -/
def execRoxlReg (sz : Size) (count : ShiftCount) (dn : RegNum) (s : State) : Result :=
  shiftDn .roxl sz count dn s

/-- ROXL of a word of memory (rule R152). -/
def execRoxlMem (ea : Ea) (s : State) : Result :=
  shiftEa (.roxlMem ea) .roxl ea s

/-- ROR of a data register (rule R157). -/
def execRorReg (sz : Size) (count : ShiftCount) (dn : RegNum) (s : State) : Result :=
  shiftDn .ror sz count dn s

/-- ROR of a word of memory (rule R157). -/
def execRorMem (ea : Ea) (s : State) : Result :=
  shiftEa (.rorMem ea) .ror ea s

/-- ROL of a data register (rule R153). -/
def execRolReg (sz : Size) (count : ShiftCount) (dn : RegNum) (s : State) : Result :=
  shiftDn .rol sz count dn s

/-- ROL of a word of memory (rule R153). -/
def execRolMem (ea : Ea) (s : State) : Result :=
  shiftEa (.rolMem ea) .rol ea s

end Sys2Proof.Machine
end

