-- ==== Sys2Proof/Machine/Dispatch.lean ====
section
/-! DEFINITION. What each instruction does: one arm per constructor of `Instr`, in the order of spec/opcode_table.json. -/

namespace Sys2Proof.Machine

def exec (i : Instr) (s : State) : Host.Outcome State Fault Refusal :=
  match i with
  | .abcd form dst src => Sys2Proof.Machine.execAbcd form dst src s
  | .add sz dir dn ea => Sys2Proof.Machine.execAdd sz dir dn ea s
  | .addi sz imm ea => Sys2Proof.Machine.execAddi sz imm ea s
  | .addq sz data ea => Sys2Proof.Machine.execAddq sz data ea s
  | .addxB form dst src => Sys2Proof.Machine.execAddxB form dst src s
  | .addxW form dst src => Sys2Proof.Machine.execAddxW form dst src s
  | .addxL form dst src => Sys2Proof.Machine.execAddxL form dst src s
  | .and sz dir dn ea => Sys2Proof.Machine.execAnd sz dir dn ea s
  | .andi sz imm ea => Sys2Proof.Machine.execAndi sz imm ea s
  | .eor sz dn ea => Sys2Proof.Machine.execEor sz dn ea s
  | .eori sz imm ea => Sys2Proof.Machine.execEori sz imm ea s
  | .moveq dn data => Sys2Proof.Machine.execMoveq dn data s
  | .move sz src dst => Sys2Proof.Machine.execMove sz src dst s
  | .or sz dir dn ea => Sys2Proof.Machine.execOr sz dir dn ea s
  | .ori sz imm ea => Sys2Proof.Machine.execOri sz imm ea s
  | .clr sz ea => Sys2Proof.Machine.execClr sz ea s
  | .extW dn => Sys2Proof.Machine.execExtW dn s
  | .extL dn => Sys2Proof.Machine.execExtL dn s
  | .not sz ea => Sys2Proof.Machine.execNot sz ea s
  | .tas ea => Sys2Proof.Machine.execTas ea s
  | .tst sz ea => Sys2Proof.Machine.execTst sz ea s
  | .chk sz dn ea => Sys2Proof.Machine.execChk sz dn ea s
  | .chk2 sz isAddr reg ea => Sys2Proof.Machine.execChk2 sz isAddr reg ea s
  | .sub sz dir dn ea => Sys2Proof.Machine.execSub sz dir dn ea s
  | .subi sz imm ea => Sys2Proof.Machine.execSubi sz imm ea s
  | .subq sz data ea => Sys2Proof.Machine.execSubq sz data ea s
  | .subxB form dst src => Sys2Proof.Machine.execSubxB form dst src s
  | .subxW form dst src => Sys2Proof.Machine.execSubxW form dst src s
  | .subxL form dst src => Sys2Proof.Machine.execSubxL form dst src s
  | .cmpB dn ea => Sys2Proof.Machine.execCmpB dn ea s
  | .cmpW dn ea => Sys2Proof.Machine.execCmpW dn ea s
  | .cmpL dn ea => Sys2Proof.Machine.execCmpL dn ea s
  | .cmpi sz imm ea => Sys2Proof.Machine.execCmpi sz imm ea s
  | .cmpm sz dst src => Sys2Proof.Machine.execCmpm sz dst src s
  | .divs dn ea => Sys2Proof.Machine.execDivs dn ea s
  | .divu dn ea => Sys2Proof.Machine.execDivu dn ea s
  | .muls form dn ea => Sys2Proof.Machine.execMuls form dn ea s
  | .mulu form dn ea => Sys2Proof.Machine.execMulu form dn ea s
  | .sbcd form dst src => Sys2Proof.Machine.execSbcd form dst src s
  | .nbcd ea => Sys2Proof.Machine.execNbcd ea s
  | .neg sz ea => Sys2Proof.Machine.execNeg sz ea s
  | .negx sz ea => Sys2Proof.Machine.execNegx sz ea s
  | .btstReg bit ea => Sys2Proof.Machine.execBtstReg bit ea s
  | .btstImm bit ea => Sys2Proof.Machine.execBtstImm bit ea s
  | .bchgReg bit ea => Sys2Proof.Machine.execBchgReg bit ea s
  | .bchgImm bit ea => Sys2Proof.Machine.execBchgImm bit ea s
  | .bclrReg bit ea => Sys2Proof.Machine.execBclrReg bit ea s
  | .bclrImm bit ea => Sys2Proof.Machine.execBclrImm bit ea s
  | .bsetReg bit ea => Sys2Proof.Machine.execBsetReg bit ea s
  | .bsetImm bit ea => Sys2Proof.Machine.execBsetImm bit ea s
  | .asrReg sz count dn => Sys2Proof.Machine.execAsrReg sz count dn s
  | .asrMem ea => Sys2Proof.Machine.execAsrMem ea s
  | .aslReg sz count dn => Sys2Proof.Machine.execAslReg sz count dn s
  | .aslMem ea => Sys2Proof.Machine.execAslMem ea s
  | .lsrReg sz count dn => Sys2Proof.Machine.execLsrReg sz count dn s
  | .lsrMem ea => Sys2Proof.Machine.execLsrMem ea s
  | .lslReg sz count dn => Sys2Proof.Machine.execLslReg sz count dn s
  | .lslMem ea => Sys2Proof.Machine.execLslMem ea s
  | .roxrReg sz count dn => Sys2Proof.Machine.execRoxrReg sz count dn s
  | .roxrMem ea => Sys2Proof.Machine.execRoxrMem ea s
  | .roxlReg sz count dn => Sys2Proof.Machine.execRoxlReg sz count dn s
  | .roxlMem ea => Sys2Proof.Machine.execRoxlMem ea s
  | .rorReg sz count dn => Sys2Proof.Machine.execRorReg sz count dn s
  | .rorMem ea => Sys2Proof.Machine.execRorMem ea s
  | .rolReg sz count dn => Sys2Proof.Machine.execRolReg sz count dn s
  | .rolMem ea => Sys2Proof.Machine.execRolMem ea s
  | .bhi disp => Sys2Proof.Machine.execBhi disp s
  | .bls disp => Sys2Proof.Machine.execBls disp s
  | .bcc disp => Sys2Proof.Machine.execBcc disp s
  | .bcs disp => Sys2Proof.Machine.execBcs disp s
  | .bne disp => Sys2Proof.Machine.execBne disp s
  | .beq disp => Sys2Proof.Machine.execBeq disp s
  | .bvc disp => Sys2Proof.Machine.execBvc disp s
  | .bvs disp => Sys2Proof.Machine.execBvs disp s
  | .bpl disp => Sys2Proof.Machine.execBpl disp s
  | .bmi disp => Sys2Proof.Machine.execBmi disp s
  | .bge disp => Sys2Proof.Machine.execBge disp s
  | .blt disp => Sys2Proof.Machine.execBlt disp s
  | .bgt disp => Sys2Proof.Machine.execBgt disp s
  | .ble disp => Sys2Proof.Machine.execBle disp s
  | .st ea => Sys2Proof.Machine.execSt ea s
  | .sf ea => Sys2Proof.Machine.execSf ea s
  | .shi ea => Sys2Proof.Machine.execShi ea s
  | .sls ea => Sys2Proof.Machine.execSls ea s
  | .scc ea => Sys2Proof.Machine.execScc ea s
  | .scs ea => Sys2Proof.Machine.execScs ea s
  | .sne ea => Sys2Proof.Machine.execSne ea s
  | .seq ea => Sys2Proof.Machine.execSeq ea s
  | .svc ea => Sys2Proof.Machine.execSvc ea s
  | .svs ea => Sys2Proof.Machine.execSvs ea s
  | .spl ea => Sys2Proof.Machine.execSpl ea s
  | .smi ea => Sys2Proof.Machine.execSmi ea s
  | .sge ea => Sys2Proof.Machine.execSge ea s
  | .slt ea => Sys2Proof.Machine.execSlt ea s
  | .sgt ea => Sys2Proof.Machine.execSgt ea s
  | .sle ea => Sys2Proof.Machine.execSle ea s

end Sys2Proof.Machine
end

