-- ==== Sys2Proof/Decode.lean ====
section
/-! DEFINITION. The decoder, total on any words, and after it the encoder, both from 30_encoding.md rules R43 to R47 and
section 5.3 (opcode_table.json). An operation word is read by its four fields: bits 15 to 12 (the line), 11 to 9, 8 to 6,
5 to 3 and 2 to 0. Where two rows match a word, the row with more mask bits is the instruction (section 5.3). -/

namespace Sys2Proof

/-- Why words are not an instruction. -/
inductive DecodeRefusal where
  /-- no rule of the spec gives the operation word a meaning (rule R48) -/
  | noRule (op : Word)
  /-- the instruction needs more words than there are -/
  | truncated
deriving DecidableEq, Repr

/-- A decoding: a value and the words left, or the reason there is none. -/
abbrev Dec (α : Type) := Except DecodeRefusal (α × List Word)

/-- A decoding that goes on with the words left; a refusal stays. -/
def Dec.andThen {α β : Type} (x : Dec α) (k : α → List Word → Dec β) : Dec β :=
  match x with
  | .ok (a, ws) => k a ws
  | .error e => .error e

/-- The register a 3-bit field names. -/
def regOf (n : Nat) : RegNum := ⟨n % 8, Nat.mod_lt n (by decide)⟩

/-- The next word. -/
def takeWord : List Word → Dec Word
  | [] => .error .truncated
  | w :: ws => .ok (w, ws)

/-- The next two words as a long word, the first the more significant (rule R31). -/
def takeLong : List Word → Dec Long
  | hi :: lo :: ws => .ok (hi ++ lo, ws)
  | _ => .error .truncated

/-- An immediate: the low byte of a word, a word, or two words (rule R47), zero-extended. -/
def takeImm : Size → List Word → Dec Long
  | .byte, ws =>
    (takeWord ws).andThen fun w ws =>
    .ok ((w.setWidth 8).setWidth 32, ws)
  | .word, ws =>
    (takeWord ws).andThen fun w ws =>
    .ok (w.setWidth 32, ws)
  | .long, ws => takeLong ws

/-- The index extension word (log 13): bit 15 the kind of register, 14 to 12 its number, 11 long, 10 to 8 zero, 7 to 0 the
displacement. `none` for the forms with a scale or of the full format, which have no rule. -/
def decodeIndex (w : Word) : Option Index :=
  if w.toNat / 256 % 8 = 0 then
    some ⟨w.toNat / 32768 % 2 = 1, regOf (w.toNat / 4096), w.toNat / 2048 % 2 = 1, w.setWidth 8⟩
  else none

/-- The index extension word that comes next. -/
def takeIndex (op : Word) (ws : List Word) : Dec Index :=
  (takeWord ws).andThen fun w ws =>
  match decodeIndex w with
  | some ix => .ok (ix, ws)
  | none => .error (.noRule op)

/-- The effective address of a mode and a register field (rule R47), with its extension words. -/
def decodeEa (op : Word) (sz : Size) (mode reg : Nat) (ws : List Word) : Dec Ea :=
  match mode, reg with
  | 0, r => .ok (.dn (regOf r), ws)
  | 1, r => .ok (.an (regOf r), ws)
  | 2, r => .ok (.ind (regOf r), ws)
  | 3, r => .ok (.postInc (regOf r), ws)
  | 4, r => .ok (.preDec (regOf r), ws)
  | 5, r =>
    (takeWord ws).andThen fun d ws =>
    .ok (.disp (regOf r) d, ws)
  | 6, r =>
    (takeIndex op ws).andThen fun ix ws =>
    .ok (.index (regOf r) ix, ws)
  | 7, 0 =>
    (takeWord ws).andThen fun a ws =>
    .ok (.absW a, ws)
  | 7, 1 =>
    (takeLong ws).andThen fun a ws =>
    .ok (.absL a, ws)
  | 7, 2 =>
    (takeWord ws).andThen fun d ws =>
    .ok (.pcDisp d, ws)
  | 7, 3 =>
    (takeIndex op ws).andThen fun ix ws =>
    .ok (.pcIndex ix, ws)
  | 7, 4 =>
    (takeImm sz ws).andThen fun v ws =>
    .ok (.imm v, ws)
  | _, _ => .error (.noRule op)

/-- The 2-bit Size field: 00 Byte, 01 Word, 10 Long, 11 not a size (rule R42). -/
def sizeField (n : Nat) : Option Size :=
  match n with
  | 0 => some .byte
  | 1 => some .word
  | 2 => some .long
  | _ => none

/-- The size of an Opmode field or of a Size field whose high bit is a direction: its low two bits. -/
def sized (op : Word) (n : Nat) (k : Size → Dec Instr) : Dec Instr :=
  match sizeField n with
  | some sz => k sz
  | none => .error (.noRule op)

/-- An instruction of one effective address. -/
def withEa (op : Word) (sz : Size) (mode reg : Nat) (ws : List Word) (k : Ea → Instr) : Dec Instr :=
  (decodeEa op sz mode reg ws).andThen fun ea ws =>
  .ok (k ea, ws)

/-- An instruction of an immediate and an effective address. That the immediate's words come before those of `<ea>` is
PRESUMED (log 28). -/
def withImmEa (op : Word) (sz : Size) (mode reg : Nat) (ws : List Word) (k : Long → Ea → Instr) : Dec Instr :=
  (takeImm sz ws).andThen fun v ws =>
  (decodeEa op sz mode reg ws).andThen fun ea ws =>
  .ok (k v ea, ws)

/-- A bit instruction with an immediate bit number, "in its low byte" of one word (opcode_table.json). That this
word comes before those of `<ea>` is PRESUMED (log 28). -/
def withBitEa (op : Word) (mode reg : Nat) (ws : List Word) (k : Byte → Ea → Instr) : Dec Instr :=
  (takeWord ws).andThen fun w ws =>
  (decodeEa op .byte mode reg ws).andThen fun ea ws =>
  .ok (k (w.setWidth 8) ea, ws)

/-- CHK2: extension word `a rrr 1 000 0000 0000` (opcode_table.json). That it comes before the words of `<ea>` is
PRESUMED (log 28). -/
def decodeChk2 (op : Word) (sz : Size) (mode reg : Nat) (ws : List Word) : Dec Instr :=
  (takeWord ws).andThen fun w ws =>
  if w.toNat % 4096 = 2048 then
    (decodeEa op sz mode reg ws).andThen fun ea ws =>
    .ok (.chk2 sz (w.toNat / 32768 % 2 = 1) (regOf (w.toNat / 4096)) ea, ws)
  else .error (.noRule op)

/-- The condition a 4-bit encoding selects (Table 4-11, rule R46). -/
def condOf (n : Nat) : Cond :=
  match n with
  | 0 => .t | 1 => .f | 2 => .hi | 3 => .ls | 4 => .cc | 5 => .cs | 6 => .ne | 7 => .eq
  | 8 => .vc | 9 => .vs | 10 => .pl | 11 => .mi | 12 => .ge | 13 => .lt | 14 => .gt | _ => .le

/-- The conditional branch of a condition; none for T and F, "Not available for the Bcc instruction". -/
def bccOf : Cond → Option (Disp → Instr)
  | .t => none
  | .f => none
  | .hi => some .bhi
  | .ls => some .bls
  | .cc => some .bcc
  | .cs => some .bcs
  | .ne => some .bne
  | .eq => some .beq
  | .vc => some .bvc
  | .vs => some .bvs
  | .pl => some .bpl
  | .mi => some .bmi
  | .ge => some .bge
  | .lt => some .blt
  | .gt => some .bgt
  | .le => some .ble

/-- The set instruction of a condition: all sixteen (rule R188). -/
def sccOf : Cond → Ea → Instr
  | .t => .st
  | .f => .sf
  | .hi => .shi
  | .ls => .sls
  | .cc => .scc
  | .cs => .scs
  | .ne => .sne
  | .eq => .seq
  | .vc => .svc
  | .vs => .svs
  | .pl => .spl
  | .mi => .smi
  | .ge => .sge
  | .lt => .slt
  | .gt => .sgt
  | .le => .sle

/-- The form bit of ABCD, SBCD, ADDX, SUBX, here as the mode field 000 or 001 (rule R43). -/
def formOf (mode : Nat) : XForm := if mode = 0 then .data else .predec

/-- Line 0: immediates, bit instructions, CHK2. -/
def decodeLine0 (op : Word) (r9 opm mode reg : Nat) (ws : List Word) : Dec Instr :=
  match opm with
  | 4 => withEa op .byte mode reg ws (.btstReg (regOf r9))
  | 5 => withEa op .byte mode reg ws (.bchgReg (regOf r9))
  | 6 => withEa op .byte mode reg ws (.bclrReg (regOf r9))
  | 7 => withEa op .byte mode reg ws (.bsetReg (regOf r9))
  | 3 =>
    match r9 with
    | 0 => decodeChk2 op .byte mode reg ws
    | 1 => decodeChk2 op .word mode reg ws
    | 2 => decodeChk2 op .long mode reg ws
    | 4 => withBitEa op mode reg ws .bsetImm
    | _ => .error (.noRule op)
  | _ =>
    match r9 with
    | 0 => sized op opm fun sz => withImmEa op sz mode reg ws (.ori sz)
    | 1 => sized op opm fun sz => withImmEa op sz mode reg ws (.andi sz)
    | 2 => sized op opm fun sz => withImmEa op sz mode reg ws (.subi sz)
    | 3 => sized op opm fun sz => withImmEa op sz mode reg ws (.addi sz)
    | 4 =>
      match opm with
      | 0 => withBitEa op mode reg ws .btstImm
      | 1 => withBitEa op mode reg ws .bchgImm
      | _ => withBitEa op mode reg ws .bclrImm
    | 5 => sized op opm fun sz => withImmEa op sz mode reg ws (.eori sz)
    | 6 => sized op opm fun sz => withImmEa op sz mode reg ws (.cmpi sz)
    | _ => .error (.noRule op)

/-- Lines 1, 3 and 2: MOVE of a byte, a word, a long word. That the source's extension words come before the
destination's is PRESUMED (log 28). -/
def decodeMove (op : Word) (sz : Size) (r9 opm mode reg : Nat) (ws : List Word) : Dec Instr :=
  (decodeEa op sz mode reg ws).andThen fun src ws =>
  (decodeEa op sz opm r9 ws).andThen fun dst ws =>
  .ok (.move sz src dst, ws)

/-- Line 4: the single-operand instructions, EXT, CHK. -/
def decodeLine4 (op : Word) (r9 opm mode reg : Nat) (ws : List Word) : Dec Instr :=
  match opm with
  | 6 => withEa op .word mode reg ws (.chk .word (regOf r9))
  | 4 => withEa op .long mode reg ws (.chk .long (regOf r9))
  | 5 => .error (.noRule op)
  | 7 => .error (.noRule op)
  | _ =>
    match r9 with
    | 0 => sized op opm fun sz => withEa op sz mode reg ws (.negx sz)
    | 1 => sized op opm fun sz => withEa op sz mode reg ws (.clr sz)
    | 2 => sized op opm fun sz => withEa op sz mode reg ws (.neg sz)
    | 3 => sized op opm fun sz => withEa op sz mode reg ws (.not sz)
    | 4 =>
      match opm with
      | 0 => withEa op .byte mode reg ws .nbcd
      | 1 => .error (.noRule op)
      | 2 => if mode = 0 then .ok (.extW (regOf reg), ws) else .error (.noRule op)
      | _ => if mode = 0 then .ok (.extL (regOf reg), ws) else .error (.noRule op)
    | 5 =>
      match opm with
      | 3 => withEa op .byte mode reg ws .tas
      | _ => sized op opm fun sz => withEa op sz mode reg ws (.tst sz)
    | _ => .error (.noRule op)

/-- Line 5: the set instructions, ADDQ, SUBQ. -/
def decodeLine5 (op : Word) (r9 opm mode reg : Nat) (ws : List Word) : Dec Instr :=
  match opm with
  | 3 => withEa op .byte mode reg ws (sccOf (condOf (r9 * 2)))
  | 7 => withEa op .byte mode reg ws (sccOf (condOf (r9 * 2 + 1)))
  | _ =>
    if opm < 4 then sized op opm fun sz => withEa op sz mode reg ws (.addq sz (regOf r9))
    else sized op (opm - 4) fun sz => withEa op sz mode reg ws (.subq sz (regOf r9))

/-- Line 6: the conditional branches (rule R187). -/
def decodeLine6 (op : Word) (ws : List Word) : Dec Instr :=
  match bccOf (condOf (op.toNat / 256 % 16)) with
  | none => .error (.noRule op)
  | some k =>
    if op.toNat % 256 = 0 then
      (takeWord ws).andThen fun d ws =>
      .ok (k (.word d), ws)
    else .ok (k (.byte (op.setWidth 8)), ws)

/-- Line 8: OR, DIVU, DIVS, SBCD. -/
def decodeLine8 (op : Word) (r9 opm mode reg : Nat) (ws : List Word) : Dec Instr :=
  match opm with
  | 3 => withEa op .word mode reg ws (.divu (regOf r9))
  | 7 => withEa op .word mode reg ws (.divs (regOf r9))
  | _ =>
    if opm < 4 then sized op opm fun sz => withEa op sz mode reg ws (.or sz .toDn (regOf r9))
    else if opm = 4 ∧ mode < 2 then .ok (.sbcd (formOf mode) (regOf r9) (regOf reg), ws)
    else sized op (opm - 4) fun sz => withEa op sz mode reg ws (.or sz .toEa (regOf r9))

/-- Line 9: SUB, SUBX. -/
def decodeLine9 (op : Word) (r9 opm mode reg : Nat) (ws : List Word) : Dec Instr :=
  if opm < 4 then sized op opm fun sz => withEa op sz mode reg ws (.sub sz .toDn (regOf r9))
  else if mode < 2 then
    match opm with
    | 4 => .ok (.subxB (formOf mode) (regOf r9) (regOf reg), ws)
    | 5 => .ok (.subxW (formOf mode) (regOf r9) (regOf reg), ws)
    | 6 => .ok (.subxL (formOf mode) (regOf r9) (regOf reg), ws)
    | _ => .error (.noRule op)
  else sized op (opm - 4) fun sz => withEa op sz mode reg ws (.sub sz .toEa (regOf r9))

/-- Line 11: CMP (Opmodes 000, 001, 010 of rule R45), CMPM, EOR. -/
def decodeLineB (op : Word) (r9 opm mode reg : Nat) (ws : List Word) : Dec Instr :=
  match opm with
  | 0 => withEa op .byte mode reg ws (.cmpB (regOf r9))
  | 1 => withEa op .word mode reg ws (.cmpW (regOf r9))
  | 2 => withEa op .long mode reg ws (.cmpL (regOf r9))
  | 3 => .error (.noRule op)
  | 7 => .error (.noRule op)
  | _ =>
    sized op (opm - 4) fun sz =>
      if mode = 1 then .ok (.cmpm sz (regOf r9) (regOf reg), ws)
      else withEa op sz mode reg ws (.eor sz (regOf r9))

/-- Line 12: AND, MULU, MULS, ABCD. -/
def decodeLineC (op : Word) (r9 opm mode reg : Nat) (ws : List Word) : Dec Instr :=
  match opm with
  | 3 => withEa op .word mode reg ws (.mulu .word (regOf r9))
  | 7 => withEa op .word mode reg ws (.muls .word (regOf r9))
  | _ =>
    if opm < 4 then sized op opm fun sz => withEa op sz mode reg ws (.and sz .toDn (regOf r9))
    else if opm = 4 ∧ mode < 2 then .ok (.abcd (formOf mode) (regOf r9) (regOf reg), ws)
    else sized op (opm - 4) fun sz => withEa op sz mode reg ws (.and sz .toEa (regOf r9))

/-- Line 13: ADD, ADDX. -/
def decodeLineD (op : Word) (r9 opm mode reg : Nat) (ws : List Word) : Dec Instr :=
  if opm < 4 then sized op opm fun sz => withEa op sz mode reg ws (.add sz .toDn (regOf r9))
  else if mode < 2 then
    match opm with
    | 4 => .ok (.addxB (formOf mode) (regOf r9) (regOf reg), ws)
    | 5 => .ok (.addxW (formOf mode) (regOf r9) (regOf reg), ws)
    | 6 => .ok (.addxL (formOf mode) (regOf r9) (regOf reg), ws)
    | _ => .error (.noRule op)
  else sized op (opm - 4) fun sz => withEa op sz mode reg ws (.add sz .toEa (regOf r9))

/-- The register shift of bits 4 to 3 (`tt`) and bit 8 (left). -/
def shiftRegOf (tt : Nat) (left : Bool) : Size → ShiftCount → RegNum → Instr :=
  match tt, left with
  | 0, false => .asrReg
  | 0, true => .aslReg
  | 1, false => .lsrReg
  | 1, true => .lslReg
  | 2, false => .roxrReg
  | 2, true => .roxlReg
  | _, false => .rorReg
  | _, true => .rolReg

/-- The memory shift of bits 10 to 9 (`tt`) and bit 8 (left). -/
def shiftMemOf (tt : Nat) (left : Bool) : Ea → Instr :=
  match tt, left with
  | 0, false => .asrMem
  | 0, true => .aslMem
  | 1, false => .lsrMem
  | 1, true => .lslMem
  | 2, false => .roxrMem
  | 2, true => .roxlMem
  | _, false => .rorMem
  | _, true => .rolMem

/-- Line 14: shifts and rotates, on memory when bits 7 to 6 are 11. -/
def decodeLineE (op : Word) (r9 opm mode reg : Nat) (ws : List Word) : Dec Instr :=
  if opm % 4 = 3 then
    if r9 < 4 then withEa op .word mode reg ws (shiftMemOf r9 (opm = 7))
    else .error (.noRule op)
  else
    sized op (opm % 4) fun sz =>
      let count : ShiftCount := if mode / 4 = 1 then .reg (regOf r9) else .imm (regOf r9)
      .ok (shiftRegOf (mode % 4) (4 ≤ opm) sz count (regOf reg), ws)

/-- One instruction by its fields, before the check of its operand form. -/
def decodeFields (op : Word) (line r9 opm mode reg : Nat) (ws : List Word) : Dec Instr :=
  match line with
  | 0 => decodeLine0 op r9 opm mode reg ws
  | 1 => decodeMove op .byte r9 opm mode reg ws
  | 2 => decodeMove op .long r9 opm mode reg ws
  | 3 => decodeMove op .word r9 opm mode reg ws
  | 4 => decodeLine4 op r9 opm mode reg ws
  | 5 => decodeLine5 op r9 opm mode reg ws
  | 6 => decodeLine6 op ws
  | 7 => if opm < 4 then .ok (.moveq (regOf r9) (op.setWidth 8), ws) else .error (.noRule op)
  | 8 => decodeLine8 op r9 opm mode reg ws
  | 9 => decodeLine9 op r9 opm mode reg ws
  | 11 => decodeLineB op r9 opm mode reg ws
  | 12 => decodeLineC op r9 opm mode reg ws
  | 13 => decodeLineD op r9 opm mode reg ws
  | 14 => decodeLineE op r9 opm mode reg ws
  | _ => .error (.noRule op)

/-- The instruction at the front of a list of words and the words after it. An operand form that no rule covers is
refused (rule R48). The words are taken from the left, and the form is checked once they are: where a form that no rule
covers also lacks words, the missing word is what is reported, a DESIGN CHOICE (log 31). -/
def decode : List Word → Dec Instr
  | [] => .error .truncated
  | op :: ws =>
    let n := op.toNat
    match decodeFields op (n / 4096) (n / 512 % 8) (n / 64 % 8) (n / 8 % 8) (n % 8) ws with
    | .ok (i, rest) => if i.wf then .ok (i, rest) else .error (.noRule op)
    | .error e => .error e

/-- Bytes as words, the byte at the lower address the more significant (rule R31). -/
def wordsOfBytes : List Byte → List Word
  | hi :: lo :: bs => (hi ++ lo) :: wordsOfBytes bs
  | _ => []

/-- Words as bytes, each word's more significant byte first (rule R31). -/
def bytesOfWords : List Word → List Byte
  | [] => []
  | w :: ws => w.extractLsb' 8 8 :: w.setWidth 8 :: bytesOfWords ws

/-- The instruction at the front of a list of bytes, as memory holds them. -/
def decodeBytes (bs : List Byte) : Except DecodeRefusal Instr :=
  match decode (wordsOfBytes bs) with
  | .ok (i, _) => .ok i
  | .error e => .error e

/-- The words of an instruction of `nbits` bits whose bits are `w`, bit 0 the least significant of the first word; every
bit above is 0, up to the longest instruction, five words (MOVE.L #imm,(xxx).L). -/
def tableWords (nbits w : Nat) : List Word :=
  (List.range 5).map fun i => BitVec.ofNat 16 (w % 2 ^ nbits / 65536 ^ i)

/-- The instruction the decoder reads from an instruction word numbered as spec/opcode_table.json numbers its bits. -/
def decodeTableWord (nbits w : Nat) : Option Instr :=
  match decodeBytes (bytesOfWords (tableWords nbits w)) with
  | .ok i => some i
  | .error _ => none

/-! ### The encoder -/

namespace Ea

/-- The mode field of rule R47. -/
def modeField : Ea → Nat
  | .dn _ => 0
  | .an _ => 1
  | .ind _ => 2
  | .postInc _ => 3
  | .preDec _ => 4
  | .disp _ _ => 5
  | .index _ _ => 6
  | _ => 7

/-- The register field of rule R47. -/
def regField : Ea → Nat
  | .dn r => r
  | .an r => r
  | .ind r => r
  | .postInc r => r
  | .preDec r => r
  | .disp r _ => r
  | .index r _ => r
  | .absW _ => 0
  | .absL _ => 1
  | .pcDisp _ => 2
  | .pcIndex _ => 3
  | .imm _ => 4

/-- Bits 5 to 0 of an operation word. -/
def field (ea : Ea) : Nat := ea.modeField * 8 + ea.regField

end Ea

/-- The two words of a long word. -/
def longWords (v : Long) : List Word := [v.extractLsb' 16 16, v.setWidth 16]

/-- The words of an immediate (rule R47). -/
def immEncoding : Size → Long → List Word
  | .byte, v => [(v.setWidth 8).setWidth 16]
  | .word, v => [v.setWidth 16]
  | .long, v => longWords v

/-- The index extension word (log 13). -/
def encodeIndex (ix : Index) : Word :=
  BitVec.ofNat 16 (ix.isAddr.toNat * 32768 + ix.reg * 4096 + ix.isLong.toNat * 2048 + ix.disp.toNat)

/-- The extension words of an effective address. -/
def Ea.encoding (sz : Size) : Ea → List Word
  | .disp _ d => [d]
  | .index _ ix => [encodeIndex ix]
  | .absW a => [a]
  | .absL a => longWords a
  | .pcDisp d => [d]
  | .pcIndex ix => [encodeIndex ix]
  | .imm v => immEncoding sz v
  | _ => []

/-- The Size field of rule R42. -/
def Size.field : Size → Nat
  | .byte => 0
  | .word => 1
  | .long => 2

/-- The size field of MOVE, bits 13 to 12: 01 Byte, 11 Word, 10 Long. -/
def Size.moveField : Size → Nat
  | .byte => 1
  | .word => 3
  | .long => 2

/-- The 4-bit encoding of a condition (Table 4-11, rule R46). -/
def Cond.field : Cond → Nat
  | .t => 0 | .f => 1 | .hi => 2 | .ls => 3 | .cc => 4 | .cs => 5 | .ne => 6 | .eq => 7
  | .vc => 8 | .vs => 9 | .pl => 10 | .mi => 11 | .ge => 12 | .lt => 13 | .gt => 14 | .le => 15

/-- The form bit, bit 3, of ABCD, SBCD, ADDX and SUBX. -/
def XForm.field : XForm → Nat
  | .data => 0
  | .predec => 1

/-- Bit 8 of an Opmode field: the direction. -/
def Dir.field : Dir → Nat
  | .toDn => 0
  | .toEa => 1

/-- Bits 11 to 9 of a register shift: the count or the register that holds it. -/
def ShiftCount.field : ShiftCount → Nat
  | .imm c => c
  | .reg r => r

/-- Bit 5 of a register shift: where the count is. -/
def ShiftCount.kindField : ShiftCount → Nat
  | .imm _ => 0
  | .reg _ => 1

/-- An operation word from its five fields. -/
def opWord (line r9 opm low : Nat) : Word := BitVec.ofNat 16 (line * 4096 + r9 * 512 + opm * 64 + low)

/-- ADD, SUB, AND, OR. -/
def encodeOpmode (line : Nat) (sz : Size) (dir : Dir) (dn : RegNum) (ea : Ea) : List Word :=
  opWord line dn (dir.field * 4 + sz.field) ea.field :: ea.encoding sz

/-- ORI, ANDI, SUBI, ADDI, EORI, CMPI; the immediate's words first (log 28). -/
def encodeImmediate (r9 : Nat) (sz : Size) (imm : Long) (ea : Ea) : List Word :=
  opWord 0 r9 sz.field ea.field :: (immEncoding sz imm ++ ea.encoding sz)

/-- ABCD, SBCD, ADDX, SUBX. -/
def encodeExtended (line opm : Nat) (form : XForm) (dst src : RegNum) : List Word :=
  [opWord line dst opm (form.field * 8 + src)]

/-- CLR, NEG, NEGX, NOT, TST. -/
def encodeSingle (r9 : Nat) (sz : Size) (ea : Ea) : List Word :=
  opWord 4 r9 sz.field ea.field :: ea.encoding sz

/-- A data register and an effective address, Opmode fixed. -/
def encodeDnEa (line opm : Nat) (sz : Size) (dn : RegNum) (ea : Ea) : List Word :=
  opWord line dn opm ea.field :: ea.encoding sz

/-- A bit instruction with its number in a register. -/
def encodeBitReg (opm : Nat) (bit : RegNum) (ea : Ea) : List Word :=
  opWord 0 bit opm ea.field :: ea.encoding .byte

/-- A bit instruction with an immediate number, its word first (log 28). -/
def encodeBitImm (opm : Nat) (bit : Byte) (ea : Ea) : List Word :=
  opWord 0 4 opm ea.field :: bit.setWidth 16 :: ea.encoding .byte

/-- A multiply: the 16-bit form. The 32-bit form, which `P_MUL_DIV_FORMS` may admit, has no words in the spec and none here
(rule R48; log 6). -/
def encodeMultiply (opm : Nat) (form : MulForm) (dn : RegNum) (ea : Ea) : List Word :=
  match form with
  | .word => encodeDnEa 12 opm .word dn ea
  | .long => []

/-- A register shift. -/
def encodeShiftReg (tt left : Nat) (sz : Size) (count : ShiftCount) (dn : RegNum) : List Word :=
  [opWord 14 count.field (left * 4 + sz.field) (count.kindField * 32 + tt * 8 + dn)]

/-- A memory shift. -/
def encodeShiftMem (tt left : Nat) (ea : Ea) : List Word :=
  opWord 14 tt (left * 4 + 3) ea.field :: ea.encoding .word

/-- A conditional branch. -/
def encodeBcc (c : Cond) : Disp → List Word
  | .byte d => [BitVec.ofNat 16 (6 * 4096 + c.field * 256 + d.toNat)]
  | .word d => [BitVec.ofNat 16 (6 * 4096 + c.field * 256), d]

/-- A set instruction. -/
def encodeScc (c : Cond) (ea : Ea) : List Word :=
  BitVec.ofNat 16 (5 * 4096 + c.field * 256 + 192 + ea.field) :: ea.encoding .byte

/-- The words of an instruction (30_encoding.md section 5; opcode_table.json), the extension words of several operands in
the order of log 28; no words for the 32-bit multiply (log 6). -/
def encode : Instr → List Word
  | .abcd form dst src => encodeExtended 12 4 form dst src
  | .add sz dir dn ea => encodeOpmode 13 sz dir dn ea
  | .addi sz imm ea => encodeImmediate 3 sz imm ea
  | .addq sz data ea => opWord 5 data sz.field ea.field :: ea.encoding sz
  | .addxB form dst src => encodeExtended 13 4 form dst src
  | .addxW form dst src => encodeExtended 13 5 form dst src
  | .addxL form dst src => encodeExtended 13 6 form dst src
  | .and sz dir dn ea => encodeOpmode 12 sz dir dn ea
  | .andi sz imm ea => encodeImmediate 1 sz imm ea
  | .eor sz dn ea => encodeDnEa 11 (4 + sz.field) sz dn ea
  | .eori sz imm ea => encodeImmediate 5 sz imm ea
  | .moveq dn data => [BitVec.ofNat 16 (7 * 4096 + dn * 512 + data.toNat)]
  | .move sz src dst =>
    opWord sz.moveField dst.regField dst.modeField src.field :: (src.encoding sz ++ dst.encoding sz)
  | .or sz dir dn ea => encodeOpmode 8 sz dir dn ea
  | .ori sz imm ea => encodeImmediate 0 sz imm ea
  | .clr sz ea => encodeSingle 1 sz ea
  | .extW dn => [opWord 4 4 2 dn]
  | .extL dn => [opWord 4 4 3 dn]
  | .not sz ea => encodeSingle 3 sz ea
  | .tas ea => opWord 4 5 3 ea.field :: ea.encoding .byte
  | .tst sz ea => encodeSingle 5 sz ea
  | .chk sz dn ea => encodeDnEa 4 (if sz = .long then 4 else 6) sz dn ea
  | .chk2 sz isAddr reg ea =>
    opWord 0 sz.field 3 ea.field :: BitVec.ofNat 16 (isAddr.toNat * 32768 + reg * 4096 + 2048) :: ea.encoding sz
  | .sub sz dir dn ea => encodeOpmode 9 sz dir dn ea
  | .subi sz imm ea => encodeImmediate 2 sz imm ea
  | .subq sz data ea => opWord 5 data (4 + sz.field) ea.field :: ea.encoding sz
  | .subxB form dst src => encodeExtended 9 4 form dst src
  | .subxW form dst src => encodeExtended 9 5 form dst src
  | .subxL form dst src => encodeExtended 9 6 form dst src
  | .cmpB dn ea => encodeDnEa 11 0 .byte dn ea
  | .cmpW dn ea => encodeDnEa 11 1 .word dn ea
  | .cmpL dn ea => encodeDnEa 11 2 .long dn ea
  | .cmpi sz imm ea => encodeImmediate 6 sz imm ea
  | .cmpm sz dst src => [opWord 11 dst (4 + sz.field) (8 + src)]
  | .divs dn ea => encodeDnEa 8 7 .word dn ea
  | .divu dn ea => encodeDnEa 8 3 .word dn ea
  | .muls form dn ea => encodeMultiply 7 form dn ea
  | .mulu form dn ea => encodeMultiply 3 form dn ea
  | .sbcd form dst src => encodeExtended 8 4 form dst src
  | .nbcd ea => opWord 4 4 0 ea.field :: ea.encoding .byte
  | .neg sz ea => encodeSingle 2 sz ea
  | .negx sz ea => encodeSingle 0 sz ea
  | .btstReg bit ea => encodeBitReg 4 bit ea
  | .btstImm bit ea => encodeBitImm 0 bit ea
  | .bchgReg bit ea => encodeBitReg 5 bit ea
  | .bchgImm bit ea => encodeBitImm 1 bit ea
  | .bclrReg bit ea => encodeBitReg 6 bit ea
  | .bclrImm bit ea => encodeBitImm 2 bit ea
  | .bsetReg bit ea => encodeBitReg 7 bit ea
  | .bsetImm bit ea => encodeBitImm 3 bit ea
  | .asrReg sz count dn => encodeShiftReg 0 0 sz count dn
  | .asrMem ea => encodeShiftMem 0 0 ea
  | .aslReg sz count dn => encodeShiftReg 0 1 sz count dn
  | .aslMem ea => encodeShiftMem 0 1 ea
  | .lsrReg sz count dn => encodeShiftReg 1 0 sz count dn
  | .lsrMem ea => encodeShiftMem 1 0 ea
  | .lslReg sz count dn => encodeShiftReg 1 1 sz count dn
  | .lslMem ea => encodeShiftMem 1 1 ea
  | .roxrReg sz count dn => encodeShiftReg 2 0 sz count dn
  | .roxrMem ea => encodeShiftMem 2 0 ea
  | .roxlReg sz count dn => encodeShiftReg 2 1 sz count dn
  | .roxlMem ea => encodeShiftMem 2 1 ea
  | .rorReg sz count dn => encodeShiftReg 3 0 sz count dn
  | .rorMem ea => encodeShiftMem 3 0 ea
  | .rolReg sz count dn => encodeShiftReg 3 1 sz count dn
  | .rolMem ea => encodeShiftMem 3 1 ea
  | .bhi d => encodeBcc .hi d
  | .bls d => encodeBcc .ls d
  | .bcc d => encodeBcc .cc d
  | .bcs d => encodeBcc .cs d
  | .bne d => encodeBcc .ne d
  | .beq d => encodeBcc .eq d
  | .bvc d => encodeBcc .vc d
  | .bvs d => encodeBcc .vs d
  | .bpl d => encodeBcc .pl d
  | .bmi d => encodeBcc .mi d
  | .bge d => encodeBcc .ge d
  | .blt d => encodeBcc .lt d
  | .bgt d => encodeBcc .gt d
  | .ble d => encodeBcc .le d
  | .st ea => encodeScc .t ea
  | .sf ea => encodeScc .f ea
  | .shi ea => encodeScc .hi ea
  | .sls ea => encodeScc .ls ea
  | .scc ea => encodeScc .cc ea
  | .scs ea => encodeScc .cs ea
  | .sne ea => encodeScc .ne ea
  | .seq ea => encodeScc .eq ea
  | .svc ea => encodeScc .vc ea
  | .svs ea => encodeScc .vs ea
  | .spl ea => encodeScc .pl ea
  | .smi ea => encodeScc .mi ea
  | .sge ea => encodeScc .ge ea
  | .slt ea => encodeScc .lt ea
  | .sgt ea => encodeScc .gt ea
  | .sle ea => encodeScc .le ea

end Sys2Proof
end

