-- ==== Sys2Proof/Machine/Fetch.lean ====
section
/-! DEFINITION. Fetching an instruction: its words in memory at the pc, big-endian (20_memory.md rule R31), as many as the
memory map holds there, up to the longest instruction. -/

namespace Sys2Proof.Machine

/-- The longest instruction, in words. -/
def maxWords : Nat := 5

/-- The words from an address on, up to `k`, as far as both bytes of each are allocated (rule R30). -/
def fetchWords : Nat → Nat → State → List Word
  | 0, _, _ => []
  | k + 1, addr, s =>
    if allocated s.cfg addr && allocated s.cfg (addr + 1) then
      (s.mem.read addr ++ s.mem.read (addr + 1)) :: fetchWords k (addr + 2) s
    else []

/-- The instruction at the pc, or why there is none: an odd pc (rules R20, R32), an encoding with no rule (rule R48), a word
of the instruction outside the memory map (rule R30). Which is reported where several apply is a DESIGN CHOICE (log 31): the
odd pc first, then what the decoder meets first, so that the extension word 0x003C needs is reported as outside the map
before the form is refused. -/
def fetch (s : State) : Except Stop Instr :=
  if s.pc.toNat % 2 = 1 then .error (.refused (.oddFetch s.pc))
  else
    let ws := fetchWords maxWords s.pc.toNat s
    match decode ws with
    | .ok (i, _) => .ok i
    | .error (.noRule op) => .error (.refused (.noSuchEncoding op))
    | .error .truncated => .error (.fault (.outsideMap (s.pc.toNat + 2 * ws.length)))

/-- The state with the words of an instruction, numbered as spec/opcode_table.json numbers its bits, stored at the pc; the
load that puts a program into memory from outside (70_reset_and_hazards.md rule R215; log 9). -/
def placeWord (s : State) (nbits w : Nat) : State :=
  { s with mem := s.mem.writeBytes s.pc.toNat (bytesOfWords (tableWords nbits w)) }

end Sys2Proof.Machine
end

