-- ==== Sys2Proof/Safety.lean ====
section
/-! DEFINITION. The terms claims are stated in: the invariant of the machine, launched and ended runs, what each instruction
may change, and the arithmetic meaning of the condition codes. -/

namespace Sys2Proof.Machine

/-! ### States and runs -/

/-- The invariant: memory is canonical and the pc is even (10_state.md rule R20: "instructions are at even addresses"). -/
def State.inv (s : State) : Bool := s.mem.wf && s.pc.toNat % 2 == 0

/-- A launched machine: the pc at an even address inside the program text (70_reset_and_hazards.md rule R212). -/
def State.launched (s : State) : Bool := s.pc.toNat % 2 == 0 && inRegion s.cfg.text s.pc.toNat

/-- A run has ended: the pc is the address just past the program text (rule R215). -/
def State.ended (s : State) : Bool := s.pc.toNat == s.cfg.text.base + s.cfg.text.size

/-- A run is safe for `k` steps: until it ends it stays in the program text and meets no fault and no refusal (rule R215). -/
def State.safeFor : Nat → State → Bool
  | 0, _ => true
  | k + 1, s =>
    s.ended ||
      (s.launched &&
        match step s with
        | .next t => t.safeFor k
        | _ => false)

/-- Instructions executed one after the other. -/
def execAll : List Instr → State → Result
  | [], s => .next s
  | i :: is, s =>
    match exec i s with
    | .next t => execAll is t
    | r => r

end Sys2Proof.Machine

namespace Sys2Proof

open Sys2Proof.Machine

/-! ### What an instruction may change -/

/-- The data register `<ea>` names as a destination. -/
def eaDataReg : Ea → Option RegNum
  | .dn r => some r
  | _ => none

/-- The address registers `<ea>` increments or decrements. -/
def eaMoved : Ea → List RegNum
  | .postInc r => [r]
  | .preDec r => [r]
  | _ => []

/-- The address and the number of bytes of a memory operand at `<ea>`. -/
def eaStored (sz : Size) (ea : Ea) (before : Nat) (s : State) : Option (Long × Nat) :=
  match eaLoc sz ea (s.extAddr before) s with
  | .mem addr => some (addr, sz.bytes)
  | _ => none

/-- The destination data register of an extended instruction. -/
def XForm.dataReg (form : XForm) (dst : RegNum) : Option RegNum :=
  match form with
  | .data => some dst
  | .predec => none

/-- The address registers an extended instruction decrements. -/
def XForm.moved (form : XForm) (dst src : RegNum) : List RegNum :=
  match form with
  | .data => []
  | .predec => [src, dst]

/-- The bytes an extended instruction stores to: at the destination register after both decrements. -/
def extendedStored (sz : Size) (form : XForm) (dst src : RegNum) (s : State) : Option (Long × Nat) :=
  match form with
  | .data => none
  | .predec => some ((predec sz dst (predec sz src s)).a[dst], sz.bytes)

/-- The data register an opmode instruction writes. -/
def Dir.dataReg (dir : Dir) (dn : RegNum) (ea : Ea) : Option RegNum :=
  match dir with
  | .toDn => some dn
  | .toEa => eaDataReg ea

/-- The bytes an opmode instruction stores to. -/
def opmodeStored (sz : Size) (dir : Dir) (ea : Ea) (s : State) : Option (Long × Nat) :=
  match dir with
  | .toDn => none
  | .toEa => eaStored sz ea 0 s

/-- The data register an instruction writes. -/
def Instr.destD : Instr → Option RegNum
  | .abcd form dst _ | .sbcd form dst _ => form.dataReg dst
  | .addxB form dst _ | .addxW form dst _ | .addxL form dst _ => form.dataReg dst
  | .subxB form dst _ | .subxW form dst _ | .subxL form dst _ => form.dataReg dst
  | .add _ dir dn ea | .sub _ dir dn ea | .and _ dir dn ea | .or _ dir dn ea => dir.dataReg dn ea
  | .addi _ _ ea | .subi _ _ ea | .andi _ _ ea | .ori _ _ ea | .eori _ _ ea => eaDataReg ea
  | .addq _ _ ea | .subq _ _ ea => eaDataReg ea
  | .eor _ _ ea => eaDataReg ea
  | .moveq dn _ | .extW dn | .extL dn => some dn
  | .move _ _ dst => eaDataReg dst
  | .clr _ ea | .not _ ea | .neg _ ea | .negx _ ea | .tas ea | .nbcd ea => eaDataReg ea
  | .tst _ _ | .chk _ _ _ | .chk2 _ _ _ _ | .cmpB _ _ | .cmpW _ _ | .cmpL _ _ | .cmpi _ _ _ | .cmpm _ _ _ => none
  | .divs dn _ | .divu dn _ | .muls _ dn _ | .mulu _ dn _ => some dn
  | .btstReg _ _ | .btstImm _ _ => none
  | .bchgReg _ ea | .bchgImm _ ea | .bclrReg _ ea | .bclrImm _ ea | .bsetReg _ ea | .bsetImm _ ea => eaDataReg ea
  | .asrReg _ _ dn | .aslReg _ _ dn | .lsrReg _ _ dn | .lslReg _ _ dn => some dn
  | .roxrReg _ _ dn | .roxlReg _ _ dn | .rorReg _ _ dn | .rolReg _ _ dn => some dn
  | .asrMem _ | .aslMem _ | .lsrMem _ | .lslMem _ | .roxrMem _ | .roxlMem _ | .rorMem _ | .rolMem _ => none
  | .bhi _ | .bls _ | .bcc _ | .bcs _ | .bne _ | .beq _ | .bvc _ | .bvs _ => none
  | .bpl _ | .bmi _ | .bge _ | .blt _ | .bgt _ | .ble _ => none
  | .st ea | .sf ea | .shi ea | .sls ea | .scc ea | .scs ea | .sne ea | .seq ea => eaDataReg ea
  | .svc ea | .svs ea | .spl ea | .smi ea | .sge ea | .slt ea | .sgt ea | .sle ea => eaDataReg ea

/-- The address registers an instruction increments or decrements. -/
def Instr.movedA : Instr → List RegNum
  | .abcd form dst src | .sbcd form dst src => form.moved dst src
  | .addxB form dst src | .addxW form dst src | .addxL form dst src => form.moved dst src
  | .subxB form dst src | .subxW form dst src | .subxL form dst src => form.moved dst src
  | .add _ _ _ ea | .sub _ _ _ ea | .and _ _ _ ea | .or _ _ _ ea => eaMoved ea
  | .addi _ _ ea | .subi _ _ ea | .andi _ _ ea | .ori _ _ ea | .eori _ _ ea | .cmpi _ _ ea => eaMoved ea
  | .addq _ _ ea | .subq _ _ ea | .eor _ _ ea => eaMoved ea
  | .moveq _ _ | .extW _ | .extL _ | .chk2 _ _ _ _ => []
  | .move _ src dst => eaMoved src ++ eaMoved dst
  | .clr _ ea | .not _ ea | .neg _ ea | .negx _ ea | .tas ea | .nbcd ea | .tst _ ea => eaMoved ea
  | .chk _ _ ea | .cmpB _ ea | .cmpW _ ea | .cmpL _ ea => eaMoved ea
  | .cmpm _ dst src => [src, dst]
  | .divs _ ea | .divu _ ea | .muls _ _ ea | .mulu _ _ ea => eaMoved ea
  | .btstReg _ ea | .btstImm _ ea | .bchgReg _ ea | .bchgImm _ ea => eaMoved ea
  | .bclrReg _ ea | .bclrImm _ ea | .bsetReg _ ea | .bsetImm _ ea => eaMoved ea
  | .asrReg _ _ _ | .aslReg _ _ _ | .lsrReg _ _ _ | .lslReg _ _ _ => []
  | .roxrReg _ _ _ | .roxlReg _ _ _ | .rorReg _ _ _ | .rolReg _ _ _ => []
  | .asrMem ea | .aslMem ea | .lsrMem ea | .lslMem ea => eaMoved ea
  | .roxrMem ea | .roxlMem ea | .rorMem ea | .rolMem ea => eaMoved ea
  | .bhi _ | .bls _ | .bcc _ | .bcs _ | .bne _ | .beq _ | .bvc _ | .bvs _ => []
  | .bpl _ | .bmi _ | .bge _ | .blt _ | .bgt _ | .ble _ => []
  | .st ea | .sf ea | .shi ea | .sls ea | .scc ea | .scs ea | .sne ea | .seq ea => eaMoved ea
  | .svc ea | .svs ea | .spl ea | .smi ea | .sge ea | .slt ea | .sgt ea | .sle ea => eaMoved ea

/-- The bytes an instruction stores to: their first address and their number; none for a form that stores nothing. -/
def Instr.stored (i : Instr) (s : State) : Option (Long × Nat) :=
  match i with
  | .abcd form dst src | .sbcd form dst src => extendedStored .byte form dst src s
  | .addxB form dst src | .subxB form dst src => extendedStored .byte form dst src s
  | .addxW form dst src | .subxW form dst src => extendedStored .word form dst src s
  | .addxL form dst src | .subxL form dst src => extendedStored .long form dst src s
  | .add sz dir _ ea | .sub sz dir _ ea | .and sz dir _ ea | .or sz dir _ ea => opmodeStored sz dir ea s
  | .addi sz _ ea | .subi sz _ ea | .andi sz _ ea | .ori sz _ ea | .eori sz _ ea => eaStored sz ea sz.immWords s
  | .addq sz _ ea | .subq sz _ ea | .eor sz _ ea => eaStored sz ea 0 s
  | .moveq _ _ | .extW _ | .extL _ => none
  | .move sz src dst => eaStored sz dst (src.extWords sz) (eaAfter sz src s)
  | .clr sz ea | .not sz ea | .neg sz ea | .negx sz ea => eaStored sz ea 0 s
  | .tas ea | .nbcd ea => eaStored .byte ea 0 s
  | .tst _ _ | .chk _ _ _ | .chk2 _ _ _ _ | .cmpB _ _ | .cmpW _ _ | .cmpL _ _ | .cmpi _ _ _ | .cmpm _ _ _ => none
  | .divs _ _ | .divu _ _ | .muls _ _ _ | .mulu _ _ _ => none
  | .btstReg _ _ | .btstImm _ _ => none
  | .bchgReg _ ea | .bclrReg _ ea | .bsetReg _ ea => eaStored (bitSize ea) ea 0 s
  | .bchgImm _ ea | .bclrImm _ ea | .bsetImm _ ea => eaStored (bitSize ea) ea 1 s
  | .asrReg _ _ _ | .aslReg _ _ _ | .lsrReg _ _ _ | .lslReg _ _ _ => none
  | .roxrReg _ _ _ | .roxlReg _ _ _ | .rorReg _ _ _ | .rolReg _ _ _ => none
  | .asrMem ea | .aslMem ea | .lsrMem ea | .lslMem ea => eaStored .word ea 0 s
  | .roxrMem ea | .roxlMem ea | .rorMem ea | .rolMem ea => eaStored .word ea 0 s
  | .bhi _ | .bls _ | .bcc _ | .bcs _ | .bne _ | .beq _ | .bvc _ | .bvs _ => none
  | .bpl _ | .bmi _ | .bge _ | .blt _ | .bgt _ | .ble _ => none
  | .st ea | .sf ea | .shi ea | .sls ea | .scc ea | .scs ea | .sne ea | .seq ea => eaStored .byte ea 0 s
  | .svc ea | .svs ea | .spl ea | .smi ea | .sge ea | .slt ea | .sgt ea | .sle ea => eaStored .byte ea 0 s

/-- Table 4-10's columns for a row: true where the row writes the bit, false where it shows "— = Not Affected". -/
def Instr.affects (i : Instr) (s : State) : CCR :=
  match i with
  | .abcd _ _ _ | .sbcd _ _ _ | .nbcd _ => ⟨true, true, true, true, true⟩
  | .add _ _ _ _ | .addi _ _ _ | .addq _ _ _ | .sub _ _ _ _ | .subi _ _ _ | .subq _ _ _ => ⟨true, true, true, true, true⟩
  | .addxB _ _ _ | .addxW _ _ _ | .addxL _ _ _ => ⟨true, true, true, true, true⟩
  | .subxB _ _ _ | .subxW _ _ _ | .subxL _ _ _ => ⟨true, true, true, true, true⟩
  | .neg _ _ | .negx _ _ => ⟨true, true, true, true, true⟩
  | .and _ _ _ _ | .andi _ _ _ | .eor _ _ _ | .eori _ _ _ | .moveq _ _ | .move _ _ _ => ⟨false, true, true, true, true⟩
  | .or _ _ _ _ | .ori _ _ _ | .clr _ _ | .extW _ | .extL _ | .not _ _ => ⟨false, true, true, true, true⟩
  | .tas _ | .tst _ _ | .chk _ _ _ | .chk2 _ _ _ _ => ⟨false, true, true, true, true⟩
  | .cmpB _ _ | .cmpW _ _ | .cmpL _ _ | .cmpi _ _ _ | .cmpm _ _ _ => ⟨false, true, true, true, true⟩
  | .divs _ _ | .divu _ _ | .muls _ _ _ | .mulu _ _ _ => ⟨false, true, true, true, true⟩
  | .btstReg _ _ | .btstImm _ _ | .bchgReg _ _ | .bchgImm _ _ => ⟨false, false, true, false, false⟩
  | .bclrReg _ _ | .bclrImm _ _ | .bsetReg _ _ | .bsetImm _ _ => ⟨false, false, true, false, false⟩
  | .asrReg _ count _ | .aslReg _ count _ | .lsrReg _ count _ | .lslReg _ count _ =>
    ⟨shiftCount count s != 0, true, true, true, true⟩
  | .roxrReg _ count _ | .roxlReg _ count _ => ⟨shiftCount count s != 0, true, true, true, true⟩
  | .rorReg _ _ _ | .rolReg _ _ _ | .rorMem _ | .rolMem _ => ⟨false, true, true, true, true⟩
  | .asrMem _ | .aslMem _ | .lsrMem _ | .lslMem _ | .roxrMem _ | .roxlMem _ => ⟨true, true, true, true, true⟩
  | .bhi _ | .bls _ | .bcc _ | .bcs _ | .bne _ | .beq _ | .bvc _ | .bvs _ => ⟨false, false, false, false, false⟩
  | .bpl _ | .bmi _ | .bge _ | .blt _ | .bgt _ | .ble _ => ⟨false, false, false, false, false⟩
  | .st _ | .sf _ | .shi _ | .sls _ | .scc _ | .scs _ | .sne _ | .seq _ => ⟨false, false, false, false, false⟩
  | .svc _ | .svs _ | .spl _ | .smi _ | .sge _ | .slt _ | .sgt _ | .sle _ => ⟨false, false, false, false, false⟩

end Sys2Proof

namespace Sys2Proof.Machine

/-! ### The arithmetic meaning of the condition codes (40_cc_common.md rule R61) -/

/-- A number fits `n` bits as a signed number. -/
def fitsSigned (n : Nat) (v : Int) : Bool := -(2 ^ (n - 1)) ≤ v && v < 2 ^ (n - 1)

/-- The condition codes of the sum `S + D + x`: C and X the carry out, V the signed overflow, Z as given. -/
def sumFlags {n : Nat} (S D : BitVec n) (x : Bool) (z : Bool) : CCR :=
  let carry := decide (2 ^ n ≤ S.toNat + D.toNat + x.toNat)
  ⟨carry, (S + D + BitVec.ofNat n x.toNat).msb, z, !fitsSigned n (S.toInt + D.toInt + x.toNat), carry⟩

/-- The condition codes of the difference `D - S - x`: C the borrow, V the signed overflow, Z and X as given. -/
def differenceFlags {n : Nat} (S D : BitVec n) (x : Bool) (z : Bool) : CCR :=
  let borrow := decide (D.toNat < S.toNat + x.toNat)
  ⟨borrow, (D - S - BitVec.ofNat n x.toNat).msb, z, !fitsSigned n (D.toInt - S.toInt - x.toNat), borrow⟩

/-- The condition codes of a compare of D with S: as the difference, X not affected. -/
def compareFlags {n : Nat} (x : Bool) (S D : BitVec n) : CCR :=
  { differenceFlags S D false (D == S) with x := x }

/-- The condition codes of the logic row for a result. -/
def resultFlags {n : Nat} (x : Bool) (R : BitVec n) : CCR := ⟨x, R.msb, R == 0, false, false⟩

/-! ### The shapes of a completed instruction

Each says that an instruction answers a next state, and which, for every state and operands whose operand can be read or
written and whose words end below the top of the address space. -/

/-- The pc past an instruction of `words` words. -/
def State.pcPast (s : State) (words : Nat) : Long := s.pc + BitVec.ofNat 32 (2 * words)

/-- An instruction of `words` words ends below the top of the address space (rule R20). -/
abbrev State.fits (s : State) (words : Nat) : Prop := s.pc.toNat + 2 * words < 2 ^ 32

/-- `i` puts a result computed from the operand of `<ea>` and from Dn into Dn. -/
def PutsInDn (i : Instr) (sz : Size) (dn : RegNum) (ea : Ea) (before : Nat) (s : State)
    (result : BitVec sz.bits → Long) (flags : BitVec sz.bits → CCR) : Prop :=
  i.wf = true → eaReadStop sz ea before s = none → s.fits (1 + before + ea.extWords sz) →
    exec i s = .next { eaAfter sz ea s with
      d := s.d.set dn (result (eaRead sz ea before s))
      ccr := flags (eaRead sz ea before s)
      pc := s.pcPast (1 + before + ea.extWords sz) }

/-- `i` replaces the operand of `<ea>` by a result computed from it. -/
def Replaces (i : Instr) (sz : Size) (ea : Ea) (before : Nat) (s : State)
    (result : BitVec sz.bits → BitVec sz.bits) (flags : BitVec sz.bits → CCR) : Prop :=
  i.wf = true → eaReadStop sz ea before s = none → eaWriteStop sz ea before s = none →
    s.fits (1 + before + ea.extWords sz) →
    exec i s = .next { eaWrite sz ea before (result (eaRead sz ea before s)) s with
      ccr := flags (eaRead sz ea before s)
      pc := s.pcPast (1 + before + ea.extWords sz) }

/-- `i` stores a value at `<ea>` without reading it. -/
def Stores (i : Instr) (sz : Size) (ea : Ea) (s : State) (value : BitVec sz.bits) (flags : CCR) : Prop :=
  i.wf = true → eaWriteStop sz ea 0 s = none → s.fits (1 + ea.extWords sz) →
    exec i s = .next { eaWrite sz ea 0 value s with ccr := flags, pc := s.pcPast (1 + ea.extWords sz) }

/-- `i` sets the condition codes from the operand of `<ea>` and stores nothing. -/
def Tests (i : Instr) (sz : Size) (ea : Ea) (before : Nat) (s : State) (flags : BitVec sz.bits → CCR) : Prop :=
  i.wf = true → eaReadStop sz ea before s = none → s.fits (1 + before + ea.extWords sz) →
    exec i s = .next { eaAfter sz ea s with
      ccr := flags (eaRead sz ea before s)
      pc := s.pcPast (1 + before + ea.extWords sz) }

/-- `i`, one word long, puts a value into Dn. -/
def SetsDn (i : Instr) (dn : RegNum) (s : State) (value : Long) (flags : CCR) (drawn : Nat) : Prop :=
  s.fits 1 → exec i s = .next { s with
    d := s.d.set dn value, ccr := flags, pc := s.pcPast 1, draws := s.draws + drawn }

/-- `i`, one word long, decrements two address registers, the source first, and replaces the operand at the destination by
a result computed from both operands (20_memory.md rule R34). -/
def ReplacesByPredecrement (i : Instr) (sz : Size) (dst src : RegNum) (s : State)
    (result : BitVec sz.bits → BitVec sz.bits → BitVec sz.bits) (flags : BitVec sz.bits → BitVec sz.bits → CCR)
    (drawn : Nat) : Prop :=
  let k := BitVec.ofNat 32 sz.bytes
  let a1 := s.a.set src (s.a[src] - k)
  let a2 := a1.set dst (a1[dst] - k)
  let S := memRead sz a1[src] s
  let D := memRead sz a2[dst] s
  ¬ (sz = .byte ∧ (src = 7 ∨ dst = 7)) → sz.bytes ≤ s.a[src].toNat → sz.bytes ≤ a1[dst].toNat →
    accessStop sz a1[src] s = none → storeStop sz a2[dst] s = none → s.fits 1 →
    exec i s = .next { memWrite sz a2[dst] (result S D) s with
      a := a2, ccr := flags S D, pc := s.pcPast 1, draws := s.draws + drawn }

/-- ADDX of a size. -/
def addxOf (sz : Size) (form : XForm) (dst src : RegNum) : Instr :=
  match sz with
  | .byte => .addxB form dst src
  | .word => .addxW form dst src
  | .long => .addxL form dst src

/-- SUBX of a size. -/
def subxOf (sz : Size) (form : XForm) (dst src : RegNum) : Instr :=
  match sz with
  | .byte => .subxB form dst src
  | .word => .subxW form dst src
  | .long => .subxL form dst src

/-- CMP of a size. -/
def cmpOf (sz : Size) (dn : RegNum) (ea : Ea) : Instr :=
  match sz with
  | .byte => .cmpB dn ea
  | .word => .cmpW dn ea
  | .long => .cmpL dn ea

/-- The bit of an operand at an index that may leave it: below 0 it reads as 0 (47_shift_rotate.md rule R160). -/
def bitAt {n : Nat} (D : BitVec n) (j : Int) : Bool := 0 ≤ j && D.getLsbD j.toNat

/-- The number that a list of registers holds, the least significant 32 bits first. -/
def bigNumber (v : RegNum → Long) : List RegNum → Nat
  | [] => 0
  | r :: rs => (v r).toNat + 2 ^ 32 * bigNumber v rs

/-- `i` branches on a test: to the branch's address and 2 and its displacement where the test holds of the condition codes,
past its own words where it does not; it changes nothing but the pc (48_conditional_tests.md rule R187). -/
def BranchesOn (i : Disp → Instr) (test : CCR → Bool) : Prop :=
  ∀ (disp : Disp) (s : State), (i disp).wf = true →
    (test s.ccr = true → (branchTarget disp s).toNat % 2 = 0 →
      exec (i disp) s = .next { s with pc := branchTarget disp s }) ∧
    (test s.ccr = false → s.fits (1 + disp.extWords) →
      exec (i disp) s = .next { s with pc := s.pcPast (1 + disp.extWords) })

/-- `i` sets its byte on a test: 0xFF where the test holds of the condition codes, 0x00 where it does not; the condition
codes stay (rule R188). -/
def SetsOn (i : Ea → Instr) (test : CCR → Bool) : Prop :=
  ∀ (ea : Ea) (s : State), Stores (i ea) .byte ea s (if test s.ccr then (0xFF : Byte) else 0) s.ccr

/-! ### Which instructions stop with the reason an operand gives -/

/-- Where there is a reason to stop, `i` stops with it. -/
def StopsAs (i : Instr) (s : State) (stop : Option Stop) : Prop := ∀ st, stop = some st → exec i s = st.outcome

/-- The instructions that read `<ea>` at a size and then store a result there without a further reason to stop between the
two, each with the number of words before the extension words of `<ea>`. -/
def eaChangers (sz : Size) (dn : RegNum) (imm : Long) (q : Fin 8) (bit : Byte) : List (Nat × (Ea → Instr)) :=
  [(0, .add sz .toEa dn), (0, .sub sz .toEa dn), (0, .and sz .toEa dn), (0, .or sz .toEa dn), (0, .eor sz dn),
    (0, .addq sz q), (0, .subq sz q), (0, .not sz), (0, .neg sz), (0, .negx sz),
    (sz.immWords, .addi sz imm), (sz.immWords, .subi sz imm), (sz.immWords, .andi sz imm), (sz.immWords, .ori sz imm),
    (sz.immWords, .eori sz imm)] ++
  match sz with
  | .byte =>
    [(0, .tas), (0, .bchgReg dn), (0, .bclrReg dn), (0, .bsetReg dn), (1, .bchgImm bit), (1, .bclrImm bit),
      (1, .bsetImm bit)]
  | .word =>
    [(0, .asrMem), (0, .aslMem), (0, .lsrMem), (0, .lslMem), (0, .roxrMem), (0, .roxlMem), (0, .rorMem), (0, .rolMem)]
  | .long => []

/-- The instructions that read `<ea>` at a size before anything but their form can stop them, under the parameters: the 32-bit
multiply where `P_MUL_DIV_FORMS` admits it (log 6). -/
def eaReaders (cfg : Config) (sz : Size) (dn : RegNum) (imm : Long) (q : Fin 8) (bit : Byte) (dst : Ea) :
    List (Nat × (Ea → Instr)) :=
  eaChangers sz dn imm q bit ++
  [(0, .add sz .toDn dn), (0, .sub sz .toDn dn), (0, .and sz .toDn dn), (0, .or sz .toDn dn), (0, cmpOf sz dn),
    (0, .chk sz dn), (0, .tst sz), (0, fun ea => .move sz ea dst), (sz.immWords, .cmpi sz imm)] ++
  match sz with
  | .byte => [(0, .nbcd), (0, .btstReg dn), (1, .btstImm bit)]
  | .word => [(0, .divs dn), (0, .divu dn), (0, .muls .word dn), (0, .mulu .word dn)]
  | .long => if cfg.longMultiply then [(1, .muls .long dn), (1, .mulu .long dn)] else []

/-- The instructions that store at `<ea>` without reading it. -/
def eaStorers (sz : Size) (dn : RegNum) : List (Ea → Instr) :=
  [.clr sz, fun ea => .move sz (.dn dn) ea] ++
  match sz with
  | .byte => [.st, .sf, .shi, .sls, .scc, .scs, .sne, .seq, .svc, .svs, .spl, .smi, .sge, .slt, .sgt, .sle]
  | _ => []

/-- The instructions with a register form and a predecrement form, at a size. -/
def extendedOps (sz : Size) : List (XForm → RegNum → RegNum → Instr) :=
  [addxOf sz, subxOf sz] ++
  match sz with
  | .byte => [.abcd, .sbcd]
  | _ => []

/-- The decimal instructions run on two operands: both packed decimal, or `P_BCD_INVALID` free (log 11). -/
def DecimalRuns (s : State) (S D : Byte) : Prop := (bcdValid S = true ∧ bcdValid D = true) ∨ s.cfg.bcdInvalid = .free

/-! ### When an access, an address, an operand and an instruction stop

Each says both when there is a reason to stop, and which, and when there is none. -/

/-- An access of a size at an address: a misaligned one where the parameter refuses it; else one with a byte outside the memory
map; else a store with a byte in the program text; any other is done (20_memory.md rules R30, R32, R38; the order is log 30,
the fault log 21). -/
def AccessRule (sz : Size) (addr : Long) (s : State) : Prop :=
  let misaligned := sz ≠ .byte ∧ addr.toNat % 2 = 1 ∧ s.cfg.misaligned = .refuse
  let inMap := ∀ k, k < sz.bytes → allocated s.cfg (addr.toNat + k) = true
  let inText := ∃ k, k < sz.bytes ∧ inRegion s.cfg.text (addr.toNat + k) = true
  let stops (st : Stop) := accessStop sz addr s = some st ∧ storeStop sz addr s = some st
  (misaligned → stops (.refused (.misaligned addr))) ∧
  (¬ misaligned → ¬ inMap → stops (.fault (.outsideMap addr.toNat))) ∧
  (¬ misaligned → inMap → accessStop sz addr s = none ∧
    (inText → storeStop sz addr s = some (.refused (.storeToText addr))) ∧ (¬ inText → storeStop sz addr s = none))

/-- The address of each mode of memory, and when it cannot be formed: a sum of a register or the pc and a displacement or an
index, and a postincrement, that leave the address space are refused (93_implementation_defined.md U10, log 15), as is a
predecrement (20_memory.md rule R33, log 14); nothing else is. The base of (d8,PC,Xn) is log 27. -/
def AddressRule (sz : Size) (before : Nat) (s : State) (r : RegNum) (d : Word) (a : Long) (ix : Index) : Prop :=
  let ext : Long := s.pc + BitVec.ofNat 32 (2 + 2 * before)
  let x : Long := if ix.isAddr then s.a[ix.reg] else s.d[ix.reg]
  let index : Long := if ix.isLong then x else (x.extractLsb' 0 16).signExtend 32
  let inside (v : Int) : Prop := 0 ≤ v ∧ v < 2 ^ 32
  let insideWithIndex (base : Long) : Prop :=
    inside (base.toNat + ix.disp.toInt + index.toInt) ∨ inside (base.toNat + ix.disp.toInt + index.toNat)
  let refusedUnless (p : Prop) (stop : Option Stop) : Prop :=
    (p → stop = none) ∧ (¬ p → stop = some (.refused .addressWrap))
  let stop (ea : Ea) := eaStop sz ea (s.extAddr before) s
  let loc (ea : Ea) := eaLoc sz ea (s.extAddr before) s
  (loc (.ind r) = .mem s.a[r] ∧ stop (.ind r) = none) ∧
  (loc (.postInc r) = .mem s.a[r] ∧ stop (.postInc r) = none) ∧
  (loc (.preDec r) = .mem (s.a[r] - BitVec.ofNat 32 sz.bytes) ∧
    (stop (.preDec r) = none ↔ ¬ (sz = .byte ∧ r = 7) ∧ sz.bytes ≤ s.a[r].toNat)) ∧
  (loc (.disp r d) = .mem (s.a[r] + d.signExtend 32) ∧
    refusedUnless (inside (s.a[r].toNat + d.toInt)) (stop (.disp r d))) ∧
  (loc (.index r ix) = .mem (s.a[r] + ix.disp.signExtend 32 + index) ∧
    refusedUnless (insideWithIndex s.a[r]) (stop (.index r ix))) ∧
  (loc (.absW d) = .mem (d.signExtend 32) ∧ stop (.absW d) = none) ∧
  (loc (.absL a) = .mem a ∧ stop (.absL a) = none) ∧
  (loc (.pcDisp d) = .mem (ext + d.signExtend 32) ∧ refusedUnless (inside (ext.toNat + d.toInt)) (stop (.pcDisp d))) ∧
  (loc (.pcIndex ix) = .mem (ext + ix.disp.signExtend 32 + index) ∧
    refusedUnless (insideWithIndex ext) (stop (.pcIndex ix))) ∧
  refusedUnless (s.a[r].toNat + sz.bytes < 2 ^ 32) (eaAfterStop sz (.postInc r) s) ∧
  ∀ ea : Ea, (∀ q, ea ≠ .postInc q) → eaAfterStop sz ea s = none

/-- An operand of `<ea>`: of memory, the reason its address gives, else the one its access gives, else the one its increment
gives, else none (30_encoding.md rule R47); a register and an immediate are read, and a data register is stored to, always. -/
def OperandRule (sz : Size) (before : Nat) (s : State) : Prop :=
  (∀ (ea : Ea) (addr : Long), eaLoc sz ea (s.extAddr before) s = .mem addr →
    let formed := eaStop sz ea (s.extAddr before) s
    (∀ st, formed = some st → eaReadStop sz ea before s = some st ∧ eaWriteStop sz ea before s = some st) ∧
    (formed = none →
      (∀ st, accessStop sz addr s = some st → eaReadStop sz ea before s = some st) ∧
      (∀ st, storeStop sz addr s = some st → eaWriteStop sz ea before s = some st) ∧
      (accessStop sz addr s = none → eaReadStop sz ea before s = eaAfterStop sz ea s) ∧
      (storeStop sz addr s = none → eaWriteStop sz ea before s = eaAfterStop sz ea s))) ∧
  ∀ (r : RegNum) (v : Long), eaReadStop sz (.dn r) before s = none ∧ eaReadStop sz (.an r) before s = none ∧
    eaReadStop sz (.imm v) before s = none ∧ eaWriteStop sz (.dn r) before s = none

/-- The instructions with an `<ea>` stop with the reason it gives: on reading it; on storing a result there (NBCD where its
operand is one it runs on); on storing without reading; MOVE on its destination, after its source (log 16). -/
def EaRule (sz : Size) (dn : RegNum) (imm : Long) (q : Fin 8) (bit : Byte) (ea dst : Ea) (s : State) : Prop :=
  (∀ p ∈ eaReaders s.cfg sz dn imm q bit dst, (p.2 ea).wf = true → StopsAs (p.2 ea) s (eaReadStop sz ea p.1 s)) ∧
  (∀ p ∈ eaChangers sz dn imm q bit, (p.2 ea).wf = true → eaReadStop sz ea p.1 s = none →
    StopsAs (p.2 ea) s (eaWriteStop sz ea p.1 s)) ∧
  ((Instr.nbcd ea).wf = true → eaReadStop .byte ea 0 s = none →
    DecimalRuns s (eaRead .byte ea 0 s) (eaRead .byte ea 0 s) → StopsAs (.nbcd ea) s (eaWriteStop .byte ea 0 s)) ∧
  (∀ op ∈ eaStorers sz dn, (op ea).wf = true → StopsAs (op ea) s (eaWriteStop sz ea 0 s)) ∧
  ((Instr.move sz ea dst).wf = true → eaReadStop sz ea 0 s = none →
    StopsAs (.move sz ea dst) s (eaWriteStop sz dst (ea.extWords sz) (eaAfter sz ea s)))

/-- The memory forms of the extended instructions and CMPM stop with the reason of their source, then of their destination
(20_memory.md rule R34; for ABCD, SBCD and CMPM that order is log 16), the extended ones then of the store there (ABCD and SBCD
where their operands are ones they run on). -/
def ExtendedRule (sz : Size) (dst src : RegNum) (s : State) : Prop :=
  let s1 := eaAfter sz (.preDec src) s
  let s2 := eaAfter sz (.postInc src) s
  (∀ op ∈ extendedOps sz,
    StopsAs (op .predec dst src) s (eaReadStop sz (.preDec src) 0 s) ∧
    (eaReadStop sz (.preDec src) 0 s = none →
      StopsAs (op .predec dst src) s (eaReadStop sz (.preDec dst) 0 s1))) ∧
  (eaReadStop sz (.preDec src) 0 s = none → eaReadStop sz (.preDec dst) 0 s1 = none →
    let store := eaWriteStop sz (.preDec dst) 0 s1
    StopsAs (addxOf sz .predec dst src) s store ∧ StopsAs (subxOf sz .predec dst src) s store ∧
    (sz = .byte → DecimalRuns s (eaRead .byte (.preDec src) 0 s) (eaRead .byte (.preDec dst) 0 s1) →
      StopsAs (.abcd .predec dst src) s store ∧ StopsAs (.sbcd .predec dst src) s store)) ∧
  StopsAs (.cmpm sz dst src) s (eaReadStop sz (.postInc src) 0 s) ∧
  (eaReadStop sz (.postInc src) 0 s = none → StopsAs (.cmpm sz dst src) s (eaReadStop sz (.postInc dst) 0 s2))

/-- CHK2, where present, stops with the reason that forming its address gives, else the one its lower bound's access gives;
else it is refused where the upper bound would start past the top of the address space, else stops with the reason of that
bound's access (44_chk.md rule R121; the order of the last three is log 30). -/
def Chk2Rule (sz : Size) (isAddr : Bool) (reg : RegNum) (ea : Ea) (s : State) : Prop :=
  let i := Instr.chk2 sz isAddr reg ea
  s.cfg.hasChk2 = true → i.wf = true →
  StopsAs i s (eaStop sz ea (s.extAddr 1) s) ∧
  ∀ lower : Long, eaLoc sz ea (s.extAddr 1) s = .mem lower →
    let upper := lower + BitVec.ofNat 32 sz.bytes
    chk2Addr sz ea s = lower ∧ chk2UpperAddr sz ea s = upper ∧
    (eaStop sz ea (s.extAddr 1) s = none →
      StopsAs i s (accessStop sz lower s) ∧
      (accessStop sz lower s = none →
        (2 ^ 32 ≤ lower.toNat + sz.bytes → exec i s = .refused .addressWrap) ∧
        (lower.toNat + sz.bytes < 2 ^ 32 → StopsAs i s (accessStop sz upper s))))

/-- The flags of a shift or rotate result: X and C as given, V as given. -/
def shiftFlags {n : Nat} (R : BitVec n) (x v c : Bool) : CCR := ⟨x, R.msb, R == 0, v, c⟩

/-- The n bits of an operand and X before them, the ring that ROXL and ROXR turn (47_shift_rotate.md rule R160). -/
def extendRing {n : Nat} (x : Bool) (D : BitVec n) : BitVec (n + 1) := BitVec.cons x D

/-- The flags after ROXL or ROXR has turned the ring: C and X are its top bit. -/
def ringFlags {n : Nat} (ring : BitVec (n + 1)) : CCR := shiftFlags (ring.setWidth n) ring.msb false ring.msb

end Sys2Proof.Machine
end

