-- ==== Sys2Proof/Certificates/Slice0/Obligations.lean ====
section
/-! DEFINITION. The statements for the provers. A statement about one instruction gives the next state in full, so that it
says the result, the flags, the frame and that the instruction completes; the shapes (`PutsInDn`, `Replaces`, …) stand in
Safety.lean. `s` is the state before. Where a statement holds a choice of the model, its docstring names the log entry. -/

open Sys2Proof Sys2Proof.Machine

/-! ### The whole machine -/

/-- Right after reset the invariant holds, and the parameters that have a default in 00_scope.md section 5 hold it. The rest
of `State.reset` is the model's choice (log 1 to 4). -/
def Obligations.ResetMeetsTheInvariant : Prop :=
  State.reset.inv = true ∧ State.reset.cfg.misaligned = .refuse ∧ State.reset.cfg.aslCarryInverted = false ∧
    State.reset.cfg.longMultiply = false ∧ State.reset.cfg.bcdInvalid = .refuse ∧
    State.reset.cfg.shiftCountMax = 63

/-- Memory stays canonical and the pc stays even over every step from every state (10_state.md rule R20), and no step
changes a parameter. -/
def Obligations.StepKeepsTheInvariant : Prop :=
  ∀ s t : State, s.inv = true → step s = .next t → t.inv = true ∧ t.cfg = s.cfg

/-- No step changes a byte of the program text (20_memory.md rule R38). -/
def Obligations.TextIsNeverChanged : Prop :=
  ∀ s t : State, step s = .next t → ∀ a : Nat, inRegion s.cfg.text a = true → t.mem.read a = s.mem.read a

/-- The frame of the registers: an instruction changes no data register but its destination, and no address register but
those its addressing increments or decrements; no instruction changes a parameter, and the count of free values never falls
(the model's own fields, log 4 to 10). -/
def Obligations.RegisterFrame : Prop :=
  ∀ (i : Instr) (s t : State), exec i s = .next t →
    (∀ r : RegNum, i.destD ≠ some r → t.d[r] = s.d[r]) ∧ (∀ r : RegNum, r ∉ i.movedA → t.a[r] = s.a[r]) ∧
    t.cfg = s.cfg ∧ s.draws ≤ t.draws

/-- The frame of memory: an instruction changes no byte outside the operand it stores, whose address `Instr.stored` computes
as the meaning does. -/
def Obligations.MemoryFrame : Prop :=
  ∀ (i : Instr) (s t : State), exec i s = .next t → ∀ y : Nat,
    (∀ (addr : Long) (k : Nat), i.stored s = some (addr, k) → y < addr.toNat ∨ addr.toNat + k ≤ y) →
      t.mem.read y = s.mem.read y

/-- The frame of the condition codes: a bit that Table 4-10 shows as not affected keeps its value, for every instruction of
the table, the branches and the sets. -/
def Obligations.FlagFrame : Prop :=
  ∀ (i : Instr) (s t : State), exec i s = .next t →
    ((i.affects s).x = false → t.ccr.x = s.ccr.x) ∧ ((i.affects s).n = false → t.ccr.n = s.ccr.n) ∧
    ((i.affects s).z = false → t.ccr.z = s.ccr.z) ∧ ((i.affects s).v = false → t.ccr.v = s.ccr.v) ∧
    ((i.affects s).c = false → t.ccr.c = s.ccr.c)

/-! ### Decoding and stepping -/

/-- Decoding the words of a well-formed instruction gives the instruction back, whatever words follow. The one form without
words is the 32-bit multiply (log 6). The layout of the index word and the order of extension words are the model's (log 13,
28). -/
def Obligations.DecodeEncode : Prop :=
  (∀ (i : Instr) (rest : List Word), i.wf = true → encode i ≠ [] → decode (encode i ++ rest) = .ok (i, rest)) ∧
  ∀ i : Instr, encode i = [] ↔ ∃ dn ea, i = .muls .long dn ea ∨ i = .mulu .long dn ea

/-- The example words of 30_encoding.md rules R43, R44 and R47, and one more of each family by section 5.3. -/
def Obligations.ExampleWords : Prop :=
  decode [0xD580] = .ok (.addxL .data 2 0, []) ∧ decode [0x9308] = .ok (.subxB .predec 1 0, []) ∧
  decode [0xB041] = .ok (.cmpW 0 (.dn 1), []) ∧ decode [0xB001] = .ok (.cmpB 0 (.dn 1), []) ∧
  decode [0xB081] = .ok (.cmpL 0 (.dn 1), []) ∧ decode [0xC501] = .ok (.abcd .data 2 1, []) ∧
  decode [0x4A80] = .ok (.tst .long (.dn 0), []) ∧ decode [0x82C3] = .ok (.divu 1 (.dn 3), []) ∧
  decode [0x0842, 0x0005] = .ok (.bchgImm 5 (.dn 2), []) ∧ decode [0xE3A9] = .ok (.lslReg .long (.reg 1) 1, []) ∧
  decode [0x6700, 0x0010] = .ok (.beq (.word 0x10), []) ∧ decode [0x5FC4] = .ok (.sle (.dn 4), [])

/-- A step fetches the words at an even pc and executes the instruction they decode to, with nothing around it
(60_exceptions.md rule R206). -/
def Obligations.StepExecutesTheDecoded : Prop :=
  ∀ (s : State) (i : Instr) (rest : List Word), s.pc.toNat % 2 = 0 →
    decode (fetchWords maxWords s.pc.toNat s) = .ok (i, rest) → step s = exec i s

/-- Where the words of a well-formed instruction stand in memory at an even pc, big-endian, the step executes that
instruction: the fetch, the byte order (20_memory.md rule R31), the decoder and the encoder agree. -/
def Obligations.StepExecutesTheStored : Prop :=
  ∀ (s : State) (i : Instr), i.wf = true → encode i ≠ [] → s.pc.toNat % 2 = 0 →
    (∀ (k : Nat) (h : k < (encode i).length),
      allocated s.cfg (s.pc.toNat + 2 * k) = true ∧ allocated s.cfg (s.pc.toNat + 2 * k + 1) = true ∧
        s.mem.read (s.pc.toNat + 2 * k) ++ s.mem.read (s.pc.toNat + 2 * k + 1) = (encode i)[k]) →
    step s = exec i s

/-- Words that select no conditional branch (condition 0000 or 0001), words with the leading bits of CMP, ADD or SUB and Opmode
011 or 111, words of the lines 1010 and 1111, and the words 0x4C00 to 0x4C3F, which no row of the table covers, are refused,
whatever follows (30_encoding.md rule R48). -/
def Obligations.UncoveredWordsAreRefused : Prop :=
  ∀ (op : Word) (ws : List Word),
    (op.toNat / 256 = 0x60 ∨ op.toNat / 256 = 0x61 ∨
      ((op.toNat / 4096 = 11 ∨ op.toNat / 4096 = 13 ∨ op.toNat / 4096 = 9) ∧ op.toNat / 64 % 4 = 3) ∨
      op.toNat / 4096 = 10 ∨ op.toNat / 4096 = 15 ∨ op.toNat / 64 = 0x130) →
    decode (op :: ws) = .error (.noRule op)

/-- An operand form that no rule covers is refused, with no effect (rule R48). -/
def Obligations.IllFormedIsRefused : Prop :=
  ∀ (i : Instr) (s : State), i.wf = false → ∃ r, exec i s = .refused r

/-! ### The conditional tests (48_conditional_tests.md) -/

/-- T and F: their encodings, their tests, and that no conditional branch has them. -/
def Obligations.TrueAndFalseTests : Prop :=
  condOf 0 = .t ∧ condOf 1 = .f ∧ (∀ f : CCR, condHolds .t f = true ∧ condHolds .f f = false) ∧
    bccOf .t = none ∧ bccOf .f = none

/-- The tests of C and Z: encoding, formula, and what each says after a compare of D with S. -/
def Obligations.CarryAndZeroTests : Prop :=
  (condOf 2 = .hi ∧ condOf 3 = .ls ∧ condOf 4 = .cc ∧ condOf 5 = .cs ∧ condOf 6 = .ne ∧ condOf 7 = .eq) ∧
  (∀ f : CCR, condHolds .hi f = (!f.c && !f.z) ∧ condHolds .ls f = (f.c || f.z) ∧ condHolds .cc f = !f.c ∧
    condHolds .cs f = f.c ∧ condHolds .ne f = !f.z ∧ condHolds .eq f = f.z) ∧
  ∀ (sz : Size) (f : CCR) (S D : BitVec sz.bits),
    condHolds .hi (cmpFlags f S D) = decide (S.toNat < D.toNat) ∧
    condHolds .ls (cmpFlags f S D) = decide (D.toNat ≤ S.toNat) ∧
    condHolds .cc (cmpFlags f S D) = decide (S.toNat ≤ D.toNat) ∧
    condHolds .cs (cmpFlags f S D) = decide (D.toNat < S.toNat) ∧
    condHolds .ne (cmpFlags f S D) = decide (D ≠ S) ∧ condHolds .eq (cmpFlags f S D) = decide (D = S)

/-- The tests of N, V and Z: encoding, formula, and what the signed ones say after a compare of D with S. -/
def Obligations.SignAndOverflowTests : Prop :=
  (condOf 8 = .vc ∧ condOf 9 = .vs ∧ condOf 10 = .pl ∧ condOf 11 = .mi ∧ condOf 12 = .ge ∧ condOf 13 = .lt ∧
    condOf 14 = .gt ∧ condOf 15 = .le) ∧
  (∀ f : CCR, condHolds .vc f = !f.v ∧ condHolds .vs f = f.v ∧ condHolds .pl f = !f.n ∧ condHolds .mi f = f.n ∧
    condHolds .ge f = (f.n == f.v) ∧ condHolds .lt f = (f.n != f.v) ∧ condHolds .gt f = ((f.n == f.v) && !f.z) ∧
    condHolds .le f = (f.z || (f.n != f.v))) ∧
  ∀ (sz : Size) (f : CCR) (S D : BitVec sz.bits),
    condHolds .ge (cmpFlags f S D) = decide (S.toInt ≤ D.toInt) ∧
    condHolds .lt (cmpFlags f S D) = decide (D.toInt < S.toInt) ∧
    condHolds .gt (cmpFlags f S D) = decide (S.toInt < D.toInt) ∧
    condHolds .le (cmpFlags f S D) = decide (D.toInt ≤ S.toInt)

/-- Encodings that differ only in the lowest bit are complements of each other (rule R170). -/
def Obligations.PairedTestsAreComplements : Prop :=
  ∀ (n : Nat) (f : CCR), n < 8 → condHolds (condOf (2 * n + 1)) f = !condHolds (condOf (2 * n)) f

/-- After CMP, CMPI, CMPM or a SUB, SUBI or SUBQ that the machine completes, the tests compare the destination as it was with
the source, unsigned and signed (rule R189). CMPM reads its destination after the source's increment, the model's order (log
16). -/
def Obligations.TestsAfterACompare : Prop :=
  let compares (f : CCR) {sz : Size} (S D : BitVec sz.bits) : Prop :=
    condHolds .hi f = decide (S.toNat < D.toNat) ∧ condHolds .cs f = decide (D.toNat < S.toNat) ∧
    condHolds .eq f = decide (D = S) ∧ condHolds .gt f = decide (S.toInt < D.toInt) ∧
    condHolds .lt f = decide (D.toInt < S.toInt) ∧ condHolds .mi f = (D - S).msb ∧
    condHolds .vs f = !fitsSigned sz.bits (D.toInt - S.toInt)
  ∀ (sz : Size) (dn : RegNum) (ea : Ea) (s t : State),
    (exec (cmpOf sz dn ea) s = .next t → compares t.ccr (eaRead sz ea 0 s) (lowPart sz s.d[dn])) ∧
    (∀ imm : Long, exec (.cmpi sz imm ea) s = .next t →
      compares t.ccr (lowPart sz imm) (eaRead sz ea sz.immWords s)) ∧
    (∀ src : RegNum, exec (.cmpm sz dn src) s = .next t →
      compares t.ccr (memRead sz s.a[src] s) (memRead sz (postinc sz src s).a[dn] s)) ∧
    (exec (.sub sz .toDn dn ea) s = .next t → compares t.ccr (eaRead sz ea 0 s) (lowPart sz s.d[dn])) ∧
    (exec (.sub sz .toEa dn ea) s = .next t → compares t.ccr (lowPart sz s.d[dn]) (eaRead sz ea 0 s)) ∧
    (∀ imm : Long, exec (.subi sz imm ea) s = .next t →
      compares t.ccr (lowPart sz imm) (eaRead sz ea sz.immWords s)) ∧
    (∀ q : Fin 8, exec (.subq sz q ea) s = .next t →
      compares t.ccr (BitVec.ofNat sz.bits (if q = 0 then 8 else q)) (eaRead sz ea 0 s))

/-! ### The flag formulas (40_cc_common.md) -/

/-- Addition carry and overflow are the unsigned and the signed sum not fitting, with and without a carry in (rules R55,
R56, R61). -/
def Obligations.AdditionFormulas : Prop :=
  ∀ (sz : Size) (S D : BitVec sz.bits) (x : Bool),
    let R := S + D + BitVec.ofNat sz.bits x.toNat
    addC S D R = decide (2 ^ sz.bits ≤ S.toNat + D.toNat + x.toNat) ∧
      addV S D R = !fitsSigned sz.bits (S.toInt + D.toInt + x.toNat)

/-- Subtraction borrow and overflow, and the two formulas of negation, are the unsigned and the signed difference not
fitting (rules R57 to R59, R61). -/
def Obligations.SubtractionFormulas : Prop :=
  ∀ (sz : Size) (S D : BitVec sz.bits) (x : Bool),
    let R := D - S - BitVec.ofNat sz.bits x.toNat
    let Q := 0 - D - BitVec.ofNat sz.bits x.toNat
    subC S D R = decide (D.toNat < S.toNat + x.toNat) ∧
      subV S D R = (!fitsSigned sz.bits (D.toInt - S.toInt - x.toNat)) ∧
      negC D Q = decide (0 < D.toNat + x.toNat) ∧
      negV D Q = decide (D.toNat = 2 ^ (sz.bits - 1) ∧ x = false)

/-- CHK2's carry is the same whether all its comparisons are signed or unsigned, and a register that equals a bound is inside
(44_chk.md rule R121). -/
def Obligations.BoundsCarryHasNoSign : Prop :=
  ∀ (sz : Size) (R LB UB : BitVec sz.bits),
    chk2Carry R LB UB =
      ((decide (LB.toInt ≤ UB.toInt) && (decide (R.toInt < LB.toInt) || decide (UB.toInt < R.toInt))) ||
        (decide (UB.toInt < LB.toInt) && decide (UB.toInt < R.toInt) && decide (R.toInt < LB.toInt))) ∧
    (R = LB ∨ R = UB → chk2Carry R LB UB = false)

/-! ### Operands -/

/-- A result of a size put into a register: the low bits are the result, every bit above keeps its value (10_state.md rule
R18). -/
def Obligations.PartialRegisterWrite : Prop :=
  ∀ (sz : Size) (old : Long) (v : BitVec sz.bits),
    lowPart sz (mergeLow sz old v) = v ∧
      ∀ k : Nat, sz.bits ≤ k → (mergeLow sz old v).getLsbD k = old.getLsbD k

/-- An operand stored where the access is allowed reads back, its bytes most significant first (20_memory.md rule R31). -/
def Obligations.StoredOperandReadsBack : Prop :=
  ∀ (sz : Size) (addr : Long) (v : BitVec sz.bits) (s : State), s.mem.wf = true → accessStop sz addr s = none →
    memRead sz addr (memWrite sz addr v s) = v ∧ (memWrite sz addr v s).mem.wf = true ∧
      ∀ k : Nat, k < sz.bytes →
        (memWrite sz addr v s).mem.read (addr.toNat + k) = v.extractLsb' (8 * (sz.bytes - 1 - k)) 8

/-- Where each addressing mode of 30_encoding.md rule R47 finds its operand, what it leaves in its address register, and where
a result is stored. The layout of the index word and the base of (d8,PC,Xn) are the model's (log 13, 27). -/
def Obligations.AddressingModes : Prop :=
  ∀ (sz : Size) (b : Nat) (s : State) (r : RegNum) (d : Word) (a v : Long) (ix : Index),
    let x : Long := if ix.isAddr then s.a[ix.reg] else s.d[ix.reg]
    let index : Long := if ix.isLong then x else (x.extractLsb' 0 16).signExtend 32
    let ext : Long := s.pc + BitVec.ofNat 32 (2 + 2 * b)
    let k : Long := BitVec.ofNat 32 sz.bytes
    let up : State := { s with a := s.a.set r (s.a[r] + k) }
    let down : State := { s with a := s.a.set r (s.a[r] - k) }
    eaRead sz (.dn r) b s = (s.d[r]).setWidth sz.bits ∧ eaRead sz (.an r) b s = (s.a[r]).setWidth sz.bits ∧
    eaRead sz (.ind r) b s = memRead sz s.a[r] s ∧
    eaRead sz (.postInc r) b s = memRead sz s.a[r] s ∧
    eaAfter sz (.postInc r) s = up ∧
    eaRead sz (.preDec r) b s = memRead sz (s.a[r] - k) s ∧
    eaAfter sz (.preDec r) s = down ∧
    eaRead sz (.disp r d) b s = memRead sz (s.a[r] + d.signExtend 32) s ∧
    eaRead sz (.index r ix) b s = memRead sz (s.a[r] + ix.disp.signExtend 32 + index) s ∧
    eaRead sz (.absW d) b s = memRead sz (d.signExtend 32) s ∧ eaRead sz (.absL a) b s = memRead sz a s ∧
    eaRead sz (.pcDisp d) b s = memRead sz (ext + d.signExtend 32) s ∧
    eaRead sz (.pcIndex ix) b s = memRead sz (ext + ix.disp.signExtend 32 + index) s ∧
    eaRead sz (.imm v) b s = v.setWidth sz.bits ∧
    ∀ res : BitVec sz.bits,
      eaWrite sz (.dn r) b res s = { s with d := s.d.set r (mergeLow sz s.d[r] res) } ∧
      eaWrite sz (.ind r) b res s = memWrite sz s.a[r] res s ∧
      eaWrite sz (.postInc r) b res s = memWrite sz s.a[r] res up ∧
      eaWrite sz (.preDec r) b res s = memWrite sz (s.a[r] - k) res down ∧
      eaWrite sz (.disp r d) b res s = memWrite sz (s.a[r] + d.signExtend 32) res s ∧
      eaWrite sz (.index r ix) b res s = memWrite sz (s.a[r] + ix.disp.signExtend 32 + index) res s ∧
      eaWrite sz (.absW d) b res s = memWrite sz (d.signExtend 32) res s ∧
      eaWrite sz (.absL a) b res s = memWrite sz a res s

/-! ### Binary arithmetic (42_add_sub_cmp_neg.md) -/

/-- ADD in both directions, ADDI and ADDQ: the sum, its carry in C and X, its signed overflow in V. -/
def Obligations.AddResults : Prop :=
  ∀ (sz : Size) (dn : RegNum) (ea : Ea) (s : State),
    let D := lowPart sz s.d[dn]
    PutsInDn (.add sz .toDn dn ea) sz dn ea 0 s (fun S => mergeLow sz s.d[dn] (S + D))
      (fun S => sumFlags S D false (S + D == 0)) ∧
    Replaces (.add sz .toEa dn ea) sz ea 0 s (fun T => D + T) (fun T => sumFlags D T false (D + T == 0)) ∧
    (∀ imm : Long, let S := lowPart sz imm
      Replaces (.addi sz imm ea) sz ea sz.immWords s (fun T => S + T) (fun T => sumFlags S T false (S + T == 0))) ∧
    (∀ q : Fin 8, let S := BitVec.ofNat sz.bits (if q = 0 then 8 else q)
      Replaces (.addq sz q ea) sz ea 0 s (fun T => S + T) (fun T => sumFlags S T false (S + T == 0)))

/-- SUB in both directions, SUBI and SUBQ: the destination minus the source, its borrow in C and X, its signed overflow in
V. -/
def Obligations.SubResults : Prop :=
  ∀ (sz : Size) (dn : RegNum) (ea : Ea) (s : State),
    let D := lowPart sz s.d[dn]
    PutsInDn (.sub sz .toDn dn ea) sz dn ea 0 s (fun S => mergeLow sz s.d[dn] (D - S))
      (fun S => differenceFlags S D false (D == S)) ∧
    Replaces (.sub sz .toEa dn ea) sz ea 0 s (fun T => T - D) (fun T => differenceFlags D T false (T == D)) ∧
    (∀ imm : Long, let S := lowPart sz imm
      Replaces (.subi sz imm ea) sz ea sz.immWords s (fun T => T - S) (fun T => differenceFlags S T false (T == S))) ∧
    (∀ q : Fin 8, let S := BitVec.ofNat sz.bits (if q = 0 then 8 else q)
      Replaces (.subq sz q ea) sz ea 0 s (fun T => T - S) (fun T => differenceFlags S T false (T == S)))

/-- ADDX at three sizes, register and memory form: source and destination and X; Z is cleared by a result that is not zero
and kept otherwise (rule R83). -/
def Obligations.AddxResults : Prop :=
  ∀ (sz : Size) (dst src : RegNum) (s : State),
    let X := BitVec.ofNat sz.bits s.ccr.x.toNat
    let sum (S D : BitVec sz.bits) := S + D + X
    let flags (S D : BitVec sz.bits) := sumFlags S D s.ccr.x (s.ccr.z && sum S D == 0)
    let S := lowPart sz s.d[src]
    let D := lowPart sz s.d[dst]
    SetsDn (addxOf sz .data dst src) dst s (mergeLow sz s.d[dst] (sum S D)) (flags S D) 0 ∧
    ReplacesByPredecrement (addxOf sz .predec dst src) sz dst src s sum flags 0

/-- SUBX at three sizes, register and memory form: destination less source less X; Z as ADDX (rule R87). -/
def Obligations.SubxResults : Prop :=
  ∀ (sz : Size) (dst src : RegNum) (s : State),
    let X := BitVec.ofNat sz.bits s.ccr.x.toNat
    let difference (S D : BitVec sz.bits) := D - S - X
    let flags (S D : BitVec sz.bits) := differenceFlags S D s.ccr.x (s.ccr.z && difference S D == 0)
    let S := lowPart sz s.d[src]
    let D := lowPart sz s.d[dst]
    SetsDn (subxOf sz .data dst src) dst s (mergeLow sz s.d[dst] (difference S D)) (flags S D) 0 ∧
    ReplacesByPredecrement (subxOf sz .predec dst src) sz dst src s difference flags 0

/-- CMP at three sizes: the flags of Dn less the operand, X kept, no register and no memory written (but for the register
that an incrementing or decrementing mode moves); the Opmode field selects the size, the Register field the data register
(42_add_sub_cmp_neg.md rule R88, with `<ea>` of rule R47 under log 12 to 14, and the field positions of rule R45). -/
def Obligations.CompareResults : Prop :=
  ∀ (sz : Size) (dn : RegNum) (ea : Ea) (s : State),
    (Tests (cmpOf sz dn ea) sz ea 0 s fun S => compareFlags s.ccr.x S (lowPart sz s.d[dn])) ∧
    let opmode : Nat := match sz with | .byte => 0 | .word => 1 | .long => 2
    ∃ op rest, encode (cmpOf sz dn ea) = op :: rest ∧
      op.toNat / 4096 = 11 ∧ op.toNat / 512 % 8 = dn ∧ op.toNat / 64 % 8 = opmode

/-- CMPI and CMPM: the flags of a compare; CMPM increments the source register first, then the destination register, and so
reads past the source where both are one register (rules R89, R90; that order is the model's, log 16). -/
def Obligations.CompareImmediateAndMemory : Prop :=
  ∀ (sz : Size) (s : State),
    (∀ (imm : Long) (ea : Ea),
      Tests (.cmpi sz imm ea) sz ea sz.immWords s fun D => compareFlags s.ccr.x (lowPart sz imm) D) ∧
    ∀ dst src : RegNum,
      let a1 := s.a.set src (s.a[src] + BitVec.ofNat 32 sz.bytes)
      let a2 := a1.set dst (a1[dst] + BitVec.ofNat 32 sz.bytes)
      s.a[src].toNat + sz.bytes < 2 ^ 32 → a1[dst].toNat + sz.bytes < 2 ^ 32 →
      accessStop sz s.a[src] s = none → accessStop sz a1[dst] s = none → s.fits 1 →
      exec (.cmpm sz dst src) s = .next { s with
        a := a2
        ccr := compareFlags s.ccr.x (memRead sz s.a[src] s) (memRead sz a1[dst] s)
        pc := s.pcPast 1 }

/-- NEG and NEGX: zero less the operand (less X), with the flags of that difference; NEGX accumulates Z (rules R91, R92). -/
def Obligations.NegateResults : Prop :=
  ∀ (sz : Size) (ea : Ea) (s : State),
    let X := BitVec.ofNat sz.bits s.ccr.x.toNat
    Replaces (.neg sz ea) sz ea 0 s (fun D => 0 - D) (fun D => differenceFlags D 0 false (D == 0)) ∧
    Replaces (.negx sz ea) sz ea 0 s (fun D => 0 - D - X)
      (fun D => differenceFlags D 0 s.ccr.x (s.ccr.z && (0 - D - X) == 0))

/-- A chain of ADDX.L over registers, the destinations distinct and no source among them, the least significant first, adds
two numbers of its length, of at most seven long words since eight registers allow no more, and the extend bit; the carry out
is in X, and Z says that the whole sum is zero if it was set before (70_reset_and_hazards.md rule R213). -/
def Obligations.AddxChainAddsNumbers : Prop :=
  ∀ (ps : List (RegNum × RegNum)) (s : State),
    (ps.map Prod.fst).Nodup → (∀ p ∈ ps, p.2 ∉ ps.map Prod.fst) → s.fits ps.length →
    ∃ t, execAll (ps.map fun p => Instr.addxL .data p.1 p.2) s = .next t ∧
      bigNumber (fun r => t.d[r]) (ps.map Prod.fst) + 2 ^ (32 * ps.length) * t.ccr.x.toNat =
        bigNumber (fun r => s.d[r]) (ps.map Prod.fst) + bigNumber (fun r => s.d[r]) (ps.map Prod.snd) +
          s.ccr.x.toNat ∧
      t.ccr.z = (s.ccr.z && bigNumber (fun r => t.d[r]) (ps.map Prod.fst) == 0)

/-- A chain of SUBX.L over registers, the destinations distinct and no source among them, subtracts two numbers of its length,
of at most seven long words, and the extend bit; the borrow out is in X, and Z as for ADDX (rule R213). -/
def Obligations.SubxChainSubtractsNumbers : Prop :=
  ∀ (ps : List (RegNum × RegNum)) (s : State),
    (ps.map Prod.fst).Nodup → (∀ p ∈ ps, p.2 ∉ ps.map Prod.fst) → s.fits ps.length →
    ∃ t, execAll (ps.map fun p => Instr.subxL .data p.1 p.2) s = .next t ∧
      bigNumber (fun r => t.d[r]) (ps.map Prod.fst) + bigNumber (fun r => s.d[r]) (ps.map Prod.snd) +
          s.ccr.x.toNat =
        bigNumber (fun r => s.d[r]) (ps.map Prod.fst) + 2 ^ (32 * ps.length) * t.ccr.x.toNat ∧
      t.ccr.z = (s.ccr.z && bigNumber (fun r => t.d[r]) (ps.map Prod.fst) == 0)

/-! ### Decimal arithmetic (41_bcd.md) -/

/-- What ABCD, SBCD and NBCD compute from packed decimal operands: the result is packed decimal and is the sum or difference
modulo 100, C and X are the decimal carry or borrow, Z accumulates; N and V are left to the draws. -/
def Obligations.DecimalArithmetic : Prop :=
  ∀ (s : State) (S D : Byte), bcdValid D = true →
    let x := s.ccr.x.toNat
    let holds (e : Effect 8) (value : Nat) (carry : Bool) : Prop :=
      bcdValid e.result = true ∧ bcdDec e.result = value ∧ e.ccr.c = carry ∧ e.ccr.x = carry ∧
        e.ccr.z = (s.ccr.z && e.result == 0)
    (bcdValid S = true →
      holds (abcdEffect s S D) ((bcdDec S + bcdDec D + x) % 100) (decide (99 < bcdDec S + bcdDec D + x)) ∧
      holds (sbcdEffect s S D) ((bcdDec D + 200 - bcdDec S - x) % 100) (decide (bcdDec D < bcdDec S + x))) ∧
    holds (nbcdEffect s D) ((200 - bcdDec D - x) % 100) (decide (0 < bcdDec D + x))

/-- ABCD, SBCD and NBCD complete with the effect their operands give where these are packed decimal or `P_BCD_INVALID` is free
(log 11): the destination byte replaced, three draws counted (log 10). Source before destination in the memory form is the
model's order for ABCD and SBCD (log 16). -/
def Obligations.DecimalInstructions : Prop :=
  ∀ (dst src : RegNum) (ea : Ea) (s : State),
    let S := lowPart .byte s.d[src]
    let D := lowPart .byte s.d[dst]
    let M := memRead .byte (s.a[src] - 1) s
    let a1 := s.a.set src (s.a[src] - 1)
    let N := memRead .byte (a1[dst] - 1) s
    (DecimalRuns s S D →
      SetsDn (.abcd .data dst src) dst s (mergeLow .byte s.d[dst] (abcdEffect s S D).result) (abcdEffect s S D).ccr 3 ∧
      SetsDn (.sbcd .data dst src) dst s (mergeLow .byte s.d[dst] (sbcdEffect s S D).result) (sbcdEffect s S D).ccr 3) ∧
    (DecimalRuns s M N →
      ReplacesByPredecrement (.abcd .predec dst src) .byte dst src s (fun S D => (abcdEffect s S D).result)
        (fun S D => (abcdEffect s S D).ccr) 3 ∧
      ReplacesByPredecrement (.sbcd .predec dst src) .byte dst src s (fun S D => (sbcdEffect s S D).result)
        (fun S D => (sbcdEffect s S D).ccr) 3) ∧
    ((Instr.nbcd ea).wf = true → eaReadStop .byte ea 0 s = none → eaWriteStop .byte ea 0 s = none →
      s.fits (1 + ea.extWords .byte) → DecimalRuns s (eaRead .byte ea 0 s) (eaRead .byte ea 0 s) →
      let e := nbcdEffect s (eaRead .byte ea 0 s)
      exec (.nbcd ea) s = .next { eaWrite .byte ea 0 e.result s with
        ccr := e.ccr, pc := s.pcPast (1 + ea.extWords .byte), draws := s.draws + 3 })

/-- Operands that are not packed decimal: where `P_BCD_INVALID` is refuse, its default, ABCD, SBCD and NBCD are refused
(41_bcd.md, decision D18; for the memory form once both operands can be read, source first, log 16); where it is free, the
model's other value, result and carry are free values, X is the carry, Z accumulates (log 11). -/
def Obligations.InvalidDecimalIsRefusedOrFree : Prop :=
  (∀ (s : State) (dst src : RegNum) (ea : Ea), s.cfg.bcdInvalid = .refuse →
    let invalid (S D : Byte) : Prop := bcdValid S = false ∨ bcdValid D = false
    let s1 := eaAfter .byte (.preDec src) s
    (invalid (lowPart .byte s.d[src]) (lowPart .byte s.d[dst]) →
      exec (.abcd .data dst src) s = .refused .invalidDecimal ∧ exec (.sbcd .data dst src) s = .refused .invalidDecimal) ∧
    (eaReadStop .byte (.preDec src) 0 s = none → eaReadStop .byte (.preDec dst) 0 s1 = none →
      invalid (eaRead .byte (.preDec src) 0 s) (eaRead .byte (.preDec dst) 0 s1) →
      exec (.abcd .predec dst src) s = .refused .invalidDecimal ∧
        exec (.sbcd .predec dst src) s = .refused .invalidDecimal) ∧
    ((Instr.nbcd ea).wf = true → eaReadStop .byte ea 0 s = none → bcdValid (eaRead .byte ea 0 s) = false →
      exec (.nbcd ea) s = .refused .invalidDecimal)) ∧
  ∀ (s : State) (S D : Byte),
    let free (e : Effect 8) : Prop :=
      e.result = Config.freeByte s.draws ∧ e.ccr.c = Config.freeBit (s.draws + 2) ∧ e.ccr.x = e.ccr.c ∧
        e.ccr.z = (s.ccr.z && e.result == 0)
    (bcdValid S = false ∨ bcdValid D = false → free (abcdEffect s S D) ∧ free (sbcdEffect s S D)) ∧
    (bcdValid D = false → free (nbcdEffect s D))

/-! ### Logic and moves (43_logic_move.md) -/

/-- AND and OR in both directions, EOR, and ANDI, ORI and EORI: the bits combined, N and Z of the result, V and C cleared, X
kept (rules R100 to R103, R106, R107). -/
def Obligations.LogicResults : Prop :=
  ∀ (sz : Size) (dn : RegNum) (imm : Long) (ea : Ea) (s : State),
    let D := lowPart sz s.d[dn]
    let S := lowPart sz imm
    let flags (R : BitVec sz.bits) := resultFlags s.ccr.x R
    PutsInDn (.and sz .toDn dn ea) sz dn ea 0 s (fun S => mergeLow sz s.d[dn] (S &&& D)) (fun S => flags (S &&& D)) ∧
    Replaces (.and sz .toEa dn ea) sz ea 0 s (fun T => D &&& T) (fun T => flags (D &&& T)) ∧
    PutsInDn (.or sz .toDn dn ea) sz dn ea 0 s (fun S => mergeLow sz s.d[dn] (S ||| D)) (fun S => flags (S ||| D)) ∧
    Replaces (.or sz .toEa dn ea) sz ea 0 s (fun T => D ||| T) (fun T => flags (D ||| T)) ∧
    Replaces (.eor sz dn ea) sz ea 0 s (fun T => D ^^^ T) (fun T => flags (D ^^^ T)) ∧
    Replaces (.andi sz imm ea) sz ea sz.immWords s (fun T => S &&& T) (fun T => flags (S &&& T)) ∧
    Replaces (.ori sz imm ea) sz ea sz.immWords s (fun T => S ||| T) (fun T => flags (S ||| T)) ∧
    Replaces (.eori sz imm ea) sz ea sz.immWords s (fun T => S ^^^ T) (fun T => flags (S ^^^ T))

/-- MOVE: the source, read before the destination is addressed (log 16), is stored at the destination; N and Z of it, V and C
cleared, X kept (rule R105). -/
def Obligations.MoveResult : Prop :=
  ∀ (sz : Size) (src dst : Ea) (s : State),
    let before := src.extWords sz
    let R := eaRead sz src 0 s
    (Instr.move sz src dst).wf = true → eaReadStop sz src 0 s = none →
    eaWriteStop sz dst before (eaAfter sz src s) = none → s.fits (1 + before + dst.extWords sz) →
    exec (.move sz src dst) s = .next { eaWrite sz dst before R (eaAfter sz src s) with
      ccr := resultFlags s.ccr.x R, pc := s.pcPast (1 + before + dst.extWords sz) }

/-- MOVEQ and EXT: the sign extension of the byte or word, N its sign, Z that it is zero (rules R104, R109). -/
def Obligations.SignExtensions : Prop :=
  ∀ (dn : RegNum) (data : Byte) (s : State),
    let b := lowPart .byte s.d[dn]
    let w := lowPart .word s.d[dn]
    SetsDn (.moveq dn data) dn s (data.signExtend 32) ⟨s.ccr.x, data.msb, data == 0, false, false⟩ 0 ∧
    SetsDn (.extW dn) dn s (mergeLow .word s.d[dn] (b.signExtend 16)) ⟨s.ccr.x, b.msb, b == 0, false, false⟩ 0 ∧
    SetsDn (.extL dn) dn s (w.signExtend 32) ⟨s.ccr.x, w.msb, w == 0, false, false⟩ 0

/-- CLR, NOT, TAS, TST: zero stored; the complement stored; the byte tested and then its bit 7 set; the operand tested (rules
R108, R110 to R112). CLR does not read its destination (log 24). -/
def Obligations.SingleOperandLogic : Prop :=
  ∀ (sz : Size) (ea : Ea) (s : State),
    Stores (.clr sz ea) sz ea s 0 ⟨s.ccr.x, false, true, false, false⟩ ∧
    Replaces (.not sz ea) sz ea 0 s (fun D => ~~~D) (fun D => resultFlags s.ccr.x (~~~D)) ∧
    Replaces (.tas ea) .byte ea 0 s (fun D : Byte => (D ||| 0x80 : Byte)) (fun D => resultFlags s.ccr.x D) ∧
    Tests (.tst sz ea) sz ea 0 s (fun D => resultFlags s.ccr.x D)

/-! ### Bounds, multiply, divide (44_chk.md, 45_mul_div.md) -/

/-- CHK in bounds completes and writes nothing but the flags: X kept, the other four left to the draws, of which four are
counted (rule R120; log 10). The Long form runs whatever the parameters, which is the model's (log 17). -/
def Obligations.ChkInBounds : Prop :=
  ∀ (sz : Size) (dn : RegNum) (ea : Ea) (s : State),
    let R := lowPart sz s.d[dn]
    let UB := eaRead sz ea 0 s
    (Instr.chk sz dn ea).wf = true → eaReadStop sz ea 0 s = none → 0 ≤ R.toInt → R.toInt ≤ UB.toInt →
    s.fits (1 + ea.extWords sz) →
    ∃ n z v c, exec (.chk sz dn ea) s = .next { eaAfter sz ea s with
      ccr := ⟨s.ccr.x, n, z, v, c⟩, pc := s.pcPast (1 + ea.extWords sz), draws := s.draws + 4 }

/-- CHK2 in bounds completes and writes nothing but the flags: Z says that the register equals a bound, C is clear, X kept, N
and V left to the draws, two of which are counted (the model's field, log 10); a data register at the operand size, an address
register at 32 bits against the sign-extended bounds (log 23); bounds in the wrong order hold around the wrap (rule R121). -/
def Obligations.Chk2InBounds : Prop :=
  ∀ (sz : Size) (reg : RegNum) (ea : Ea) (s : State),
    let lower := memRead sz (chk2Addr sz ea s) s
    let upper := memRead sz (chk2UpperAddr sz ea s) s
    let inside {n : Nat} (R LB UB : BitVec n) : Prop :=
      (LB.toNat ≤ R.toNat ∧ R.toNat ≤ UB.toNat) ∨
        (UB.toNat < LB.toNat ∧ (R.toNat ≤ UB.toNat ∨ LB.toNat ≤ R.toNat))
    let completes (i : Instr) {n : Nat} (R LB UB : BitVec n) : Prop :=
      i.wf = true → inside R LB UB →
        ∃ f v, exec i s = .next { s with
          ccr := ⟨s.ccr.x, f, R == LB || R == UB, v, false⟩
          pc := s.pcPast (2 + ea.extWords sz), draws := s.draws + 2 }
    s.cfg.hasChk2 = true → eaStop sz ea (s.extAddr 1) s = none → accessStop sz (chk2Addr sz ea s) s = none →
    (chk2Addr sz ea s).toNat + sz.bytes < 2 ^ 32 → accessStop sz (chk2UpperAddr sz ea s) s = none →
    s.fits (2 + ea.extWords sz) →
    completes (.chk2 sz false reg ea) (lowPart sz s.d[reg]) lower upper ∧
    completes (.chk2 sz true reg ea) s.a[reg] (lower.signExtend 32) (upper.signExtend 32)

/-- CHK and CHK2 out of bounds are refused: CHK below zero or above the bound; CHK2 outside the bounds, or, where they stand
in the wrong order, strictly between them (60_exceptions.md rule R201). Their condition code functions are defined for every
input all the same: CHK's N is set below zero and clear above the bound (rule R120), CHK2's Z and C are the formulas of rule
R121, X is kept. -/
def Obligations.OutOfBoundsIsRefused : Prop :=
  ∀ (sz : Size) (reg : RegNum) (ea : Ea) (s : State),
    (let R := lowPart sz s.d[reg]
     let UB := eaRead sz ea 0 s
     (Instr.chk sz reg ea).wf = true → eaReadStop sz ea 0 s = none → (R.toInt < 0 ∨ UB.toInt < R.toInt) →
     exec (.chk sz reg ea) s = .refused .outOfBounds) ∧
    (let lower := memRead sz (chk2Addr sz ea s) s
     let upper := memRead sz (chk2UpperAddr sz ea s) s
     let outside {n : Nat} (R LB UB : BitVec n) : Prop :=
       (LB.toInt ≤ UB.toInt ∧ (R.toInt < LB.toInt ∨ UB.toInt < R.toInt)) ∨
         (UB.toInt < R.toInt ∧ R.toInt < LB.toInt)
     s.cfg.hasChk2 = true → ea.admitsControl = true → eaStop sz ea (s.extAddr 1) s = none →
     accessStop sz (chk2Addr sz ea s) s = none → (chk2Addr sz ea s).toNat + sz.bytes < 2 ^ 32 →
     accessStop sz (chk2UpperAddr sz ea s) s = none →
     (outside (lowPart sz s.d[reg]) lower upper → exec (.chk2 sz false reg ea) s = .refused .outOfBounds) ∧
     (outside s.a[reg] (lower.signExtend 32) (upper.signExtend 32) →
       exec (.chk2 sz true reg ea) s = .refused .outOfBounds)) ∧
    ∀ R LB UB : BitVec sz.bits,
      (chkFlags s R UB).x = s.ccr.x ∧ (R.toInt < 0 → (chkFlags s R UB).n = true) ∧
      (0 ≤ R.toInt → UB.toInt < R.toInt → (chkFlags s R UB).n = false) ∧
      (chk2Flags s R LB UB).x = s.ccr.x ∧ (chk2Flags s R LB UB).z = (R == LB || R == UB) ∧
      (chk2Flags s R LB UB).c =
        ((decide (LB.toInt ≤ UB.toInt) && (decide (R.toInt < LB.toInt) || decide (UB.toInt < R.toInt))) ||
          (decide (UB.toInt < LB.toInt) && decide (UB.toInt < R.toInt) && decide (R.toInt < LB.toInt)))

/-- DIVS: for a divisor that is not zero there are a quotient and a remainder, truncated toward zero, the remainder with the
dividend's sign; the register becomes remainder and quotient, or, where the quotient is no signed 16-bit number, stays, with
V set and N and Z left to the draws, two of which are counted (rule R130; log 10). -/
def Obligations.SignedDivide : Prop :=
  ∀ (dn : RegNum) (ea : Ea) (s : State),
    let D := s.d[dn]
    let S : Word := eaRead .word ea 0 s
    (Instr.divs dn ea).wf = true → eaReadStop .word ea 0 s = none → S ≠ 0 → s.fits (1 + ea.extWords .word) →
    ∃ q rem : Int, D.toInt = q * S.toInt + rem ∧ |rem| < |S.toInt| ∧ (0 < rem → 0 < D.toInt) ∧ (rem < 0 → D.toInt < 0) ∧
      (fitsSigned 16 q = true →
        exec (.divs dn ea) s = .next { eaAfter .word ea s with
          d := s.d.set dn (BitVec.ofInt 16 rem ++ BitVec.ofInt 16 q)
          ccr := ⟨s.ccr.x, decide (q < 0), decide (q = 0), false, false⟩
          pc := s.pcPast (1 + ea.extWords .word) }) ∧
      (fitsSigned 16 q = false →
        ∃ n z, exec (.divs dn ea) s = .next { eaAfter .word ea s with
          ccr := ⟨s.ccr.x, n, z, true, false⟩
          pc := s.pcPast (1 + ea.extWords .word), draws := s.draws + 2 })

/-- DIVU: the unsigned quotient and remainder; where the quotient does not fit 16 bits the register stays, with V set and N
and Z left to the draws, two of which are counted (rule R131; log 10). -/
def Obligations.UnsignedDivide : Prop :=
  ∀ (dn : RegNum) (ea : Ea) (s : State),
    let D := s.d[dn]
    let S : Word := eaRead .word ea 0 s
    (Instr.divu dn ea).wf = true → eaReadStop .word ea 0 s = none → S ≠ 0 → s.fits (1 + ea.extWords .word) →
    ∃ q rem : Nat, D.toNat = q * S.toNat + rem ∧ rem < S.toNat ∧
      (q < 65536 →
        exec (.divu dn ea) s = .next { eaAfter .word ea s with
          d := s.d.set dn (BitVec.ofNat 16 rem ++ BitVec.ofNat 16 q)
          ccr := ⟨s.ccr.x, decide (32768 ≤ q), decide (q = 0), false, false⟩
          pc := s.pcPast (1 + ea.extWords .word) }) ∧
      (65536 ≤ q →
        ∃ n z, exec (.divu dn ea) s = .next { eaAfter .word ea s with
          ccr := ⟨s.ccr.x, n, z, true, false⟩
          pc := s.pcPast (1 + ea.extWords .word), draws := s.draws + 2 })

/-- MULS and MULU, the 16-bit form: the exact product in the whole register, no overflow, N its bit 31 (rules R132, R133). -/
def Obligations.MultiplyWords : Prop :=
  ∀ (dn : RegNum) (ea : Ea) (s : State),
    let D : Word := lowPart .word s.d[dn]
    PutsInDn (.muls .word dn ea) .word dn ea 0 s (fun S => BitVec.ofInt 32 (BitVec.toInt S * D.toInt))
      (fun S => let p := BitVec.toInt S * D.toInt; ⟨s.ccr.x, decide (p < 0), decide (p = 0), false, false⟩) ∧
    PutsInDn (.mulu .word dn ea) .word dn ea 0 s (fun S => BitVec.ofNat 32 (BitVec.toNat S * D.toNat))
      (fun S => let p := BitVec.toNat S * D.toNat; ⟨s.ccr.x, decide (2 ^ 31 ≤ p), decide (p = 0), false, false⟩)

/-- MULS and MULU, the 32-bit form where the parameter admits it: the low 32 bits of the product, V that the product does not
fit them (rules R132, R133; the form's length is the model's, and no words decode to it, log 6). -/
def Obligations.MultiplyLongs : Prop :=
  ∀ (dn : RegNum) (ea : Ea) (s : State), s.cfg.longMultiply = true →
    let D : Long := s.d[dn]
    PutsInDn (.muls .long dn ea) .long dn ea 1 s (fun S => BitVec.ofInt 32 (BitVec.toInt S * D.toInt))
      (fun S => let p := BitVec.toInt S * D.toInt
        let R := BitVec.ofInt 32 p
        ⟨s.ccr.x, R.msb, R == 0, !fitsSigned 32 p, false⟩) ∧
    PutsInDn (.mulu .long dn ea) .long dn ea 1 s (fun S => BitVec.ofNat 32 (BitVec.toNat S * D.toNat))
      (fun S => let p := BitVec.toNat S * D.toNat
        let R := BitVec.ofNat 32 p
        ⟨s.ccr.x, R.msb, R == 0, decide (2 ^ 32 ≤ p), false⟩)

/-- A zero divisor is refused (60_exceptions.md rule R202); CHK2 and the 32-bit multiply are refused where the parameter says
that they are absent (rules R121, R132, R133). -/
def Obligations.ZeroDivisorAndAbsentForms : Prop :=
  ∀ (dn : RegNum) (ea : Ea) (s : State),
    (eaReadStop .word ea 0 s = none → eaRead .word ea 0 s = (0 : Word) → ea.admitsData .word = true →
      exec (.divs dn ea) s = .refused .divideByZero ∧ exec (.divu dn ea) s = .refused .divideByZero) ∧
    (s.cfg.hasChk2 = false → ∀ (sz : Size) (isAddr : Bool), exec (.chk2 sz isAddr dn ea) s = .refused .chk2Absent) ∧
    (s.cfg.longMultiply = false →
      exec (.muls .long dn ea) s = .refused .longMultiplyAbsent ∧
        exec (.mulu .long dn ea) s = .refused .longMultiplyAbsent)

/-! ### Bits, shifts, rotates (46_bit.md, 47_shift_rotate.md) -/

/-- BTST: Z is the complement of the bit, its number modulo 32 for a data register and modulo 8 for a byte of memory; nothing
else changes (rule R140). -/
def Obligations.BitTest : Prop :=
  ∀ (bit : RegNum) (number : Byte) (ea : Ea) (s : State),
    let sz := bitSize ea
    let flags (b : Nat) (D : BitVec sz.bits) : CCR := { s.ccr with z := !D.getLsbD (b % sz.bits) }
    Tests (.btstReg bit ea) sz ea 0 s (flags s.d[bit].toNat) ∧
    Tests (.btstImm number ea) sz ea 1 s (flags number.toNat)

/-- BCHG, BCLR, BSET: Z is the complement of the bit before, and that bit alone is inverted, cleared or set (rules R141 to
R143). -/
def Obligations.BitChange : Prop :=
  ∀ (bit : RegNum) (number : Byte) (ea : Ea) (s : State),
    let sz := bitSize ea
    let flags (b : Nat) (D : BitVec sz.bits) : CCR := { s.ccr with z := !D.getLsbD (b % sz.bits) }
    let mask (b : Nat) : BitVec sz.bits := BitVec.twoPow sz.bits (b % sz.bits)
    let r := s.d[bit].toNat
    let k := number.toNat
    Replaces (.bchgReg bit ea) sz ea 0 s (fun D => D ^^^ mask r) (flags r) ∧
    Replaces (.bchgImm number ea) sz ea 1 s (fun D => D ^^^ mask k) (flags k) ∧
    Replaces (.bclrReg bit ea) sz ea 0 s (fun D => D &&& ~~~(mask r)) (flags r) ∧
    Replaces (.bclrImm number ea) sz ea 1 s (fun D => D &&& ~~~(mask k)) (flags k) ∧
    Replaces (.bsetReg bit ea) sz ea 0 s (fun D => D ||| mask r) (flags r) ∧
    Replaces (.bsetImm number ea) sz ea 1 s (fun D => D ||| mask k) (flags k)

/-- ASL and LSL of a register by any count: the value shifted; for a count that is not zero C and X are the last bit shifted
out (ASL's complemented where the parameter says so), for zero C is clear and X kept; ASL's V says that the product with the
power of two is no signed number of the size (rules R150, R151, R158, R160). Here and below a register gives a count modulo one
more than `P_SHIFT_COUNT_MAX`, 64 at its default (log 29). -/
def Obligations.LeftShifts : Prop :=
  ∀ (sz : Size) (count : ShiftCount) (dn : RegNum) (s : State),
    let r : Nat := match count with
      | .imm c => if c = 0 then 8 else c
      | .reg q => s.d[q].toNat % (s.cfg.shiftCountMax + 1)
    let D := lowPart sz s.d[dn]
    let R := D <<< r
    let out := bitAt D (sz.bits - r)
    let asl := out != s.cfg.aslCarryInverted
    SetsDn (.aslReg sz count dn) dn s (mergeLow sz s.d[dn] R)
      (if r = 0 then shiftFlags R s.ccr.x false false
       else shiftFlags R asl (!fitsSigned sz.bits (D.toInt * 2 ^ r)) asl) 0 ∧
    SetsDn (.lslReg sz count dn) dn s (mergeLow sz s.d[dn] R)
      (if r = 0 then shiftFlags R s.ccr.x false false else shiftFlags R out false out) 0

/-- ASR and LSR of a register by any count: the value shifted, the sign or zeros coming in; C and X as for the left shifts
(rules R154, R155, R158, R160; log 29). -/
def Obligations.RightShifts : Prop :=
  ∀ (sz : Size) (count : ShiftCount) (dn : RegNum) (s : State),
    let r : Nat := match count with
      | .imm c => if c = 0 then 8 else c
      | .reg q => s.d[q].toNat % (s.cfg.shiftCountMax + 1)
    let D := lowPart sz s.d[dn]
    let signed := D.sshiftRight r
    let signedOut := if r ≤ sz.bits then D.getLsbD (r - 1) else D.msb
    let out := D.getLsbD (r - 1)
    SetsDn (.asrReg sz count dn) dn s (mergeLow sz s.d[dn] signed)
      (if r = 0 then shiftFlags signed s.ccr.x false false else shiftFlags signed signedOut false signedOut) 0 ∧
    SetsDn (.lsrReg sz count dn) dn s (mergeLow sz s.d[dn] (D >>> r))
      (if r = 0 then shiftFlags (D >>> r) s.ccr.x false false else shiftFlags (D >>> r) out false out) 0

/-- ROL and ROR of a register by any count: the n bits turned, X kept, C the bit that went round last, clear for a count of
zero (rules R153, R157, R158, R160; log 29). -/
def Obligations.Rotates : Prop :=
  ∀ (sz : Size) (count : ShiftCount) (dn : RegNum) (s : State),
    let r : Nat := match count with
      | .imm c => if c = 0 then 8 else c
      | .reg q => s.d[q].toNat % (s.cfg.shiftCountMax + 1)
    let D := lowPart sz s.d[dn]
    let left := D.rotateLeft r
    let right := D.rotateRight r
    SetsDn (.rolReg sz count dn) dn s (mergeLow sz s.d[dn] left)
      (shiftFlags left s.ccr.x false (r ≠ 0 && left.getLsbD 0)) 0 ∧
    SetsDn (.rorReg sz count dn) dn s (mergeLow sz s.d[dn] right)
      (shiftFlags right s.ccr.x false (r ≠ 0 && right.msb)) 0

/-- ROXL and ROXR of a register by any count: X and the n bits turn as one ring of n + 1 bits; C and X are its top bit, for a
count of zero as well (rules R152, R156, R158, R160; log 29). -/
def Obligations.RotatesThroughExtend : Prop :=
  ∀ (sz : Size) (count : ShiftCount) (dn : RegNum) (s : State),
    let r : Nat := match count with
      | .imm c => if c = 0 then 8 else c
      | .reg q => s.d[q].toNat % (s.cfg.shiftCountMax + 1)
    let ring := extendRing s.ccr.x (lowPart sz s.d[dn])
    SetsDn (.roxlReg sz count dn) dn s (mergeLow sz s.d[dn] ((ring.rotateLeft r).setWidth sz.bits))
      (ringFlags (ring.rotateLeft r)) 0 ∧
    SetsDn (.roxrReg sz count dn) dn s (mergeLow sz s.d[dn] ((ring.rotateRight r).setWidth sz.bits))
      (ringFlags (ring.rotateRight r)) 0

/-- The eight shifts and rotates of a word of memory, by one (rule R158, rules R150 to R157 with r = 1). -/
def Obligations.MemoryShifts : Prop :=
  ∀ (ea : Ea) (s : State),
    let x := s.ccr.x
    let asl (D : Word) := D.msb != s.cfg.aslCarryInverted
    let ring (D : Word) := extendRing x D
    let replaces (i : Instr) (result : Word → Word) (flags : Word → CCR) := Replaces i .word ea 0 s result flags
    replaces (.aslMem ea) (fun D => D <<< 1)
      (fun D => shiftFlags (D <<< 1) (asl D) (!fitsSigned 16 (D.toInt * 2)) (asl D)) ∧
    replaces (.lslMem ea) (fun D => D <<< 1) (fun D => shiftFlags (D <<< 1) D.msb false D.msb) ∧
    replaces (.asrMem ea) (fun D => D.sshiftRight 1)
      (fun D => shiftFlags (D.sshiftRight 1) (D.getLsbD 0) false (D.getLsbD 0)) ∧
    replaces (.lsrMem ea) (fun D => D >>> 1) (fun D => shiftFlags (D >>> 1) (D.getLsbD 0) false (D.getLsbD 0)) ∧
    replaces (.rolMem ea) (fun D => D.rotateLeft 1) (fun D => shiftFlags (D.rotateLeft 1) x false D.msb) ∧
    replaces (.rorMem ea) (fun D => D.rotateRight 1) (fun D => shiftFlags (D.rotateRight 1) x false (D.getLsbD 0)) ∧
    replaces (.roxlMem ea) (fun D => ((ring D).rotateLeft 1).setWidth 16) (fun D => ringFlags ((ring D).rotateLeft 1)) ∧
    replaces (.roxrMem ea) (fun D => ((ring D).rotateRight 1).setWidth 16) (fun D => ringFlags ((ring D).rotateRight 1))

/-! ### Branches and sets (48_conditional_tests.md rules R187, R188) -/

/-- The fourteen conditional branches, each with its test. -/
def Obligations.Branches : Prop :=
  BranchesOn .bhi (fun f => !f.c && !f.z) ∧ BranchesOn .bls (fun f => f.c || f.z) ∧
  BranchesOn .bcc (fun f => !f.c) ∧ BranchesOn .bcs (fun f => f.c) ∧
  BranchesOn .bne (fun f => !f.z) ∧ BranchesOn .beq (fun f => f.z) ∧
  BranchesOn .bvc (fun f => !f.v) ∧ BranchesOn .bvs (fun f => f.v) ∧
  BranchesOn .bpl (fun f => !f.n) ∧ BranchesOn .bmi (fun f => f.n) ∧
  BranchesOn .bge (fun f => f.n == f.v) ∧ BranchesOn .blt (fun f => f.n != f.v) ∧
  BranchesOn .bgt (fun f => (f.n == f.v) && !f.z) ∧ BranchesOn .ble (fun f => f.z || (f.n != f.v))

/-- The target of a branch: its address and 2 and the sign-extended displacement, modulo 2^32. -/
def Obligations.BranchTargets : Prop :=
  ∀ (s : State) (d : Byte) (w : Word),
    ((branchTarget (.byte d) s).toNat : Int) = ((s.pc.toNat : Int) + 2 + d.toInt) % 2 ^ 32 ∧
    ((branchTarget (.word w) s).toNat : Int) = ((s.pc.toNat : Int) + 2 + w.toInt) % 2 ^ 32

/-- The sixteen set instructions, each with its test. -/
def Obligations.Sets : Prop :=
  SetsOn .st (fun _ => true) ∧ SetsOn .sf (fun _ => false) ∧
  SetsOn .shi (fun f => !f.c && !f.z) ∧ SetsOn .sls (fun f => f.c || f.z) ∧
  SetsOn .scc (fun f => !f.c) ∧ SetsOn .scs (fun f => f.c) ∧ SetsOn .sne (fun f => !f.z) ∧ SetsOn .seq (fun f => f.z) ∧
  SetsOn .svc (fun f => !f.v) ∧ SetsOn .svs (fun f => f.v) ∧ SetsOn .spl (fun f => !f.n) ∧ SetsOn .smi (fun f => f.n) ∧
  SetsOn .sge (fun f => f.n == f.v) ∧ SetsOn .slt (fun f => f.n != f.v) ∧
  SetsOn .sgt (fun f => (f.n == f.v) && !f.z) ∧ SetsOn .sle (fun f => f.z || (f.n != f.v))

/-! ### Where the machine stops -/

/-- When an access, an address, an operand and an instruction stop, and when not: the rules of Safety.lean, each with its
rules of the spec, for every operand; and whatever an instruction has stored was allowed (20_memory.md rules R30, R32, R38,
93_implementation_defined.md U10; the model's choices in them are log 14 to 16, 21, 27 and 30). Every constructor with an
`<ea>`, the 32-bit multiply where admitted (log 6), the memory forms of the extended instructions, CMPM and CHK2 are covered. -/
def Obligations.AccessStops : Prop :=
  (∀ (sz : Size) (addr : Long) (s : State), AccessRule sz addr s) ∧
  (∀ (sz : Size) (before : Nat) (s : State) (r : RegNum) (d : Word) (a : Long) (ix : Index),
    AddressRule sz before s r d a ix) ∧
  (∀ (sz : Size) (before : Nat) (s : State), OperandRule sz before s) ∧
  (∀ (sz : Size) (dn : RegNum) (imm : Long) (q : Fin 8) (bit : Byte) (ea dst : Ea) (s : State),
    EaRule sz dn imm q bit ea dst s) ∧
  (∀ (sz : Size) (dst src : RegNum) (s : State), ExtendedRule sz dst src s) ∧
  (∀ (sz : Size) (isAddr : Bool) (reg : RegNum) (ea : Ea) (s : State), Chk2Rule sz isAddr reg ea s) ∧
  ∀ (i : Instr) (s t : State) (addr : Long) (n : Nat), exec i s = .next t → i.stored s = some (addr, n) →
    (n = 1 ∨ addr.toNat % 2 = 0 ∨ s.cfg.misaligned = .perform) ∧
      ∀ k, k < n → allocated s.cfg (addr.toNat + k) = true ∧ inRegion s.cfg.text (addr.toNat + k) = false

/-- Predecrement that does not happen: -(A7) with Byte, and below address 0; in the extended instructions as source and as
destination, and in `<ea>` of every instruction that reads or stores it (20_memory.md rule R33; for instructions other than
ADDX and SUBX the first is the model's reading, log 14, and the source before the destination is for ABCD and SBCD the
model's order, log 16). -/
def Obligations.PredecrementStops : Prop :=
  ∀ (sz : Size) (r other : RegNum) (s : State),
    let s1 := eaAfter sz (.preDec other) s
    let refusedIn (s' : State) (why : Refusal) : Prop :=
      (sz = .byte ∧ r = 7 ∧ why = .byteStackPredecrement) ∨
        (¬ (sz = .byte ∧ r = 7) ∧ s'.a[r].toNat < sz.bytes ∧ why = .predecrementWrap r)
    ∀ why : Refusal,
      (refusedIn s why →
        (∀ op ∈ extendedOps sz, exec (op .predec other r) s = .refused why) ∧
        (∀ (dn : RegNum) (imm : Long) (q : Fin 8) (bit : Byte) (dst : Ea), ∀ p ∈ eaReaders s.cfg sz dn imm q bit dst,
          (p.2 (.preDec r)).wf = true → exec (p.2 (.preDec r)) s = .refused why) ∧
        (∀ dn : RegNum, ∀ op ∈ eaStorers sz dn, (op (.preDec r)).wf = true → exec (op (.preDec r)) s = .refused why)) ∧
      (eaReadStop sz (.preDec other) 0 s = none → refusedIn s1 why →
        ∀ op ∈ extendedOps sz, exec (op .predec r other) s = .refused why)

/-- An instruction at an odd address is refused whatever `P_MISALIGNED` (10_state.md rule R20; the model's choice, log 18); a
taken branch to an odd target is refused (48_conditional_tests.md rule R187); and no instruction but a taken branch completes
past the top of the address space: its next pc is its own address and the length of its words, and a one-word register form
there is refused (10_state.md rule R20). -/
def Obligations.OddAddressesAndWrap : Prop :=
  (∀ s : State, s.pc.toNat % 2 = 1 → step s = .refused (.oddFetch s.pc)) ∧
  (∀ (c : Cond) (k : Disp → Instr) (disp : Disp) (s : State), bccOf c = some k → wfDisp disp = true →
    (condHolds c s.ccr = true → (branchTarget disp s).toNat % 2 = 1 →
      exec (k disp) s = .refused (.oddTarget (branchTarget disp s))) ∧
    (condHolds c s.ccr = false → 2 ^ 32 ≤ s.pc.toNat + 2 * (1 + disp.extWords) →
      exec (k disp) s = .refused .pcWrap)) ∧
  (∀ (i : Instr) (s t : State), encode i ≠ [] → exec i s = .next t →
    t.pc.toNat = s.pc.toNat + 2 * (encode i).length ∨
      ∃ c k disp, bccOf c = some k ∧ i = k disp ∧ condHolds c s.ccr = true ∧ t.pc = branchTarget disp s) ∧
  ∀ (sz : Size) (dst src : RegNum) (data : Byte) (count : ShiftCount) (s : State), 2 ^ 32 ≤ s.pc.toNat + 2 →
    ∀ i ∈ [Instr.moveq dst data, .extW dst, .extL dst, addxOf sz .data dst src, subxOf sz .data dst src,
        .asrReg sz count dst, .aslReg sz count dst, .lsrReg sz count dst, .lslReg sz count dst,
        .roxrReg sz count dst, .roxlReg sz count dst, .rorReg sz count dst, .rolReg sz count dst],
      exec i s = .refused .pcWrap
end

