-- ==== Sys2Proof/Laws/Memory.lean ====
section
/-! SUPPORT. The laws of memory: what a byte reads as after a write, and that every memory operation keeps the canonical
form. -/

namespace Sys2Proof.Machine

/-- A write leaves every other byte alone, whatever the memory. -/
theorem read_write_other {m : Memory} {x y : Nat} (v : Byte) (h : y ≠ x) :
    (m.write x v).read y = m.read y := by
  induction m with
  | nil => by_cases hv : v = unlisted <;> simp [Memory.write, Memory.read, hv, h]
  | cons c m ih =>
    obtain ⟨k, b⟩ := c
    unfold Memory.write
    split
    · split <;> simp [Memory.read, h]
    · split
      · subst_vars
        split <;> simp [Memory.read, h]
      · simp [Memory.read, ih]

/-- Below its lowest address, canonical memory reads as unlisted. -/
theorem read_below {m : Memory} {lo x : Nat} (hm : Memory.wfFrom lo m = true) (h : x < lo) :
    m.read x = unlisted := by
  induction m generalizing lo with
  | nil => rfl
  | cons c m ih =>
    obtain ⟨k, b⟩ := c
    simp only [Memory.wfFrom, Bool.and_eq_true, decide_eq_true_eq] at hm
    have hk : x ≠ k := by omega
    simp only [Memory.read, hk, if_false]
    exact ih hm.2 (by omega)

/-- A byte written reads back, in canonical memory. -/
theorem read_write_same_from {m : Memory} {lo x : Nat} (v : Byte) (hm : Memory.wfFrom lo m = true) :
    (m.write x v).read x = v := by
  induction m generalizing lo with
  | nil => by_cases hv : v = unlisted <;> simp [Memory.write, Memory.read, hv]
  | cons c m ih =>
    obtain ⟨k, b⟩ := c
    simp only [Memory.wfFrom, Bool.and_eq_true, decide_eq_true_eq] at hm
    unfold Memory.write
    split
    · next hlt =>
      split
      · next hv =>
        have hk : x ≠ k := by omega
        simpa [Memory.read, hk, hv] using read_below hm.2 (by omega)
      · simp [Memory.read]
    · split
      · subst_vars
        split
        · next hv => simpa [hv] using read_below hm.2 (by omega)
        · simp [Memory.read]
      · next _ hne => simpa [Memory.read, hne] using ih hm.2

/-- A byte written reads back, in canonical memory. -/
theorem read_write_same {m : Memory} {x : Nat} (v : Byte) (hm : m.wf = true) : (m.write x v).read x = v :=
  read_write_same_from v hm

/-- The lower bound of a canonical memory may be lowered. -/
theorem wfFrom_mono {m : Memory} {lo lo' : Nat} (hm : Memory.wfFrom lo m = true) (h : lo' ≤ lo) :
    Memory.wfFrom lo' m = true := by
  cases m with
  | nil => rfl
  | cons c m =>
    obtain ⟨k, b⟩ := c
    simp only [Memory.wfFrom, Bool.and_eq_true, decide_eq_true_eq] at hm ⊢
    exact ⟨⟨⟨by omega, hm.1.1.2⟩, hm.1.2⟩, hm.2⟩

/-- A write inside the address space keeps memory canonical. -/
theorem wfFrom_write {m : Memory} {lo x : Nat} (v : Byte) (hm : Memory.wfFrom lo m = true) (hlo : lo ≤ x)
    (hx : x < 2 ^ 32) : Memory.wfFrom lo (m.write x v) = true := by
  induction m generalizing lo with
  | nil => by_cases hv : v = unlisted <;> simp_all [Memory.write, Memory.wfFrom]
  | cons c m ih =>
    obtain ⟨k, b⟩ := c
    have hm' := hm
    simp only [Memory.wfFrom, Bool.and_eq_true, decide_eq_true_eq] at hm'
    obtain ⟨⟨⟨h1, h2⟩, h3⟩, h4⟩ := hm'
    unfold Memory.write
    split
    · next hlt =>
      split
      · exact hm
      · next hv =>
        simp only [Memory.wfFrom, Bool.and_eq_true, decide_eq_true_eq]
        exact ⟨⟨⟨hlo, hx⟩, by simpa using hv⟩, ⟨⟨by omega, h2⟩, h3⟩, h4⟩
    · split
      · split
        · exact wfFrom_mono h4 (by omega)
        · next hv =>
          simp only [Memory.wfFrom, Bool.and_eq_true, decide_eq_true_eq]
          exact ⟨⟨⟨h1, h2⟩, by simpa using hv⟩, h4⟩
      · simp only [Memory.wfFrom, Bool.and_eq_true, decide_eq_true_eq]
        exact ⟨⟨⟨h1, h2⟩, h3⟩, ih h4 (by omega)⟩

/-- A write inside the address space keeps memory canonical. -/
theorem wf_write {m : Memory} {x : Nat} (v : Byte) (hm : m.wf = true) (hx : x < 2 ^ 32) : (m.write x v).wf = true :=
  wfFrom_write v hm (Nat.zero_le x) hx

/-- Writing a run of bytes keeps memory canonical. -/
theorem wf_writeBytes {m : Memory} (bs : List Byte) (x : Nat) (hm : m.wf = true) : (m.writeBytes x bs).wf = true := by
  induction bs generalizing m x with
  | nil => exact hm
  | cons b bs ih =>
    unfold Memory.writeBytes
    apply ih
    split
    · next hx => exact wf_write b hm hx
    · exact hm

/-- Writing a run of bytes leaves every byte outside the run alone. -/
theorem read_writeBytes_outside {m : Memory} (bs : List Byte) (x y : Nat) (h : y < x ∨ x + bs.length ≤ y) :
    (m.writeBytes x bs).read y = m.read y := by
  induction bs generalizing m x with
  | nil => rfl
  | cons b bs ih =>
    simp only [List.length_cons] at h
    unfold Memory.writeBytes
    rw [ih (x + 1) (by omega)]
    split
    · exact read_write_other b (by omega)
    · rfl

/-- A byte of a run written inside the address space reads back, in canonical memory. -/
theorem read_writeBytes_inside {m : Memory} (bs : List Byte) (x i : Nat) (hm : m.wf = true) (hi : i < bs.length)
    (hx : x + bs.length ≤ 2 ^ 32) : (m.writeBytes x bs).read (x + i) = bs[i] := by
  induction bs generalizing m x i with
  | nil => simp at hi
  | cons b bs ih =>
    simp only [List.length_cons] at hi hx
    unfold Memory.writeBytes
    rw [if_pos (by omega)]
    cases i with
    | zero =>
      rw [read_writeBytes_outside bs (x + 1) (x + 0) (by omega)]
      simpa using read_write_same b hm
    | succ i =>
      have := ih (m := m.write x b) (x + 1) i (wf_write b hm (by omega)) (by omega) (by omega)
      simpa [Nat.add_assoc, Nat.add_comm 1 i] using this

/-- Storing an operand keeps memory canonical. -/
theorem wf_memWrite (sz : Size) (addr : Long) (v : BitVec sz.bits) {s : State} (hm : s.mem.wf = true) :
    (memWrite sz addr v s).mem.wf = true := wf_writeBytes _ _ hm

/-- Storing an operand leaves every byte outside it alone. -/
theorem memWrite_read_outside (sz : Size) (addr : Long) (v : BitVec sz.bits) (s : State) (y : Nat)
    (h : y < addr.toNat ∨ addr.toNat + sz.bytes ≤ y) : (memWrite sz addr v s).mem.read y = s.mem.read y := by
  unfold memWrite
  apply read_writeBytes_outside
  cases sz <;> simp only [Size.bytes, List.length_cons, List.length_nil] at h ⊢ <;> omega

/-- Reading an operand depends on memory alone. -/
theorem memRead_congr {s t : State} (h : s.mem = t.mem) (sz : Size) (addr : Long) :
    memRead sz addr s = memRead sz addr t := by
  simp [memRead, h]

/-- A condition on each address of a run. -/
theorem everyByte_eq_true (p : Nat → Bool) (addr k : Nat) :
    everyByte p addr k = true ↔ ∀ i, i < k → p (addr + i) = true := by
  induction k generalizing addr with
  | zero => simp [everyByte]
  | succ k ih =>
    simp only [everyByte, Bool.and_eq_true, ih]
    constructor
    · rintro ⟨h0, h⟩ i hi
      cases i with
      | zero => exact h0
      | succ i => simpa [Nat.add_assoc, Nat.add_comm 1 i] using h i (by omega)
    · intro h
      exact ⟨h 0 (by omega), fun i hi => by simpa [Nat.add_assoc, Nat.add_comm 1 i] using h (i + 1) (by omega)⟩

/-- An allocated address is inside the address space (rule R30). -/
theorem allocated_lt {c : Config} {addr : Nat} (h : allocated c addr = true) : addr < 2 ^ 32 := by
  simp only [allocated, Bool.and_eq_true, decide_eq_true_eq] at h
  exact h.1

end Sys2Proof.Machine
end

