-- ==== Sys2Proof/Laws/PerInstr.lean ====
section
/-! SUPPORT. Facts about every instruction as syntax, one lemma per constructor: how many words its encoding has
(30_encoding.md rule R41: one operation word and the extension words it fixes). -/

namespace Sys2Proof.Laws

/-- An effective address takes at most two extension words. -/
theorem length_encoding_le (sz : Size) (ea : Ea) : (ea.encoding sz).length ≤ 2 := by
  cases ea <;> cases sz <;> simp [Ea.encoding, immEncoding, longWords]

/-- An immediate takes one or two words. -/
theorem length_immEncoding_le (sz : Size) (v : Long) : (immEncoding sz v).length ≤ 2 := by
  cases sz <;> simp [immEncoding, longWords]

/-- A conditional branch has one or two words. -/
theorem length_encodeBcc (c : Cond) (d : Disp) : 1 ≤ (encodeBcc c d).length ∧ (encodeBcc c d).length ≤ 2 := by
  cases d <;> simp [encodeBcc]

/-- An operation word followed by at most four words. -/
theorem length_cons_le {w : Word} {ws : List Word} (h : ws.length ≤ 4) :
    1 ≤ (w :: ws).length ∧ (w :: ws).length ≤ Machine.maxWords := by
  simp only [List.length_cons, Machine.maxWords]
  omega

namespace EncodeLength

/-- The encoding of an instruction has at most five words, the longest that the fetch reads, and it has at least one but
for the 32-bit multiply, which the spec gives no words (log 6). -/
def Statement (i : Instr) : Prop :=
  (encode i).length ≤ Machine.maxWords ∧
    (encode i = [] → ∃ dn ea, i = .muls .long dn ea ∨ i = .mulu .long dn ea)

/-- An encoding of one to five words. -/
theorem of_length {i : Instr} (h : 1 ≤ (encode i).length ∧ (encode i).length ≤ Machine.maxWords) : Statement i :=
  ⟨h.2, fun h0 => by simp [h0] at h⟩

/-- An operation word and the extension words of one effective address. -/
theorem of_ea {i : Instr} {w : Word} {sz : Size} {ea : Ea} (h : encode i = w :: ea.encoding sz) : Statement i := by
  have := length_encoding_le sz ea
  apply of_length
  rw [h]
  exact length_cons_le (by omega)

/-- An operation word, one more word, and the extension words of one effective address. -/
theorem of_word_ea {i : Instr} {w v : Word} {sz : Size} {ea : Ea} (h : encode i = w :: v :: ea.encoding sz) :
    Statement i := by
  have := length_encoding_le sz ea
  apply of_length
  rw [h]
  exact length_cons_le (by simp only [List.length_cons]; omega)

/-- An operation word, an immediate, and the extension words of one effective address. -/
theorem of_imm_ea {i : Instr} {w : Word} {sz : Size} {imm : Long} {ea : Ea}
    (h : encode i = w :: (immEncoding sz imm ++ ea.encoding sz)) : Statement i := by
  have h1 := length_encoding_le sz ea
  have h2 := length_immEncoding_le sz imm
  apply of_length
  rw [h]
  exact length_cons_le (by simp only [List.length_append]; omega)

/-- An operation word alone. -/
theorem of_one {i : Instr} {w : Word} (h : encode i = [w]) : Statement i := by
  apply of_length
  rw [h]
  exact length_cons_le (by simp)

/-- A conditional branch. -/
theorem of_bcc {i : Instr} {c : Cond} {d : Disp} (h : encode i = encodeBcc c d) : Statement i := by
  have := length_encodeBcc c d
  apply of_length
  unfold Machine.maxWords
  rw [h]
  omega

theorem abcd (form : XForm) (dst src : RegNum) : Statement (.abcd form dst src) := of_one rfl
theorem add (sz : Size) (dir : Dir) (dn : RegNum) (ea : Ea) : Statement (.add sz dir dn ea) := of_ea rfl
theorem addi (sz : Size) (imm : Long) (ea : Ea) : Statement (.addi sz imm ea) := of_imm_ea rfl
theorem addq (sz : Size) (data : Fin 8) (ea : Ea) : Statement (.addq sz data ea) := of_ea rfl
theorem addxB (form : XForm) (dst src : RegNum) : Statement (.addxB form dst src) := of_one rfl
theorem addxW (form : XForm) (dst src : RegNum) : Statement (.addxW form dst src) := of_one rfl
theorem addxL (form : XForm) (dst src : RegNum) : Statement (.addxL form dst src) := of_one rfl
theorem and (sz : Size) (dir : Dir) (dn : RegNum) (ea : Ea) : Statement (.and sz dir dn ea) := of_ea rfl
theorem andi (sz : Size) (imm : Long) (ea : Ea) : Statement (.andi sz imm ea) := of_imm_ea rfl
theorem eor (sz : Size) (dn : RegNum) (ea : Ea) : Statement (.eor sz dn ea) := of_ea rfl
theorem eori (sz : Size) (imm : Long) (ea : Ea) : Statement (.eori sz imm ea) := of_imm_ea rfl
theorem moveq (dn : RegNum) (data : Byte) : Statement (.moveq dn data) := of_one rfl
theorem move (sz : Size) (src dst : Ea) : Statement (.move sz src dst) := by
  have h1 := length_encoding_le sz src
  have h2 := length_encoding_le sz dst
  exact of_length <| length_cons_le (by simp only [List.length_append]; omega)
theorem or (sz : Size) (dir : Dir) (dn : RegNum) (ea : Ea) : Statement (.or sz dir dn ea) := of_ea rfl
theorem ori (sz : Size) (imm : Long) (ea : Ea) : Statement (.ori sz imm ea) := of_imm_ea rfl
theorem clr (sz : Size) (ea : Ea) : Statement (.clr sz ea) := of_ea rfl
theorem extW (dn : RegNum) : Statement (.extW dn) := of_one rfl
theorem extL (dn : RegNum) : Statement (.extL dn) := of_one rfl
theorem not (sz : Size) (ea : Ea) : Statement (.not sz ea) := of_ea rfl
theorem tas (ea : Ea) : Statement (.tas ea) := of_ea rfl
theorem tst (sz : Size) (ea : Ea) : Statement (.tst sz ea) := of_ea rfl
theorem chk (sz : Size) (dn : RegNum) (ea : Ea) : Statement (.chk sz dn ea) := of_ea rfl
theorem chk2 (sz : Size) (isAddr : Bool) (reg : RegNum) (ea : Ea) : Statement (.chk2 sz isAddr reg ea) := of_word_ea rfl
theorem sub (sz : Size) (dir : Dir) (dn : RegNum) (ea : Ea) : Statement (.sub sz dir dn ea) := of_ea rfl
theorem subi (sz : Size) (imm : Long) (ea : Ea) : Statement (.subi sz imm ea) := of_imm_ea rfl
theorem subq (sz : Size) (data : Fin 8) (ea : Ea) : Statement (.subq sz data ea) := of_ea rfl
theorem subxB (form : XForm) (dst src : RegNum) : Statement (.subxB form dst src) := of_one rfl
theorem subxW (form : XForm) (dst src : RegNum) : Statement (.subxW form dst src) := of_one rfl
theorem subxL (form : XForm) (dst src : RegNum) : Statement (.subxL form dst src) := of_one rfl
theorem cmpB (dn : RegNum) (ea : Ea) : Statement (.cmpB dn ea) := of_ea rfl
theorem cmpW (dn : RegNum) (ea : Ea) : Statement (.cmpW dn ea) := of_ea rfl
theorem cmpL (dn : RegNum) (ea : Ea) : Statement (.cmpL dn ea) := of_ea rfl
theorem cmpi (sz : Size) (imm : Long) (ea : Ea) : Statement (.cmpi sz imm ea) := of_imm_ea rfl
theorem cmpm (sz : Size) (dst src : RegNum) : Statement (.cmpm sz dst src) := of_one rfl
theorem divs (dn : RegNum) (ea : Ea) : Statement (.divs dn ea) := of_ea rfl
theorem divu (dn : RegNum) (ea : Ea) : Statement (.divu dn ea) := of_ea rfl
theorem muls (form : MulForm) (dn : RegNum) (ea : Ea) : Statement (.muls form dn ea) := by
  cases form
  · exact of_ea rfl
  · exact ⟨Nat.zero_le _, fun _ => ⟨dn, ea, .inl rfl⟩⟩
theorem mulu (form : MulForm) (dn : RegNum) (ea : Ea) : Statement (.mulu form dn ea) := by
  cases form
  · exact of_ea rfl
  · exact ⟨Nat.zero_le _, fun _ => ⟨dn, ea, .inr rfl⟩⟩
theorem sbcd (form : XForm) (dst src : RegNum) : Statement (.sbcd form dst src) := of_one rfl
theorem nbcd (ea : Ea) : Statement (.nbcd ea) := of_ea rfl
theorem neg (sz : Size) (ea : Ea) : Statement (.neg sz ea) := of_ea rfl
theorem negx (sz : Size) (ea : Ea) : Statement (.negx sz ea) := of_ea rfl
theorem btstReg (bit : RegNum) (ea : Ea) : Statement (.btstReg bit ea) := of_ea rfl
theorem btstImm (bit : Byte) (ea : Ea) : Statement (.btstImm bit ea) := of_word_ea rfl
theorem bchgReg (bit : RegNum) (ea : Ea) : Statement (.bchgReg bit ea) := of_ea rfl
theorem bchgImm (bit : Byte) (ea : Ea) : Statement (.bchgImm bit ea) := of_word_ea rfl
theorem bclrReg (bit : RegNum) (ea : Ea) : Statement (.bclrReg bit ea) := of_ea rfl
theorem bclrImm (bit : Byte) (ea : Ea) : Statement (.bclrImm bit ea) := of_word_ea rfl
theorem bsetReg (bit : RegNum) (ea : Ea) : Statement (.bsetReg bit ea) := of_ea rfl
theorem bsetImm (bit : Byte) (ea : Ea) : Statement (.bsetImm bit ea) := of_word_ea rfl
theorem asrReg (sz : Size) (count : ShiftCount) (dn : RegNum) : Statement (.asrReg sz count dn) := of_one rfl
theorem asrMem (ea : Ea) : Statement (.asrMem ea) := of_ea rfl
theorem aslReg (sz : Size) (count : ShiftCount) (dn : RegNum) : Statement (.aslReg sz count dn) := of_one rfl
theorem aslMem (ea : Ea) : Statement (.aslMem ea) := of_ea rfl
theorem lsrReg (sz : Size) (count : ShiftCount) (dn : RegNum) : Statement (.lsrReg sz count dn) := of_one rfl
theorem lsrMem (ea : Ea) : Statement (.lsrMem ea) := of_ea rfl
theorem lslReg (sz : Size) (count : ShiftCount) (dn : RegNum) : Statement (.lslReg sz count dn) := of_one rfl
theorem lslMem (ea : Ea) : Statement (.lslMem ea) := of_ea rfl
theorem roxrReg (sz : Size) (count : ShiftCount) (dn : RegNum) : Statement (.roxrReg sz count dn) := of_one rfl
theorem roxrMem (ea : Ea) : Statement (.roxrMem ea) := of_ea rfl
theorem roxlReg (sz : Size) (count : ShiftCount) (dn : RegNum) : Statement (.roxlReg sz count dn) := of_one rfl
theorem roxlMem (ea : Ea) : Statement (.roxlMem ea) := of_ea rfl
theorem rorReg (sz : Size) (count : ShiftCount) (dn : RegNum) : Statement (.rorReg sz count dn) := of_one rfl
theorem rorMem (ea : Ea) : Statement (.rorMem ea) := of_ea rfl
theorem rolReg (sz : Size) (count : ShiftCount) (dn : RegNum) : Statement (.rolReg sz count dn) := of_one rfl
theorem rolMem (ea : Ea) : Statement (.rolMem ea) := of_ea rfl
theorem bhi (disp : Disp) : Statement (.bhi disp) := of_bcc rfl
theorem bls (disp : Disp) : Statement (.bls disp) := of_bcc rfl
theorem bcc (disp : Disp) : Statement (.bcc disp) := of_bcc rfl
theorem bcs (disp : Disp) : Statement (.bcs disp) := of_bcc rfl
theorem bne (disp : Disp) : Statement (.bne disp) := of_bcc rfl
theorem beq (disp : Disp) : Statement (.beq disp) := of_bcc rfl
theorem bvc (disp : Disp) : Statement (.bvc disp) := of_bcc rfl
theorem bvs (disp : Disp) : Statement (.bvs disp) := of_bcc rfl
theorem bpl (disp : Disp) : Statement (.bpl disp) := of_bcc rfl
theorem bmi (disp : Disp) : Statement (.bmi disp) := of_bcc rfl
theorem bge (disp : Disp) : Statement (.bge disp) := of_bcc rfl
theorem blt (disp : Disp) : Statement (.blt disp) := of_bcc rfl
theorem bgt (disp : Disp) : Statement (.bgt disp) := of_bcc rfl
theorem ble (disp : Disp) : Statement (.ble disp) := of_bcc rfl
theorem st (ea : Ea) : Statement (.st ea) := of_ea rfl
theorem sf (ea : Ea) : Statement (.sf ea) := of_ea rfl
theorem shi (ea : Ea) : Statement (.shi ea) := of_ea rfl
theorem sls (ea : Ea) : Statement (.sls ea) := of_ea rfl
theorem scc (ea : Ea) : Statement (.scc ea) := of_ea rfl
theorem scs (ea : Ea) : Statement (.scs ea) := of_ea rfl
theorem sne (ea : Ea) : Statement (.sne ea) := of_ea rfl
theorem seq (ea : Ea) : Statement (.seq ea) := of_ea rfl
theorem svc (ea : Ea) : Statement (.svc ea) := of_ea rfl
theorem svs (ea : Ea) : Statement (.svs ea) := of_ea rfl
theorem spl (ea : Ea) : Statement (.spl ea) := of_ea rfl
theorem smi (ea : Ea) : Statement (.smi ea) := of_ea rfl
theorem sge (ea : Ea) : Statement (.sge ea) := of_ea rfl
theorem slt (ea : Ea) : Statement (.slt ea) := of_ea rfl
theorem sgt (ea : Ea) : Statement (.sgt ea) := of_ea rfl
theorem sle (ea : Ea) : Statement (.sle ea) := of_ea rfl

end EncodeLength

end Sys2Proof.Laws
end

