-- ==== Sys2Proof/Laws/State.lean ====
section
/-! SUPPORT. One lemma per field per update of the state, so that no proof unfolds a record update. -/

namespace Sys2Proof.Machine

variable (s : State)

@[simp] theorem setD_d (r : RegNum) (v : Long) : (s.setD r v).d = s.d.set r v := rfl
@[simp] theorem setD_a (r : RegNum) (v : Long) : (s.setD r v).a = s.a := rfl
@[simp] theorem setD_pc (r : RegNum) (v : Long) : (s.setD r v).pc = s.pc := rfl
@[simp] theorem setD_ccr (r : RegNum) (v : Long) : (s.setD r v).ccr = s.ccr := rfl
@[simp] theorem setD_mem (r : RegNum) (v : Long) : (s.setD r v).mem = s.mem := rfl
@[simp] theorem setD_draws (r : RegNum) (v : Long) : (s.setD r v).draws = s.draws := rfl
@[simp] theorem setD_cfg (r : RegNum) (v : Long) : (s.setD r v).cfg = s.cfg := rfl

@[simp] theorem setA_d (r : RegNum) (v : Long) : (s.setA r v).d = s.d := rfl
@[simp] theorem setA_a (r : RegNum) (v : Long) : (s.setA r v).a = s.a.set r v := rfl
@[simp] theorem setA_pc (r : RegNum) (v : Long) : (s.setA r v).pc = s.pc := rfl
@[simp] theorem setA_ccr (r : RegNum) (v : Long) : (s.setA r v).ccr = s.ccr := rfl
@[simp] theorem setA_mem (r : RegNum) (v : Long) : (s.setA r v).mem = s.mem := rfl
@[simp] theorem setA_draws (r : RegNum) (v : Long) : (s.setA r v).draws = s.draws := rfl
@[simp] theorem setA_cfg (r : RegNum) (v : Long) : (s.setA r v).cfg = s.cfg := rfl

@[simp] theorem setDLow_d (sz : Size) (r : RegNum) (v : BitVec sz.bits) : (s.setDLow sz r v).d = s.d.set r (mergeLow sz s.d[r] v) := rfl
@[simp] theorem setDLow_a (sz : Size) (r : RegNum) (v : BitVec sz.bits) : (s.setDLow sz r v).a = s.a := rfl
@[simp] theorem setDLow_pc (sz : Size) (r : RegNum) (v : BitVec sz.bits) : (s.setDLow sz r v).pc = s.pc := rfl
@[simp] theorem setDLow_ccr (sz : Size) (r : RegNum) (v : BitVec sz.bits) : (s.setDLow sz r v).ccr = s.ccr := rfl
@[simp] theorem setDLow_mem (sz : Size) (r : RegNum) (v : BitVec sz.bits) : (s.setDLow sz r v).mem = s.mem := rfl
@[simp] theorem setDLow_draws (sz : Size) (r : RegNum) (v : BitVec sz.bits) : (s.setDLow sz r v).draws = s.draws := rfl
@[simp] theorem setDLow_cfg (sz : Size) (r : RegNum) (v : BitVec sz.bits) : (s.setDLow sz r v).cfg = s.cfg := rfl

@[simp] theorem advance_d (words : Nat) : (s.advance words).d = s.d := rfl
@[simp] theorem advance_a (words : Nat) : (s.advance words).a = s.a := rfl
@[simp] theorem advance_pc (words : Nat) : (s.advance words).pc = s.pc + BitVec.ofNat 32 (2 * words) := rfl
@[simp] theorem advance_ccr (words : Nat) : (s.advance words).ccr = s.ccr := rfl
@[simp] theorem advance_mem (words : Nat) : (s.advance words).mem = s.mem := rfl
@[simp] theorem advance_draws (words : Nat) : (s.advance words).draws = s.draws := rfl
@[simp] theorem advance_cfg (words : Nat) : (s.advance words).cfg = s.cfg := rfl

@[simp] theorem finish_d (f : CCR) (spent words : Nat) : (s.finish f spent words).d = s.d := rfl
@[simp] theorem finish_a (f : CCR) (spent words : Nat) : (s.finish f spent words).a = s.a := rfl
@[simp] theorem finish_pc (f : CCR) (spent words : Nat) : (s.finish f spent words).pc = s.pc + BitVec.ofNat 32 (2 * words) := rfl
@[simp] theorem finish_ccr (f : CCR) (spent words : Nat) : (s.finish f spent words).ccr = f := rfl
@[simp] theorem finish_mem (f : CCR) (spent words : Nat) : (s.finish f spent words).mem = s.mem := rfl
@[simp] theorem finish_draws (f : CCR) (spent words : Nat) : (s.finish f spent words).draws = s.draws + spent := rfl
@[simp] theorem finish_cfg (f : CCR) (spent words : Nat) : (s.finish f spent words).cfg = s.cfg := rfl

@[simp] theorem memWrite_d (sz : Size) (addr : Long) (v : BitVec sz.bits) : (memWrite sz addr v s).d = s.d := rfl
@[simp] theorem memWrite_a (sz : Size) (addr : Long) (v : BitVec sz.bits) : (memWrite sz addr v s).a = s.a := rfl
@[simp] theorem memWrite_pc (sz : Size) (addr : Long) (v : BitVec sz.bits) : (memWrite sz addr v s).pc = s.pc := rfl
@[simp] theorem memWrite_ccr (sz : Size) (addr : Long) (v : BitVec sz.bits) : (memWrite sz addr v s).ccr = s.ccr := rfl
@[simp] theorem memWrite_draws (sz : Size) (addr : Long) (v : BitVec sz.bits) : (memWrite sz addr v s).draws = s.draws := rfl
@[simp] theorem memWrite_cfg (sz : Size) (addr : Long) (v : BitVec sz.bits) : (memWrite sz addr v s).cfg = s.cfg := rfl

@[simp] theorem predec_d (sz : Size) (r : RegNum) : (predec sz r s).d = s.d := rfl
@[simp] theorem predec_a (sz : Size) (r : RegNum) : (predec sz r s).a = s.a.set r (s.a[r] - BitVec.ofNat 32 sz.bytes) := rfl
@[simp] theorem predec_pc (sz : Size) (r : RegNum) : (predec sz r s).pc = s.pc := rfl
@[simp] theorem predec_ccr (sz : Size) (r : RegNum) : (predec sz r s).ccr = s.ccr := rfl
@[simp] theorem predec_mem (sz : Size) (r : RegNum) : (predec sz r s).mem = s.mem := rfl
@[simp] theorem predec_draws (sz : Size) (r : RegNum) : (predec sz r s).draws = s.draws := rfl
@[simp] theorem predec_cfg (sz : Size) (r : RegNum) : (predec sz r s).cfg = s.cfg := rfl

@[simp] theorem postinc_d (sz : Size) (r : RegNum) : (postinc sz r s).d = s.d := rfl
@[simp] theorem postinc_a (sz : Size) (r : RegNum) : (postinc sz r s).a = s.a.set r (s.a[r] + BitVec.ofNat 32 sz.bytes) := rfl
@[simp] theorem postinc_pc (sz : Size) (r : RegNum) : (postinc sz r s).pc = s.pc := rfl
@[simp] theorem postinc_ccr (sz : Size) (r : RegNum) : (postinc sz r s).ccr = s.ccr := rfl
@[simp] theorem postinc_mem (sz : Size) (r : RegNum) : (postinc sz r s).mem = s.mem := rfl
@[simp] theorem postinc_draws (sz : Size) (r : RegNum) : (postinc sz r s).draws = s.draws := rfl
@[simp] theorem postinc_cfg (sz : Size) (r : RegNum) : (postinc sz r s).cfg = s.cfg := rfl

@[simp] theorem eaAfter_d (sz : Size) (ea : Ea) : (eaAfter sz ea s).d = s.d := by cases ea <;> rfl
@[simp] theorem eaAfter_pc (sz : Size) (ea : Ea) : (eaAfter sz ea s).pc = s.pc := by cases ea <;> rfl
@[simp] theorem eaAfter_ccr (sz : Size) (ea : Ea) : (eaAfter sz ea s).ccr = s.ccr := by cases ea <;> rfl
@[simp] theorem eaAfter_mem (sz : Size) (ea : Ea) : (eaAfter sz ea s).mem = s.mem := by cases ea <;> rfl
@[simp] theorem eaAfter_draws (sz : Size) (ea : Ea) : (eaAfter sz ea s).draws = s.draws := by cases ea <;> rfl
@[simp] theorem eaAfter_cfg (sz : Size) (ea : Ea) : (eaAfter sz ea s).cfg = s.cfg := by cases ea <;> rfl

@[simp] theorem locWrite_a (sz : Size) (l : Loc) (v : BitVec sz.bits) : (locWrite sz l v s).a = s.a := by cases l <;> rfl
@[simp] theorem locWrite_pc (sz : Size) (l : Loc) (v : BitVec sz.bits) : (locWrite sz l v s).pc = s.pc := by cases l <;> rfl
@[simp] theorem locWrite_ccr (sz : Size) (l : Loc) (v : BitVec sz.bits) : (locWrite sz l v s).ccr = s.ccr := by cases l <;> rfl
@[simp] theorem locWrite_draws (sz : Size) (l : Loc) (v : BitVec sz.bits) : (locWrite sz l v s).draws = s.draws := by cases l <;> rfl
@[simp] theorem locWrite_cfg (sz : Size) (l : Loc) (v : BitVec sz.bits) : (locWrite sz l v s).cfg = s.cfg := by cases l <;> rfl

@[simp] theorem eaWrite_a (sz : Size) (ea : Ea) (before : Nat) (v : BitVec sz.bits) : (eaWrite sz ea before v s).a = (eaAfter sz ea s).a := by simp [eaWrite]
@[simp] theorem eaWrite_pc (sz : Size) (ea : Ea) (before : Nat) (v : BitVec sz.bits) : (eaWrite sz ea before v s).pc = s.pc := by simp [eaWrite]
@[simp] theorem eaWrite_ccr (sz : Size) (ea : Ea) (before : Nat) (v : BitVec sz.bits) : (eaWrite sz ea before v s).ccr = s.ccr := by simp [eaWrite]
@[simp] theorem eaWrite_draws (sz : Size) (ea : Ea) (before : Nat) (v : BitVec sz.bits) : (eaWrite sz ea before v s).draws = s.draws := by simp [eaWrite]
@[simp] theorem eaWrite_cfg (sz : Size) (ea : Ea) (before : Nat) (v : BitVec sz.bits) : (eaWrite sz ea before v s).cfg = s.cfg := by simp [eaWrite]

/-- A data register after a write to one. -/
theorem setD_getElem (r k : RegNum) (v : Long) : (s.setD r v).d[k] = if r = k then v else s.d[k] := by
  simp [Vector.getElem_set, Fin.ext_iff]

/-- An address register after a write to one. -/
theorem setA_getElem (r k : RegNum) (v : Long) : (s.setA r v).a[k] = if r = k then v else s.a[k] := by
  simp [Vector.getElem_set, Fin.ext_iff]

/-- A data register after a write to the low bits of one. -/
theorem setDLow_getElem (sz : Size) (r k : RegNum) (v : BitVec sz.bits) :
    (s.setDLow sz r v).d[k] = if r = k then mergeLow sz s.d[r] v else s.d[k] := setD_getElem s r k _

/-- An address register after a predecrement. -/
theorem predec_getElem (sz : Size) (r k : RegNum) :
    (predec sz r s).a[k] = if r = k then s.a[r] - BitVec.ofNat 32 sz.bytes else s.a[k] := setA_getElem s r k _

/-- An address register after a postincrement. -/
theorem postinc_getElem (sz : Size) (r k : RegNum) :
    (postinc sz r s).a[k] = if r = k then s.a[r] + BitVec.ofNat 32 sz.bytes else s.a[k] := setA_getElem s r k _

/-- The address of an extension word depends on the pc alone. -/
theorem extAddr_eq_of_pc {s t : State} (h : s.pc = t.pc) (before : Nat) : s.extAddr before = t.extAddr before := by
  simp [State.extAddr, h]

/-- Addressing leaves the address of every extension word. -/
@[simp] theorem eaAfter_extAddr (sz : Size) (ea : Ea) (before : Nat) :
    (eaAfter sz ea s).extAddr before = s.extAddr before :=
  extAddr_eq_of_pc (eaAfter_pc s sz ea) before

end Sys2Proof.Machine
end

