-- ==== Sys2Proof/Laws/Shapes.lean ====
section
/-! SUPPORT. For each shared operation one lemma that says everything it can answer as a next state: which stops it passed
and what the next state is. -/

namespace Sys2Proof.Machine

@[simp] theorem check_none (k : Result) : check none k = k := rfl

@[simp] theorem check_some (st : Stop) (k : Result) : check (some st) k = st.outcome := rfl

@[simp] theorem stop_outcome_ne_next (st : Stop) (t : State) : st.outcome ≠ .next t := by
  cases st <;> simp [Stop.outcome]

/-- A check goes on to a next state exactly where there is no reason to stop. -/
theorem check_eq_next {stop : Option Stop} {k : Result} {t : State} :
    check stop k = .next t ↔ stop = none ∧ k = .next t := by
  cases stop <;> simp

@[simp] theorem refuseIf_eq_none {b : Bool} {r : Refusal} : refuseIf b r = none ↔ b = false := by
  cases b <;> simp [refuseIf]

/-- An instruction passes the form check exactly when it is well formed. -/
theorem formStop_eq_none {i : Instr} : formStop i = none ↔ i.wf = true := by simp [formStop]

/-- An instruction of `words` words fits below the top of the address space. -/
theorem pcStop_eq_none {words : Nat} {s : State} : pcStop words s = none ↔ s.pc.toNat + 2 * words < 2 ^ 32 := by
  simp [pcStop]

/-- An access happens exactly when it is aligned, or misaligned accesses are performed, and all its bytes are in the map. -/
theorem accessStop_eq_none {sz : Size} {addr : Long} {s : State} :
    accessStop sz addr s = none ↔
      (sz = .byte ∨ addr.toNat % 2 = 0 ∨ s.cfg.misaligned = .perform) ∧
        ∀ i, i < sz.bytes → allocated s.cfg (addr.toNat + i) = true := by
  have hmis : s.cfg.misaligned = .perform ↔ ¬ s.cfg.misaligned = .refuse := by
    cases s.cfg.misaligned <;> simp
  rw [hmis]
  unfold accessStop
  split
  · next h =>
    obtain ⟨h1, h2, h3⟩ := h
    simp [h1, h2, h3]
  · next h =>
    have h' : sz = .byte ∨ addr.toNat % 2 = 0 ∨ ¬ s.cfg.misaligned = .refuse := by
      by_contra hc
      simp only [not_or, not_not] at hc
      exact h ⟨hc.1, by omega, hc.2.2⟩
    simp only [h', true_and, ← everyByte_eq_true]
    split
    · next h2 => simp [h2]
    · next h2 => simpa using h2

/-- A store happens exactly when the access does and no byte of it is program text. -/
theorem storeStop_eq_none {sz : Size} {addr : Long} {s : State} :
    storeStop sz addr s = none ↔
      accessStop sz addr s = none ∧ ∀ i, i < sz.bytes → inRegion s.cfg.text (addr.toNat + i) = false := by
  unfold storeStop
  split
  · next st h => simp [h]
  · next h =>
    simp only [h, true_and]
    split
    · next h2 => simpa [everyByte_eq_true] using h2
    · next h2 => simpa [everyByte_eq_true] using h2

/-- A store's bytes are inside the address space. -/
theorem storeStop_lt {sz : Size} {addr : Long} {s : State} (h : storeStop sz addr s = none) :
    addr.toNat + sz.bytes ≤ 2 ^ 32 := by
  have h1 := (accessStop_eq_none.1 (storeStop_eq_none.1 h).1).2
  cases sz
  · have := allocated_lt (h1 0 (by decide)); simp only [Size.bytes]; omega
  · have := allocated_lt (h1 1 (by decide)); simp only [Size.bytes]; omega
  · have := allocated_lt (h1 3 (by decide)); simp only [Size.bytes]; omega

/-- An access depends on the parameters alone. -/
theorem accessStop_congr {s t : State} (h : s.cfg = t.cfg) (sz : Size) (addr : Long) :
    accessStop sz addr s = accessStop sz addr t := by
  simp [accessStop, h]

/-- A store depends on the parameters alone. -/
theorem storeStop_congr {s t : State} (h : s.cfg = t.cfg) (sz : Size) (addr : Long) :
    storeStop sz addr s = storeStop sz addr t := by
  simp [storeStop, h, accessStop_congr h]

/-- `<ea>` is read exactly where it has an operand, the operand can be read, and the register can be incremented. -/
theorem eaReadStop_eq_none {sz : Size} {ea : Ea} {before : Nat} {s : State} :
    eaReadStop sz ea before s = none ↔
      eaStop sz ea (s.extAddr before) s = none ∧
        locReadStop sz (eaLoc sz ea (s.extAddr before) s) (eaAfter sz ea s) = none ∧ eaAfterStop sz ea s = none := by
  simp only [eaReadStop, Option.or_eq_none_iff]

/-- `<ea>` is written exactly where it has a place, the place can be written, and the register can be incremented. -/
theorem eaWriteStop_eq_none {sz : Size} {ea : Ea} {before : Nat} {s : State} :
    eaWriteStop sz ea before s = none ↔
      eaStop sz ea (s.extAddr before) s = none ∧
        locWriteStop sz (eaLoc sz ea (s.extAddr before) s) (eaAfter sz ea s) = none ∧ eaAfterStop sz ea s = none := by
  simp only [eaWriteStop, Option.or_eq_none_iff]

/-- A decimal instruction runs exactly where both operands are packed decimal or `P_BCD_INVALID` is free. -/
theorem bcdStop_eq_none {s : State} {S D : Byte} :
    bcdStop s S D = none ↔ (bcdValid S = true ∧ bcdValid D = true) ∨ s.cfg.bcdInvalid = .free := by
  cases h : s.cfg.bcdInvalid <;> simp [bcdStop, h]

/-- A register and `<ea>` into a register: every way to a next state. -/
theorem eaToDn_eq_next {i : Instr} {sz : Size} {dn : RegNum} {ea : Ea} {before : Nat} {s t : State}
    {alu : BitVec sz.bits → Long → Effect 32} {stop : BitVec sz.bits → Option Stop} :
    eaToDn i sz dn ea before s alu stop = .next t ↔
      i.wf = true ∧ eaReadStop sz ea before s = none ∧ stop (eaRead sz ea before s) = none ∧
        pcStop (1 + before + ea.extWords sz) s = none ∧
        ((eaAfter sz ea s).setD dn (alu (eaRead sz ea before s) s.d[dn]).result).finish
          (alu (eaRead sz ea before s) s.d[dn]).ccr (alu (eaRead sz ea before s) s.d[dn]).spent
          (1 + before + ea.extWords sz) = t := by
  simp only [eaToDn, check_eq_next, formStop_eq_none, Host.Outcome.next.injEq]

/-- `<ea>` read, changed, written: every way to a next state. -/
theorem modifyEa_eq_next {i : Instr} {sz : Size} {ea : Ea} {before : Nat} {s t : State}
    {alu : BitVec sz.bits → Effect sz.bits} {stop : BitVec sz.bits → Option Stop} :
    modifyEa i sz ea before s alu stop = .next t ↔
      i.wf = true ∧ eaReadStop sz ea before s = none ∧ stop (eaRead sz ea before s) = none ∧
        eaWriteStop sz ea before s = none ∧ pcStop (1 + before + ea.extWords sz) s = none ∧
        (eaWrite sz ea before (alu (eaRead sz ea before s)).result s).finish
          (alu (eaRead sz ea before s)).ccr (alu (eaRead sz ea before s)).spent (1 + before + ea.extWords sz) = t := by
  simp only [modifyEa, check_eq_next, formStop_eq_none, Host.Outcome.next.injEq]

/-- `<ea>` written: every way to a next state. -/
theorem storeEa_eq_next {i : Instr} {sz : Size} {ea : Ea} {s t : State} {v : BitVec sz.bits} {f : CCR} :
    storeEa i sz ea s v f = .next t ↔
      i.wf = true ∧ eaWriteStop sz ea 0 s = none ∧ pcStop (1 + ea.extWords sz) s = none ∧
        (eaWrite sz ea 0 v s).finish f 0 (1 + ea.extWords sz) = t := by
  simp only [storeEa, check_eq_next, formStop_eq_none, Host.Outcome.next.injEq]

/-- `<ea>` tested: every way to a next state. -/
theorem testEa_eq_next {i : Instr} {sz : Size} {ea : Ea} {before : Nat} {s t : State}
    {flags : BitVec sz.bits → CCR} :
    testEa i sz ea before s flags = .next t ↔
      i.wf = true ∧ eaReadStop sz ea before s = none ∧ pcStop (1 + before + ea.extWords sz) s = none ∧
        (eaAfter sz ea s).finish (flags (eaRead sz ea before s)) 0 (1 + before + ea.extWords sz) = t := by
  simp only [testEa, check_eq_next, formStop_eq_none, Host.Outcome.next.injEq]

/-- The register form of an extended instruction: every way to a next state. -/
theorem extended_data_eq_next {sz : Size} {dst src : RegNum} {s t : State}
    {alu : BitVec sz.bits → BitVec sz.bits → Effect sz.bits} {stop : BitVec sz.bits → BitVec sz.bits → Option Stop} :
    extended sz .data dst src s alu stop = .next t ↔
      stop (lowPart sz s.d[src]) (lowPart sz s.d[dst]) = none ∧ pcStop 1 s = none ∧
        (s.setDLow sz dst (alu (lowPart sz s.d[src]) (lowPart sz s.d[dst])).result).finish
          (alu (lowPart sz s.d[src]) (lowPart sz s.d[dst])).ccr
          (alu (lowPart sz s.d[src]) (lowPart sz s.d[dst])).spent 1 = t := by
  simp only [extended, check_eq_next, Host.Outcome.next.injEq]

/-- The predecrement form of an extended instruction: every way to a next state. -/
theorem extended_predec_eq_next {sz : Size} {dst src : RegNum} {s t : State}
    {alu : BitVec sz.bits → BitVec sz.bits → Effect sz.bits} {stop : BitVec sz.bits → BitVec sz.bits → Option Stop} :
    extended sz .predec dst src s alu stop = .next t ↔
      predecStop sz src s = none ∧ accessStop sz (predec sz src s).a[src] s = none ∧
        predecStop sz dst (predec sz src s) = none ∧
        accessStop sz (predec sz dst (predec sz src s)).a[dst] s = none ∧
        stop (memRead sz (predec sz src s).a[src] s) (memRead sz (predec sz dst (predec sz src s)).a[dst] s) = none ∧
        storeStop sz (predec sz dst (predec sz src s)).a[dst] s = none ∧ pcStop 1 s = none ∧
        (let e := alu (memRead sz (predec sz src s).a[src] s) (memRead sz (predec sz dst (predec sz src s)).a[dst] s)
         (memWrite sz (predec sz dst (predec sz src s)).a[dst] e.result (predec sz dst (predec sz src s))).finish
           e.ccr e.spent 1) = t := by
  simp only [extended, check_eq_next, Host.Outcome.next.injEq]

/-- A register shift: every way to a next state. -/
theorem shiftDn_eq_next {k : Shift} {sz : Size} {count : ShiftCount} {dn : RegNum} {s t : State} :
    shiftDn k sz count dn s = .next t ↔
      pcStop 1 s = none ∧
        (let e := shiftEffect k s.cfg.aslCarryInverted s.ccr (shiftCount count s) (lowPart sz s.d[dn])
         (s.setDLow sz dn e.result).finish e.ccr e.spent 1) = t := by
  simp only [shiftDn, check_eq_next, Host.Outcome.next.injEq]

/-- A branch: every way to a next state. -/
theorem branch_eq_next {i : Instr} {c : Cond} {disp : Disp} {s t : State} :
    branch i c disp s = .next t ↔
      i.wf = true ∧
        ((condHolds c s.ccr = true ∧ (branchTarget disp s).toNat % 2 = 0 ∧
            { s with pc := branchTarget disp s } = t) ∨
          (condHolds c s.ccr = false ∧ pcStop (1 + disp.extWords) s = none ∧
            s.advance (1 + disp.extWords) = t)) := by
  simp only [branch, check_eq_next, formStop_eq_none]
  cases condHolds c s.ccr <;> simp [check_eq_next]

end Sys2Proof.Machine
end

