-- ==== Sys2Proof/Laws/Shifts.lean ====
section
/-! SUPPORT. The single-bit steps of 47_shift_rotate.md rule R159, for any count: the last step is a step of the rest, so that
a law of `r` steps is an induction on `r`; and the value and the bit shifted out of the shifts that bring zeros in. -/

namespace Sys2Proof.Machine

/-- `r + 1` steps are `r` steps and one more. -/
theorem shiftSteps_succ {n : Nat} (k : Shift) (r : Nat) (t : ShiftState n) :
    shiftSteps k (r + 1) t = shiftStep k (shiftSteps k r t) := by
  induction r generalizing t with
  | zero => rfl
  | succ r ih => exact ih (shiftStep k t)

@[simp] theorem lowBit_false (n : Nat) : lowBit n false = 0 := rfl

@[simp] theorem highBit_false (n : Nat) : highBit n false = 0 := by simp [highBit]

@[simp] theorem shiftSteps_asl_v {n : Nat} (r : Nat) (t : ShiftState n) : (shiftSteps .asl r t).v = t.v <<< r := by
  induction r with
  | zero => simp [shiftSteps]
  | succ r ih => simp [shiftSteps_succ, shiftStep, ih, BitVec.shiftLeft_add]

@[simp] theorem shiftSteps_lsl_v {n : Nat} (r : Nat) (t : ShiftState n) : (shiftSteps .lsl r t).v = t.v <<< r := by
  induction r with
  | zero => simp [shiftSteps]
  | succ r ih => simp [shiftSteps_succ, shiftStep, ih, BitVec.shiftLeft_add]

@[simp] theorem shiftSteps_lsr_v {n : Nat} (r : Nat) (t : ShiftState n) : (shiftSteps .lsr r t).v = t.v >>> r := by
  induction r with
  | zero => simp [shiftSteps]
  | succ r ih => simp [shiftSteps_succ, shiftStep, ih, BitVec.shiftRight_add]

/-- The bit a left shift of `r + 1` shifts out is the top bit after `r` steps. -/
theorem shiftSteps_asl_out {n : Nat} (r : Nat) (t : ShiftState n) :
    (shiftSteps .asl (r + 1) t).out = (t.v <<< r).msb := by
  simp [shiftSteps_succ, shiftStep]

theorem shiftSteps_lsl_out {n : Nat} (r : Nat) (t : ShiftState n) :
    (shiftSteps .lsl (r + 1) t).out = (t.v <<< r).msb := by
  simp [shiftSteps_succ, shiftStep]

/-- The bit a right shift of `r + 1` shifts out is bit `r` of the operand. -/
theorem shiftSteps_lsr_out {n : Nat} (r : Nat) (t : ShiftState n) :
    (shiftSteps .lsr (r + 1) t).out = t.v.getLsbD r := by
  simp [shiftSteps_succ, shiftStep]

end Sys2Proof.Machine
end

