-- ==== Sys2Proof/Laws/Step.lean ====
section
/-! SUPPORT. What a step can do. -/

namespace Sys2Proof.Machine

/-- A step answers a next state exactly by executing the instruction it fetched. -/
theorem step_eq_next {s t : State} : step s = .next t ↔ ∃ i, fetch s = .ok i ∧ exec i s = .next t := by
  unfold step
  split
  · next i h => simp [h]
  · next st h => cases st <;> simp [h, Stop.outcome]

/-- A fetched instruction is well formed, and the pc is even. -/
theorem fetch_eq_ok {s : State} {i : Instr} (h : fetch s = .ok i) :
    s.pc.toNat % 2 = 0 ∧ ∃ rest, decode (fetchWords maxWords s.pc.toNat s) = .ok (i, rest) := by
  unfold fetch at h
  split at h
  · simp at h
  · next hpc =>
    simp only at h
    split at h <;> simp_all

/-- What the decoder gives is well formed (rule R48). -/
theorem decode_wf {ws rest : List Word} {i : Instr} (h : decode ws = .ok (i, rest)) : i.wf = true := by
  unfold decode at h
  split at h
  · simp at h
  · simp only at h
    split at h
    · split at h
      · simp_all
      · simp at h
    · simp at h

end Sys2Proof.Machine
end

