-- ==== Sys2Proof/Tests/Slice0.lean ====
section
/-! SUPPORT. Tests of the model, each expected value from spec/ (the section stands with the test), and one witness for each
obligation that has hypotheses. -/

namespace Sys2Proof.Slice0

open Sys2Proof.Machine

/-! ### Helpers -/

/-- The condition codes from a numeral, written X N Z V C. -/
def flags (v : BitVec 5) : CCR := ⟨v[4], v[3], v[2], v[1], v[0]⟩

/-- A state with a program text at 0x8000, memory below 0x10000, the long multiply, and registers and condition codes as
given; D0 is the destination, D1 the source, A0 = 0x1000, A1 = 0x2000. -/
def start (source dest : Long) (f : BitVec 5) : State :=
  { State.reset with
    d := #v[dest, source, 0, 0, 0, 0, 0, 0]
    a := #v[0x1000, 0x2000, 0, 0, 0, 0, 0, 0x3000]
    pc := 0x8000
    ccr := flags f
    cfg := { Config.atReset with map := [⟨0, 0x10000⟩], text := ⟨0x8000, 0x100⟩, longMultiply := true } }

/-- D0 and the condition codes after an instruction from `start`. -/
def after (i : Instr) (source dest : Long) (f : BitVec 5) : Option (Long × CCR) :=
  match exec i (start source dest f) with
  | .next t => some (t.d[0], t.ccr)
  | _ => none

/-- D0 and the condition codes after an instruction that draws N and V: those two shown as 0. -/
def afterXZC (i : Instr) (source dest : Long) (f : BitVec 5) : Option (Long × CCR) :=
  match exec i (start source dest f) with
  | .next t => some (t.d[0], { t.ccr with n := false, v := false })
  | _ => none

/-- An instruction leaves D0 and the condition codes so. -/
abbrev gives (i : Instr) (source dest : Long) (f : BitVec 5) (result : Long) (g : BitVec 5) : Prop :=
  after i source dest f = some (result, flags g)

/-- An instruction completes. -/
def completes (i : Instr) (s : State) : Bool :=
  match exec i s with
  | .next _ => true
  | _ => false

/-- A step completes. -/
def steps (s : State) : Bool :=
  match step s with
  | .next _ => true
  | _ => false

/-- The decoder reads an instruction from one word. -/
abbrev reads (w : Nat) (i : Instr) : Prop := decodeTableWord 16 w = some i

/-- The decoder reads an instruction from two words. -/
abbrev reads2 (w1 w2 : Nat) (i : Instr) : Prop := decodeTableWord 32 (w1 + 65536 * w2) = some i

/-- The operand of an instruction can be read and its words end in the address space. -/
abbrev Readable (i : Instr) (sz : Size) (ea : Ea) (before : Nat) (s : State) : Prop :=
  i.wf = true ∧ eaReadStop sz ea before s = none ∧ s.fits (1 + before + ea.extWords sz)

/-- The operand of an instruction can be read and stored and its words end in the address space. -/
abbrev Replaceable (i : Instr) (sz : Size) (ea : Ea) (before : Nat) (s : State) : Prop :=
  Readable i sz ea before s ∧ eaWriteStop sz ea before s = none

/-- The operand of an instruction can be stored and its words end in the address space. -/
abbrev Storable (i : Instr) (sz : Size) (ea : Ea) (s : State) : Prop :=
  i.wf = true ∧ eaWriteStop sz ea 0 s = none ∧ s.fits (1 + ea.extWords sz)

/-! ### Well-formedness: an ill-formed term for each check (30_encoding.md rules R47, R48) -/

theorem test_wf_refuses_arith_to_register : (Instr.add .word .toEa 0 (.dn 1)).wf = false := by decide
theorem test_wf_refuses_byte_address_register : (Instr.sub .byte .toDn 0 (.an 1)).wf = false := by decide
theorem test_wf_refuses_wide_immediate : (Instr.addi .byte 0x100 (.dn 0)).wf = false := by decide
theorem test_wf_refuses_immediate_to_pc_relative : (Instr.ori .word 1 (.pcDisp 4)).wf = false := by decide
theorem test_wf_refuses_logic_address_register : (Instr.and .word .toDn 0 (.an 1)).wf = false := by decide
theorem test_wf_refuses_logic_to_register : (Instr.or .word .toEa 0 (.dn 1)).wf = false := by decide
theorem test_wf_refuses_store_to_immediate : (Instr.clr .word (.imm 0)).wf = false := by decide
theorem test_wf_refuses_move_to_address_register : (Instr.move .long (.dn 0) (.an 0)).wf = false := by decide
theorem test_wf_refuses_memory_shift_of_register : (Instr.aslMem (.dn 0)).wf = false := by decide
theorem test_wf_refuses_byte_chk : (Instr.chk .byte 0 (.dn 1)).wf = false := by decide
theorem test_wf_refuses_chk2_postincrement : (Instr.chk2 .word false 0 (.postInc 1)).wf = false := by decide
theorem test_wf_refuses_cmpi_of_immediate : (Instr.cmpi .word 0 (.imm 0)).wf = false := by decide
theorem test_wf_refuses_bit_of_immediate : (Instr.btstReg 0 (.imm 0)).wf = false := by decide
theorem test_wf_refuses_zero_byte_displacement : (Instr.bne (.byte 0)).wf = false := by decide
theorem test_ill_formed_has_no_step :
    exec (.aslMem (.dn 0)) (start 0 0 0) = .refused .noSuchForm := rfl

/-! ### Decoding: words written from the patterns of 30_encoding.md section 5.3 and opcode_table.json -/

theorem test_decode_decimal :
    reads 0b1100_010_1_0000_0_001 (.abcd .data 2 1) ∧ reads 0b1100_010_1_0000_1_001 (.abcd .predec 2 1) ∧
    reads 0b1000_011_1_0000_0_100 (.sbcd .data 3 4) ∧ reads 0b1000_011_1_0000_1_100 (.sbcd .predec 3 4) ∧
    reads 0b0100_1000_00_000_101 (.nbcd (.dn 5)) ∧ reads 0b0100_1000_00_010_101 (.nbcd (.ind 5)) := by decide

theorem test_decode_add_sub :
    reads 0b1101_010_001_000_011 (.add .word .toDn 2 (.dn 3)) ∧
    reads 0b1101_010_110_010_011 (.add .long .toEa 2 (.ind 3)) ∧
    reads 0b1001_010_000_000_011 (.sub .byte .toDn 2 (.dn 3)) ∧
    reads 0b1001_010_101_100_011 (.sub .word .toEa 2 (.preDec 3)) ∧
    reads2 0b0000_0110_01_000_001 0x1234 (.addi .word 0x1234 (.dn 1)) ∧
    reads2 0b0000_0100_00_000_001 0x0012 (.subi .byte 0x12 (.dn 1)) ∧
    reads2 0b0000_1100_01_000_001 0x8000 (.cmpi .word 0x8000 (.dn 1)) ∧
    reads 0b0101_011_0_10_000_001 (.addq .long 3 (.dn 1)) ∧ reads 0b0101_000_1_00_000_001 (.subq .byte 0 (.dn 1)) := by
  decide

theorem test_decode_extended :
    reads 0b1101_010_1_00_00_0_001 (.addxB .data 2 1) ∧ reads 0b1101_010_1_01_00_1_001 (.addxW .predec 2 1) ∧
    reads 0xD580 (.addxL .data 2 0) ∧ reads 0x9308 (.subxB .predec 1 0) ∧
    reads 0b1001_010_1_01_00_0_001 (.subxW .data 2 1) ∧ reads 0b1001_010_1_10_00_1_001 (.subxL .predec 2 1) ∧
    reads 0b0100_0100_01_000_010 (.neg .word (.dn 2)) ∧ reads 0b0100_0000_10_011_010 (.negx .long (.postInc 2)) := by
  decide

theorem test_decode_compare :
    reads 0xB001 (.cmpB 0 (.dn 1)) ∧ reads 0xB041 (.cmpW 0 (.dn 1)) ∧ reads 0xB081 (.cmpL 0 (.dn 1)) ∧
    reads 0b1011_010_1_01_001_011 (.cmpm .word 2 3) := by decide

theorem test_decode_logic :
    reads 0b1100_010_000_000_011 (.and .byte .toDn 2 (.dn 3)) ∧ reads 0b1100_010_101_010_011 (.and .word .toEa 2 (.ind 3)) ∧
    reads 0b1000_010_010_000_011 (.or .long .toDn 2 (.dn 3)) ∧ reads 0b1000_010_100_010_011 (.or .byte .toEa 2 (.ind 3)) ∧
    reads 0b1011_010_110_000_011 (.eor .long 2 (.dn 3)) ∧
    reads2 0b0000_0010_01_000_001 0x00FF (.andi .word 0xFF (.dn 1)) ∧
    reads2 0b0000_0000_00_000_001 0x0080 (.ori .byte 0x80 (.dn 1)) ∧
    reads2 0b0000_1010_01_000_001 0xFFFF (.eori .word 0xFFFF (.dn 1)) := by decide

theorem test_decode_move :
    reads 0b0111_011_0_10000001 (.moveq 3 0x81) ∧ reads 0b00_01_010_000_000_011 (.move .byte (.dn 3) (.dn 2)) ∧
    reads 0b00_11_010_011_100_011 (.move .word (.preDec 3) (.postInc 2)) ∧
    reads 0b00_10_010_000_001_011 (.move .long (.an 3) (.dn 2)) ∧
    reads 0b0100_100_010_000_110 (.extW 6) ∧ reads 0b0100_100_011_000_110 (.extL 6) := by decide

theorem test_decode_single_operand :
    reads 0b0100_0010_01_000_001 (.clr .word (.dn 1)) ∧ reads 0b0100_0110_00_000_001 (.not .byte (.dn 1)) ∧
    reads 0b0100_1010_11_000_001 (.tas (.dn 1)) ∧ reads 0b0100_1010_10_000_001 (.tst .long (.dn 1)) := by decide

theorem test_decode_bounds_multiply_divide :
    reads 0b0100_010_11_0_000_001 (.chk .word 2 (.dn 1)) ∧ reads 0b0100_010_10_0_000_001 (.chk .long 2 (.dn 1)) ∧
    reads2 0b0000_0_01_0_11_010_001 0b1_011_1_000_0000_0000 (.chk2 .word true 3 (.ind 1)) ∧
    reads2 0b0000_0_00_0_11_010_001 0b0_011_1_000_0000_0000 (.chk2 .byte false 3 (.ind 1)) ∧
    reads 0b1000_010_111_000_001 (.divs 2 (.dn 1)) ∧ reads 0b1000_010_011_000_001 (.divu 2 (.dn 1)) ∧
    reads 0b1100_010_111_000_001 (.muls .word 2 (.dn 1)) ∧ reads 0b1100_010_011_000_001 (.mulu .word 2 (.dn 1)) := by
  decide

theorem test_decode_bits :
    reads 0b0000_010_100_000_001 (.btstReg 2 (.dn 1)) ∧ reads 0b0000_010_101_000_001 (.bchgReg 2 (.dn 1)) ∧
    reads 0b0000_010_110_000_001 (.bclrReg 2 (.dn 1)) ∧ reads 0b0000_010_111_000_001 (.bsetReg 2 (.dn 1)) ∧
    reads2 0b0000_1000_00_000_001 5 (.btstImm 5 (.dn 1)) ∧ reads2 0b0000_1000_01_000_001 5 (.bchgImm 5 (.dn 1)) ∧
    reads2 0b0000_1000_10_000_001 5 (.bclrImm 5 (.dn 1)) ∧ reads2 0b0000_1000_11_010_001 5 (.bsetImm 5 (.ind 1)) := by
  decide

theorem test_decode_register_shifts :
    reads 0b1110_011_0_00_0_00_101 (.asrReg .byte (.imm 3) 5) ∧ reads 0b1110_011_1_01_1_00_101 (.aslReg .word (.reg 3) 5) ∧
    reads 0b1110_011_0_10_0_01_101 (.lsrReg .long (.imm 3) 5) ∧ reads 0b1110_011_1_00_1_01_101 (.lslReg .byte (.reg 3) 5) ∧
    reads 0b1110_000_0_01_0_10_101 (.roxrReg .word (.imm 0) 5) ∧ reads 0b1110_011_1_10_1_10_101 (.roxlReg .long (.reg 3) 5) ∧
    reads 0b1110_011_0_00_0_11_101 (.rorReg .byte (.imm 3) 5) ∧
    reads 0b1110_011_1_01_1_11_101 (.rolReg .word (.reg 3) 5) := by
  decide

theorem test_decode_memory_shifts :
    reads 0b1110_0_00_0_11_010_001 (.asrMem (.ind 1)) ∧ reads 0b1110_0_00_1_11_010_001 (.aslMem (.ind 1)) ∧
    reads 0b1110_0_01_0_11_010_001 (.lsrMem (.ind 1)) ∧ reads 0b1110_0_01_1_11_010_001 (.lslMem (.ind 1)) ∧
    reads 0b1110_0_10_0_11_010_001 (.roxrMem (.ind 1)) ∧ reads 0b1110_0_10_1_11_010_001 (.roxlMem (.ind 1)) ∧
    reads 0b1110_0_11_0_11_010_001 (.rorMem (.ind 1)) ∧
    reads 0b1110_0_11_1_11_010_001 (.rolMem (.ind 1)) := by decide

theorem test_decode_branches :
    reads 0b0110_0010_00000010 (.bhi (.byte 2)) ∧ reads 0b0110_0011_11111110 (.bls (.byte 0xFE)) ∧
    reads 0b0110_0100_00000010 (.bcc (.byte 2)) ∧ reads 0b0110_0101_00000010 (.bcs (.byte 2)) ∧
    reads 0b0110_0110_00000010 (.bne (.byte 2)) ∧ reads2 0b0110_0111_00000000 0x1234 (.beq (.word 0x1234)) ∧
    reads 0b0110_1000_00000010 (.bvc (.byte 2)) ∧ reads 0b0110_1001_00000010 (.bvs (.byte 2)) ∧
    reads 0b0110_1010_00000010 (.bpl (.byte 2)) ∧ reads 0b0110_1011_00000010 (.bmi (.byte 2)) ∧
    reads 0b0110_1100_00000010 (.bge (.byte 2)) ∧ reads 0b0110_1101_00000010 (.blt (.byte 2)) ∧
    reads 0b0110_1110_00000010 (.bgt (.byte 2)) ∧ reads 0b0110_1111_00000010 (.ble (.byte 2)) := by decide

theorem test_decode_sets :
    reads 0b0101_0000_11_000_001 (.st (.dn 1)) ∧ reads 0b0101_0001_11_000_001 (.sf (.dn 1)) ∧
    reads 0b0101_0010_11_000_001 (.shi (.dn 1)) ∧ reads 0b0101_0011_11_000_001 (.sls (.dn 1)) ∧
    reads 0b0101_0100_11_000_001 (.scc (.dn 1)) ∧ reads 0b0101_0101_11_000_001 (.scs (.dn 1)) ∧
    reads 0b0101_0110_11_000_001 (.sne (.dn 1)) ∧ reads 0b0101_0111_11_000_001 (.seq (.dn 1)) ∧
    reads 0b0101_1000_11_000_001 (.svc (.dn 1)) ∧ reads 0b0101_1001_11_000_001 (.svs (.dn 1)) ∧
    reads 0b0101_1010_11_000_001 (.spl (.dn 1)) ∧ reads 0b0101_1011_11_000_001 (.smi (.dn 1)) ∧
    reads 0b0101_1100_11_000_001 (.sge (.dn 1)) ∧ reads 0b0101_1101_11_000_001 (.slt (.dn 1)) ∧
    reads 0b0101_1110_11_000_001 (.sgt (.dn 1)) ∧ reads 0b0101_1111_11_000_001 (.sle (.dn 1)) := by decide

/-- Rule R47: each mode of the effective address field, in TST.W. -/
theorem test_decode_effective_addresses :
    reads 0b0100_1010_01_001_010 (.tst .word (.an 2)) ∧ reads 0b0100_1010_01_010_010 (.tst .word (.ind 2)) ∧
    reads 0b0100_1010_01_011_010 (.tst .word (.postInc 2)) ∧ reads 0b0100_1010_01_100_010 (.tst .word (.preDec 2)) ∧
    reads2 0b0100_1010_01_101_010 0xFFFE (.tst .word (.disp 2 0xFFFE)) ∧
    reads2 0b0100_1010_01_110_010 0b1_011_1_000_11111110 (.tst .word (.index 2 ⟨true, 3, true, 0xFE⟩)) ∧
    reads2 0b0100_1010_01_111_000 0x8000 (.tst .word (.absW 0x8000)) ∧
    decodeTableWord 48 (0b0100_1010_01_111_001 + 65536 * 0x1234 + 65536 ^ 2 * 0x5678) = some (.tst .word (.absL 0x12345678)) ∧
    reads2 0b0100_1010_01_111_010 0x0010 (.tst .word (.pcDisp 0x10)) ∧
    reads2 0b0100_1010_01_111_011 0b0_011_0_000_00000010 (.tst .word (.pcIndex ⟨false, 3, false, 2⟩)) ∧
    reads2 0b0100_1010_01_111_100 0x8001 (.tst .word (.imm 0x8001)) := by decide

/-- Rule R48: encodings with no rule. -/
theorem test_decode_refuses :
    decodeTableWord 16 0x6002 = none ∧ decodeTableWord 16 0x6102 = none ∧ decodeTableWord 16 0xB0C1 = none ∧
    decodeTableWord 16 0b1101_010_011_000_001 = none ∧ decodeTableWord 16 0b0100_1010_01_111_101 = none ∧
    decodeTableWord 32 (0x4C00 + 65536 * 0x0800) = none := by decide

/-! ### Instructions: vectors of 95_test_vectors.md section 2 -/

theorem test_add :
    gives (.add .byte .toDn 0 (.dn 1)) 0x01 0x7F 0b00000 0x80 0b01010 ∧
    gives (.add .long .toDn 0 (.dn 1)) 0xFFFFFFFF 1 0b01000 0 0b10101 ∧
    gives (.add .byte .toDn 0 (.dn 1)) 0x80 0x5555557F 0b00000 0x555555FF 0b01000 := by decide

theorem test_add_immediate :
    gives (.addi .word 0x7FFF (.dn 0)) 0 1 0b00000 0x8000 0b01010 ∧
    gives (.addq .long 0 (.dn 0)) 0 0xFFFFFFF8 0b00000 0 0b10101 := by decide

theorem test_addx :
    gives (.addxB .data 0 1) 0x00 0xFF 0b10100 0x00 0b10101 ∧ gives (.addxB .data 0 1) 0x00 0x00 0b00000 0x00 0b00000 ∧
    gives (.addxW .data 0 1) 0x8000 0x8000 0b00100 0 0b10111 ∧ gives (.addxW .data 0 1) 0x7FFF 0x8000 0b10100 0 0b10101 ∧
    gives (.addxL .data 0 1) 1 0x7FFFFFFF 0b00100 0x80000000 0b01010 := by decide

theorem test_sub :
    gives (.sub .byte .toDn 0 (.dn 1)) 0x01 0x80 0b00000 0x7F 0b00010 ∧
    gives (.sub .word .toDn 0 (.dn 1)) 0xFFFF 0x7FFF 0b00000 0x8000 0b11011 ∧
    gives (.subi .long 1 (.dn 0)) 0 0 0b00000 0xFFFFFFFF 0b11001 ∧ gives (.subq .byte 0 (.dn 0)) 0 8 0b00000 0 0b00100 := by
  decide

theorem test_subx :
    gives (.subxB .data 0 1) 0x00 0x00 0b10100 0xFF 0b11001 ∧ gives (.subxB .data 0 1) 0x7F 0x80 0b10100 0x00 0b00110 ∧
    gives (.subxW .data 0 1) 5 5 0b00000 0 0b00000 ∧ gives (.subxW .data 0 1) 5 5 0b00100 0 0b00100 ∧
    gives (.subxL .data 0 1) 0xFFFFFFFF 0 0b10100 0 0b10101 := by decide

theorem test_compare :
    gives (.cmpB 0 (.dn 1)) 0x0A 0x05 0b10000 0x05 0b11001 ∧ gives (.cmpW 0 (.dn 1)) 0x0001 0x8000 0b00000 0x8000 0b00010 ∧
    gives (.cmpL 0 (.dn 1)) 0x12345678 0x12345678 0b11011 0x12345678 0b10100 ∧
    gives (.cmpi .byte 0x80 (.dn 0)) 0 0 0b00000 0 0b01011 := by decide

theorem test_neg :
    gives (.neg .byte (.dn 0)) 0 0x80 0b00000 0x80 0b11011 ∧ gives (.neg .byte (.dn 0)) 0 0 0b10000 0 0b00100 ∧
    gives (.negx .byte (.dn 0)) 0 0x80 0b10100 0x7F 0b10001 ∧ gives (.negx .byte (.dn 0)) 0 0 0b00000 0 0b00000 := by
  decide

theorem test_decimal :
    afterXZC (.abcd .data 0 1) 0x58 0x45 0b00100 = some (0x03, flags 0b10001) ∧
    afterXZC (.abcd .data 0 1) 0x49 0x50 0b10100 = some (0x00, flags 0b10101) ∧
    afterXZC (.sbcd .data 0 1) 0x58 0x45 0b00100 = some (0x87, flags 0b10001) ∧
    afterXZC (.sbcd .data 0 1) 0x01 0x10 0b00100 = some (0x09, flags 0b00000) ∧
    afterXZC (.nbcd (.dn 0)) 0 0x25 0b00100 = some (0x75, flags 0b10001) ∧
    afterXZC (.nbcd (.dn 0)) 0 0x99 0b10100 = some (0x00, flags 0b10101) := by decide

/-- Section 2.3: "ABCD 0x0A 0x00 refused (default P_BCD_INVALID)". -/
theorem test_invalid_decimal : exec (.abcd .data 0 1) (start 0x0A 0x00 0) = .refused .invalidDecimal := rfl

theorem test_logic :
    gives (.and .byte .toDn 0 (.dn 1)) 0xF0 0x0F 0b11011 0 0b10100 ∧
    gives (.andi .word 0x8000 (.dn 0)) 0 0xFFFF 0b00011 0x8000 0b01000 ∧
    gives (.or .long .toDn 0 (.dn 1)) 0x80000000 1 0b00101 0x80000001 0b01000 ∧
    gives (.ori .byte 0 (.dn 0)) 0 0 0b11011 0 0b10100 ∧ gives (.eor .byte 1 (.dn 0)) 0xFF 0xFF 0b01000 0 0b00100 ∧
    gives (.eori .word 0xFF (.dn 0)) 0 0xFF00 0b10010 0xFFFF 0b11000 ∧
    gives (.not .word (.dn 0)) 0 0x7FFF 0b00000 0x8000 0b01000 := by decide

theorem test_move :
    gives (.move .word (.dn 1) (.dn 0)) 0x8000 0x12345678 0b10111 0x12348000 0b11000 ∧
    gives (.moveq 0 0xFF) 0 0 0b10011 0xFFFFFFFF 0b11000 ∧ gives (.clr .long (.dn 0)) 0 0x1234 0b11011 0 0b10100 ∧
    gives (.extW 0) 0 0x12340080 0b00011 0x1234FF80 0b01000 ∧ gives (.extL 0) 0 0x12340000 0b11011 0 0b10100 := by
  decide

theorem test_tas_tst :
    gives (.tas (.dn 0)) 0 0x00 0b11011 0x80 0b10100 ∧ gives (.tas (.dn 0)) 0 0x80 0b00111 0x80 0b01000 ∧
    gives (.tst .word (.dn 0)) 0 0x8000 0b10111 0x8000 0b11000 ∧ gives (.tst .long (.dn 0)) 0 0 0b01011 0 0b00100 := by
  decide

theorem test_bits :
    gives (.btstReg 1 (.dn 0)) 0 1 0b11111 1 0b11011 ∧ gives (.btstImm 1 (.dn 0)) 0 1 0b00000 1 0b00100 ∧
    gives (.bchgReg 1 (.dn 0)) 31 0 0b00000 0x80000000 0b00100 ∧
    gives (.bchgImm 31 (.dn 0)) 0 0x80000000 0b11111 0 0b11011 ∧
    gives (.bclrReg 1 (.dn 0)) 3 0xFF 0b10101 0xF7 0b10001 ∧ gives (.bclrImm 3 (.dn 0)) 0 0 0b10001 0 0b10101 ∧
    gives (.bsetImm 35 (.dn 0)) 0 0 0b00000 8 0b00100 ∧
    gives (.bsetReg 1 (.dn 0)) 35 8 0b00100 8 0b00000 := by decide

theorem test_multiply :
    gives (.mulu .word 0 (.dn 1)) 0xFFFF 0xFFFF 0b10011 0xFFFE0001 0b11000 ∧
    gives (.mulu .word 0 (.dn 1)) 0 0x1234 0b00000 0 0b00100 ∧
    gives (.muls .word 0 (.dn 1)) 0xFFFF 1 0b00000 0xFFFFFFFF 0b01000 ∧
    gives (.muls .word 0 (.dn 1)) 0x8000 0x8000 0b00000 0x40000000 0b00000 := by decide

theorem test_divide :
    gives (.divu 0 (.dn 1)) 2 0x00010000 0b00000 0x00008000 0b01000 ∧
    gives (.divu 0 (.dn 1)) 0x10 5 0b00000 0x00050000 0b00100 ∧
    gives (.divs 0 (.dn 1)) 0xFFFE 7 0b00000 0x0001FFFD 0b01000 ∧
    gives (.divs 0 (.dn 1)) 2 0xFFFFFFF9 0b00000 0xFFFFFFFD 0b01000 := by decide

/-- An overflowing division leaves the register, sets V and clears C. -/
theorem test_divide_overflow :
    (match exec (.divs 0 (.dn 1)) (start 0xFFFF 0x80000000 0b10001) with
      | .next t => decide (t.d[0] = 0x80000000 ∧ t.ccr.v = true ∧ t.ccr.c = false ∧ t.ccr.x = true)
      | _ => false) = true ∧
    (match exec (.divu 0 (.dn 1)) (start 1 0xFFFFFFFF 0b00001) with
      | .next t => decide (t.d[0] = 0xFFFFFFFF ∧ t.ccr.v = true ∧ t.ccr.c = false ∧ t.ccr.x = false)
      | _ => false) = true := by decide

theorem test_left_shifts :
    gives (.aslReg .byte (.imm 1) 0) 0 0x40 0b00011 0x80 0b01010 ∧
    gives (.aslReg .byte (.imm 0) 0) 0 0xFF 0b00011 0 0b10111 ∧
    gives (.aslReg .byte (.reg 1) 0) 9 0x01 0b10011 0 0b00110 ∧
    gives (.aslReg .byte (.reg 1) 0) 64 0x80 0b10011 0x80 0b11000 ∧
    gives (.lslReg .byte (.imm 2) 0) 0 0xC0 0b00011 0 0b10101 ∧
    gives (.lslReg .byte (.reg 1) 0) 9 0x01 0b10011 0 0b00100 := by
  decide

/-- `P_SHIFT_COUNT_MAX` 31: a register that holds 33 gives the count 1, and an immediate count stays 8 (log 29). -/
theorem test_shift_count_max :
    let s : State := { start 33 0x81 0 with cfg := { Config.atReset with shiftCountMax := 31 } }
    shiftCount (.reg 1) s = 1 ∧ shiftCount (.imm 0) s = 8 ∧ shiftCount (.reg 1) (start 33 0 0) = 33 ∧
    shiftCount (.reg 1) (start 64 0 0) = 0 := by decide

theorem test_right_shifts :
    gives (.asrReg .byte (.imm 7) 0) 0 0x80 0b10011 0xFF 0b01000 ∧
    gives (.asrReg .byte (.reg 1) 0) 9 0x80 0b00011 0xFF 0b11001 ∧
    gives (.lsrReg .byte (.imm 1) 0) 0 0x81 0b00011 0x40 0b10001 ∧
    gives (.lsrReg .byte (.reg 1) 0) 9 0x80 0b10011 0 0b00100 := by
  decide

theorem test_rotates :
    gives (.rolReg .byte (.imm 1) 0) 0 0x81 0b00011 0x03 0b00001 ∧
    gives (.rolReg .byte (.reg 1) 0) 0 0x81 0b10011 0x81 0b11000 ∧
    gives (.rorReg .byte (.imm 1) 0) 0 0x01 0b00011 0x80 0b01001 ∧
    gives (.rorReg .long (.imm 1) 0) 0 1 0b00011 0x80000000 0b01001 := by
  decide

theorem test_extended_rotates :
    gives (.roxlReg .byte (.imm 0) 0) 0 0x01 0b10011 0x80 0b11001 ∧
    gives (.roxlReg .byte (.reg 1) 0) 0 0x55 0b10011 0x55 0b10001 ∧
    gives (.roxrReg .byte (.imm 1) 0) 0 0x00 0b10011 0x80 0b01000 ∧
    gives (.roxrReg .byte (.reg 1) 0) 9 0x81 0b10011 0x81 0b11001 := by
  decide

/-- A vector joined to the tests (section 2.7): after CMP.B with S = 0xFF, D = 0x7F the conditions LS, CS, NE, VS, MI, GE
and GT hold (T always does), and no other. -/
theorem test_conditions :
    (∀ c : Cond, condHolds c (flags 0b01011) = true ↔ c ∈ [Cond.t, .ls, .cs, .ne, .vs, .mi, .ge, .gt]) := by
  intro c; cases c <;> decide

theorem test_branch :
    (match exec (.bhi (.byte 2)) (start 0 0 0b10000) with | .next t => t.pc == 0x8004 | _ => false) = true ∧
    (match exec (.bhi (.byte 2)) (start 0 0 0b11001) with | .next t => t.pc == 0x8002 | _ => false) = true ∧
    (match exec (.ble (.word 0xFFFC)) (start 0 0 0b00100) with | .next t => t.pc == 0x7FFE | _ => false) = true ∧
    (match exec (.bne (.word 0xFFFC)) (start 0 0 0b00100) with | .next t => t.pc == 0x8004 | _ => false) = true := by
  decide

theorem test_set :
    gives (.sge (.dn 0)) 0 0x12345678 0b01010 0x123456FF 0b01010 ∧
    gives (.slt (.dn 0)) 0 0x12345678 0b01010 0x12345600 0b01010 := by
  decide

/-! ### Memory: program P2 of 95_test_vectors.md section 3, its second instruction, and the stops of 20_memory.md -/

/-- The memory of P2 after its first instruction: 0x1000 holds 00 01 00, 0x2000 holds 01 00 00. -/
def p2 : State :=
  { start 0 0 0b00100 with
    a := #v[0x1002, 0x2002, 0, 0, 0, 0, 0, 0]
    mem := [(0x1001, 1), (0x2000, 1), (0x8000, 0x93), (0x8001, 0x08)] }

theorem test_subx_memory :
    (match step p2 with
      | .next t => decide (t.a[0] = 0x1001 ∧ t.a[1] = 0x2001 ∧ t.mem.read 0x2001 = 0xFF ∧ t.mem.read 0x2000 = 1 ∧
          t.mem.read 0x1001 = 1 ∧ t.ccr = flags 0b11001 ∧ t.pc = 0x8002)
      | _ => false) = true := by decide

/-- R31: the byte at the lowest address is the most significant. -/
theorem test_byte_order :
    (memWrite .long 0x1000 0x12345678 (start 0 0 0)).mem = [(0x1000, 0x12), (0x1001, 0x34), (0x1002, 0x56), (0x1003, 0x78)] ∧
    memRead .word 0x1002 (memWrite .long 0x1000 0x12345678 (start 0 0 0)) = 0x5678 := by decide

theorem test_memory_form_stays_canonical :
    Memory.write (Memory.write [(4, 1)] 2 7) 4 0 = [(2, 7)] ∧ Memory.wf [(2, 7), (4, 1)] = true ∧
    Memory.wf [(4, 1), (2, 7)] = false ∧ Memory.wf [(2, 0)] = false := by decide

theorem test_word_placed_is_fetched_and_run :
    (match step (State.reset.withFetchWord 16 0b0111_011_0_10000001) with
      | .next t => decide (t.d[3] = 0xFFFFFF81 ∧ t.pc = 2)
      | _ => false) = true := by decide

theorem test_reset_memory_is_canonical : State.reset.mem.wf = true := by decide

/-- CMPM.W of section 2.2: S = 0xFFFF at (A0)+, D = 0x0001 at (A1)+. -/
theorem test_cmpm :
    (match exec (.cmpm .word 1 0) { start 0 0 0 with mem := [(0x1000, 0xFF), (0x1001, 0xFF), (0x2001, 1)] } with
      | .next t => decide (t.ccr = flags 0b00001 ∧ t.a[0] = 0x1002 ∧ t.a[1] = 0x2002)
      | _ => false) = true := by decide

/-- Rule R47: "memory at A[n], then A[n] incremented by the operand size in bytes", A7 and Byte included; the access first. -/
theorem test_postincrement :
    (eaAfter .byte (.postInc 7) (start 0 0 0)).a[7] = 0x3001 ∧
    eaReadStop .word (.postInc 0) 0 { start 0 0 0 with a := Vector.replicate 8 0xFFFFFFFF } =
      some (.refused (.misaligned 0xFFFFFFFF)) ∧
    eaReadStop .byte (.postInc 0) 0 { State.reset with a := Vector.replicate 8 0xFFFFFFFF } =
      some (.refused .addressWrap) := by decide

/-- MOVE.W (A0)+,-(A1): the word moved, both registers moved by two. -/
theorem test_move_memory :
    (match exec (.move .word (.postInc 0) (.preDec 1)) { start 0 0 0b11011 with mem := [(0x1000, 0x80)] } with
      | .next t => decide (t.mem = [(0x1000, 0x80), (0x1FFE, 0x80)] ∧ t.ccr = flags 0b11000 ∧ t.a[0] = 0x1002 ∧
          t.a[1] = 0x1FFE)
      | _ => false) = true := by decide

/-- CHK of section 2.5: within the bound, at it, and beyond it on both sides. -/
theorem test_chk :
    completes (.chk .word 0 (.dn 1)) (start 0x0A 0x00 0) = true ∧
    completes (.chk .word 0 (.dn 1)) (start 0x0A 0x0A 0) = true ∧
    completes (.chk .word 0 (.dn 1)) (start 0x0A 0x0B 0) = false ∧
    completes (.chk .word 0 (.dn 1)) (start 0x0A 0xFFFF 0) = false := by decide

/-- CHK2.B of section 2.5, the bounds at (A0). -/
def chk2At (lower upper : Byte) (r : Long) : State :=
  { start 0 r 0 with mem := Memory.writeBytes [] 0x1000 [lower, upper] }

theorem test_chk2 :
    (match exec (.chk2 .byte false 0 (.ind 0)) (chk2At 0x00 0x0A 0x0A) with
      | .next t => t.ccr.z && !t.ccr.c | _ => false) = true ∧
    (match exec (.chk2 .byte false 0 (.ind 0)) (chk2At 0xF0 0x10 0x00) with
      | .next t => !t.ccr.z && !t.ccr.c | _ => false) = true ∧
    completes (.chk2 .byte false 0 (.ind 0)) (chk2At 0x00 0x0A 0x0B) = false ∧
    completes (.chk2 .byte false 0 (.ind 0)) (chk2At 0xF0 0x10 0x80) = false := by decide

/-- ASL.W of section 2.6, in memory. -/
theorem test_memory_shift :
    (match exec (.aslMem (.ind 0)) { start 0 0 0b00011 with mem := [(0x1000, 0x40)] } with
      | .next t => decide (t.mem = [(0x1000, 0x80)] ∧ t.ccr = flags 0b01010)
      | _ => false) = true := by decide

/-! ### Witnesses: states and operands that meet the hypotheses of the obligations -/

/-- Memory with the words of an instruction at the pc, in the program text. -/
def holding (i : Instr) (s : State) : State :=
  { s with mem := s.mem.writeBytes s.pc.toNat (bytesOfWords (encode i)) }

/-- An instruction's words can end at the top of the address space but one. -/
def high : State := { start 3 5 0b10101 with pc := 0xFFFFFFFC }

theorem witness_StepKeepsTheInvariant :
    (holding (.clr .long (.ind 0)) (start 1 2 0)).inv = true ∧
    steps (holding (.clr .long (.ind 0)) (start 1 2 0)) = true := by
  decide

theorem witness_TextIsNeverChanged :
    steps (holding (.clr .byte (.absW 0x7FFF)) (start 1 2 0)) = true ∧ inRegion (start 1 2 0).cfg.text 0x8000 = true ∧
    inRegion (start 1 2 0).cfg.text 0x80FF = true := by decide

theorem witness_RegisterFrame :
    completes (.move .word (.postInc 0) (.dn 1)) (start 1 2 0) = true ∧
    (Instr.move .word (.postInc 0) (.dn 1)).destD ≠ some 0 ∧
    (1 : RegNum) ∉ (Instr.move .word (.postInc 0) (.dn 1)).movedA := by decide

theorem witness_MemoryFrame :
    completes (.addxW .predec 1 0) (start 1 2 0) = true ∧ (Instr.addxW .predec 1 0).stored (start 1 2 0) = some (0x1FFE, 2) ∧
    completes (.tst .word (.ind 0)) (start 1 2 0) = true ∧ (Instr.tst .word (.ind 0)).stored (start 1 2 0) = none := by
  decide

theorem witness_FlagFrame :
    completes (.btstReg 1 (.dn 0)) (start 1 2 0b11111) = true ∧ ((Instr.btstReg 1 (.dn 0)).affects (start 1 2 0)).x = false ∧
    ((Instr.btstReg 1 (.dn 0)).affects (start 1 2 0)).n = false ∧
    ((Instr.btstReg 1 (.dn 0)).affects (start 1 2 0)).v = false ∧
    ((Instr.btstReg 1 (.dn 0)).affects (start 1 2 0)).c = false ∧ completes (.sne (.dn 0)) (start 1 2 0b11111) = true ∧
    ((Instr.sne (.dn 0)).affects (start 1 2 0)).z = false := by decide

theorem witness_DecodeEncode :
    (Instr.move .long (.imm 0xFFFFFFFF) (.absL 0xFFFFFFFF)).wf = true ∧
    (Instr.addq .byte 0 (.index 7 ⟨true, 7, true, 0xFF⟩)).wf = true ∧
    (Instr.beq (.byte 0xFF)).wf = true ∧ encode (.beq (.byte 0xFF)) ≠ [] ∧
    encode (.move .long (.imm 0xFFFFFFFF) (.absL 0xFFFFFFFF)) ≠ [] := by decide

theorem witness_StepExecutesTheDecoded :
    (holding (.moveq 0 1) (start 1 2 0)).pc.toNat % 2 = 0 ∧
    decode (fetchWords maxWords (holding (.moveq 0 1) (start 1 2 0)).pc.toNat (holding (.moveq 0 1) (start 1 2 0))) =
      .ok (.moveq 0 1, [0, 0, 0, 0]) := ⟨by decide, rfl⟩

/-- The longest instruction, its last word at the top of the memory map. -/
theorem witness_StepExecutesTheStored :
    let i : Instr := .move .long (.imm 0x12345678) (.absL 0x9ABCDEF0)
    let s := holding i { start 1 2 0 with pc := 0xFFF6 }
    i.wf = true ∧ encode i ≠ [] ∧ s.pc.toNat % 2 = 0 ∧ (encode i).length = 5 ∧
    ∀ (k : Nat) (h : k < (encode i).length),
      allocated s.cfg (s.pc.toNat + 2 * k) = true ∧ allocated s.cfg (s.pc.toNat + 2 * k + 1) = true ∧
        s.mem.read (s.pc.toNat + 2 * k) ++ s.mem.read (s.pc.toNat + 2 * k + 1) = (encode i)[k] := by decide

theorem witness_UncoveredWordsAreRefused :
    (0x60FE : Word).toNat / 256 = 0x60 ∧ (0x6100 : Word).toNat / 256 = 0x61 ∧
    ((0xB0C0 : Word).toNat / 4096 = 11 ∧ (0xB0C0 : Word).toNat / 64 % 4 = 3) ∧
    ((0xBFFF : Word).toNat / 4096 = 11 ∧ (0xBFFF : Word).toNat / 64 % 4 = 3) ∧
    ((0xD0C0 : Word).toNat / 4096 = 13 ∧ (0xD0C0 : Word).toNat / 64 % 4 = 3) ∧
    ((0x9FFF : Word).toNat / 4096 = 9 ∧ (0x9FFF : Word).toNat / 64 % 4 = 3) ∧ (0xA000 : Word).toNat / 4096 = 10 ∧
    (0xFFFF : Word).toNat / 4096 = 15 ∧ (0x4C00 : Word).toNat / 64 = 0x130 ∧ (0x4C3F : Word).toNat / 64 = 0x130 := by decide

theorem witness_IllFormedIsRefused : (Instr.bsetImm 1 (.an 0)).wf = false := by decide

theorem witness_PairedTestsAreComplements : (0 : Nat) < 8 ∧ (7 : Nat) < 8 := by decide

theorem witness_TestsAfterACompare :
    completes (cmpOf .byte 0 (.dn 1)) (start 0xFF 0x7F 0) = true ∧ completes (.cmpi .word 1 (.ind 0)) (start 1 2 0) = true ∧
    completes (.cmpm .long 1 0) (start 1 2 0) = true ∧ completes (.cmpm .long 1 1) (start 1 2 0) = true ∧
    completes (.sub .word .toDn 0 (.dn 1)) (start 1 2 0) = true ∧
    completes (.sub .long .toEa 0 (.preDec 1)) (start 1 2 0) = true ∧
    completes (.subi .byte 0x80 (.dn 0)) (start 1 2 0) = true ∧ completes (.subq .word 0 (.dn 0)) (start 1 2 0) = true := by
  decide

theorem witness_BoundsCarryHasNoSign : ((7 : Byte) = 7 ∨ (7 : Byte) = 9) ∧
    ((0x80 : Byte) = 0x7F ∨ (0x80 : Byte) = 0x80) := by decide

theorem witness_PartialRegisterWrite : Size.byte.bits ≤ 8 ∧ Size.word.bits ≤ 31 ∧ Size.long.bits ≤ 32 := by decide

/-- The highest operand of each size, in a map of the whole space. -/
theorem witness_StoredOperandReadsBack :
    State.reset.mem.wf = true ∧ accessStop .byte 0xFFFFFFFF State.reset = none ∧
    accessStop .word 0xFFFFFFFE State.reset = none ∧
    accessStop .long 0xFFFFFFFC State.reset = none ∧ accessStop .long 0 State.reset = none ∧
    3 < Size.long.bytes := by decide

theorem witness_AddResults :
    Readable (.add .word .toDn 0 (.dn 1)) .word (.dn 1) 0 high ∧ Readable (.add .long .toDn 0 (.an 1)) .long (.an 1) 0 high ∧
    Replaceable (.add .word .toEa 0 (.postInc 1)) .word (.postInc 1) 0 (start 1 2 0) ∧
    Replaceable (.addi .long 5 (.dn 1)) .long (.dn 1) 2 (start 1 2 0) ∧
    Replaceable (.addq .byte 0 (.dn 1)) .byte (.dn 1) 0 high := by
  decide

theorem witness_SubResults :
    Readable (.sub .word .toDn 0 (.pcDisp 8)) .word (.pcDisp 8) 0 (start 1 2 0) ∧
    Replaceable (.sub .byte .toEa 0 (.preDec 1)) .byte (.preDec 1) 0 (start 1 2 0) ∧
    Replaceable (.subi .byte 0xFF (.dn 1)) .byte (.dn 1) 1 (start 1 2 0) ∧
    Replaceable (.subq .long 7 (.dn 1)) .long (.dn 1) 0 high := by
  decide

/-- For AddxResults, SubxResults, DecimalInstructions, SignExtensions, LeftShifts, RightShifts, Rotates and
RotatesThroughExtend: what a register form, one word long, asks for. Its word ends in the address space. -/
theorem witness_register_form : high.fits 1 ∧ (start 1 2 0).fits 1 ∧
    ¬ State.fits { high with pc := 0xFFFFFFFE } 1 := by decide

/-- For AddxResults, SubxResults and DecimalInstructions: the predecrement form of each size, with the source register at the lowest address it can be decremented from, with the
destination register there, and with one register for both. -/
theorem witness_predecrement_form :
    let ready (sz : Size) (dst src : RegNum) (s : State) : Prop :=
      let k := BitVec.ofNat 32 sz.bytes
      let a1 := s.a.set src (s.a[src] - k)
      let a2 := a1.set dst (a1[dst] - k)
      ¬ (sz = .byte ∧ (src = 7 ∨ dst = 7)) ∧ sz.bytes ≤ s.a[src].toNat ∧ sz.bytes ≤ a1[dst].toNat ∧
        accessStop sz a1[src] s = none ∧ storeStop sz a2[dst] s = none ∧ s.fits 1
    ready .byte 1 0 { start 1 2 0 with a := #v[1, 1, 0, 0, 0, 0, 0, 0] } ∧
    ready .word 1 0 { start 1 2 0 with a := #v[2, 2, 0, 0, 0, 0, 0, 0] } ∧
    ready .long 1 1 { start 1 2 0 with a := #v[0, 8, 0, 0, 0, 0, 0, 0] } ∧ ready .word 7 7 (start 1 2 0) := by decide

theorem witness_CompareResults :
    Readable (cmpOf .byte 0 (.dn 1)) .byte (.dn 1) 0 high ∧
    Readable (cmpOf .word 0 (.postInc 1)) .word (.postInc 1) 0 (start 1 2 0) ∧
    Readable (cmpOf .long 0 (.imm 0xFFFFFFFF)) .long (.imm 0xFFFFFFFF) 0 (start 1 2 0) := by decide

theorem witness_CompareImmediateAndMemory :
    let ready (sz : Size) (dst src : RegNum) (s : State) : Prop :=
      let a1 := s.a.set src (s.a[src] + BitVec.ofNat 32 sz.bytes)
      s.a[src].toNat + sz.bytes < 2 ^ 32 ∧ a1[dst].toNat + sz.bytes < 2 ^ 32 ∧
        accessStop sz s.a[src] s = none ∧ accessStop sz a1[dst] s = none ∧ s.fits 1
    Readable (.cmpi .long 9 (.ind 0)) .long (.ind 0) 2 (start 1 2 0) ∧ ready .word 1 0 (start 1 2 0) ∧
    ready .byte 7 7 (start 1 2 0) ∧
    ready .byte 1 0 { State.reset with a := #v[0xFFFFFFFE, 0xFFFFFFFE, 0, 0, 0, 0, 0, 0] } := by decide

theorem witness_NegateResults :
    Replaceable (.neg .byte (.dn 1)) .byte (.dn 1) 0 high ∧
    Replaceable (.negx .long (.disp 0 0xFFFC)) .long (.disp 0 0xFFFC) 0 (start 1 2 0) := by
  decide

/-- For AddxChainAddsNumbers and SubxChainSubtractsNumbers: two registers to two, and the empty chain at the highest pc. -/
theorem witness_chain :
    let ps : List (RegNum × RegNum) := [(3, 1), (2, 0)]
    (ps.map Prod.fst).Nodup ∧ (∀ p ∈ ps, p.2 ∉ ps.map Prod.fst) ∧ (start 1 2 0).fits ps.length ∧
      State.fits { high with pc := 0xFFFFFFFA } ps.length ∧ State.fits { high with pc := 0xFFFFFFFF } 0 := by decide

theorem witness_DecimalArithmetic : bcdValid 0x00 = true ∧ bcdValid 0x99 = true ∧ bcdValid 0x45 = true := by decide

/-- Packed decimal operands in registers and in memory (zeros), and the parameter free. -/
theorem witness_DecimalInstructions :
    let free : State := { start 0x0A 2 0 with cfg := { (start 0 0 0).cfg with bcdInvalid := .free } }
    Replaceable (.nbcd (.dn 1)) .byte (.dn 1) 0 high ∧
    Replaceable (.nbcd (.ind 1)) .byte (.ind 1) 0 (start 1 2 0) ∧ bcdValid (eaRead .byte (.ind 1) 0 (start 1 2 0)) = true ∧
    bcdValid (lowPart .byte (start 0x99 2 0).d[1]) = true ∧ bcdValid (lowPart .byte (start 0x99 2 0).d[0]) = true ∧
    bcdValid (memRead .byte ((start 1 2 0).a[0] - 1) (start 1 2 0)) = true ∧
    bcdValid (memRead .byte ((start 1 2 0).a[1] - 1) (start 1 2 0)) = true ∧
    free.cfg.bcdInvalid = .free ∧ bcdValid (lowPart .byte free.d[1]) = false ∧ free.fits 1 := by decide

theorem witness_InvalidDecimalIsRefusedOrFree :
    let s : State := { start 0x0A 2 0 with mem := [(0x0FFF, 0xA0), (0x2000, 0x9A)] }
    s.cfg.bcdInvalid = .refuse ∧ bcdValid (lowPart .byte s.d[1]) = false ∧
    eaReadStop .byte (.preDec 0) 0 s = none ∧ eaReadStop .byte (.preDec 1) 0 (eaAfter .byte (.preDec 0) s) = none ∧
    bcdValid (eaRead .byte (.preDec 0) 0 s) = false ∧ Readable (.nbcd (.ind 1)) .byte (.ind 1) 0 s ∧
    bcdValid (eaRead .byte (.ind 1) 0 s) = false ∧ bcdValid 0x0A = false ∧ bcdValid 0xA0 = false := by decide

theorem witness_LogicResults :
    Readable (.and .word .toDn 0 (.dn 1)) .word (.dn 1) 0 high ∧
    Replaceable (.and .word .toEa 0 (.ind 1)) .word (.ind 1) 0 (start 1 2 0) ∧
    Readable (.or .long .toDn 0 (.imm 5)) .long (.imm 5) 0 (start 1 2 0) ∧
    Replaceable (.or .byte .toEa 0 (.absW 4)) .byte (.absW 4) 0 (start 1 2 0) ∧
    Replaceable (.eor .word 0 (.dn 1)) .word (.dn 1) 0 high ∧
    Replaceable (.andi .word 0xFFFF (.dn 1)) .word (.dn 1) 1 (start 1 2 0) ∧
    Replaceable (.ori .byte 0xFF (.dn 1)) .byte (.dn 1) 1 (start 1 2 0) ∧
    Replaceable (.eori .long 0xFFFFFFFF (.ind 1)) .long (.ind 1) 2 (start 1 2 0) := by decide

theorem witness_MoveResult :
    let ready (sz : Size) (src dst : Ea) (s : State) : Prop :=
      (Instr.move sz src dst).wf = true ∧ eaReadStop sz src 0 s = none ∧
        eaWriteStop sz dst (src.extWords sz) (eaAfter sz src s) = none ∧ s.fits (1 + src.extWords sz + dst.extWords sz)
    ready .word (.postInc 0) (.preDec 0) (start 1 2 0) ∧ ready .long (.imm 7) (.absL 0x7FFC) (start 1 2 0) ∧
    ready .byte (.dn 0) (.dn 1) high := by decide

theorem witness_SingleOperandLogic :
    Storable (.clr .long (.ind 1)) .long (.ind 1) (start 1 2 0) ∧ Replaceable (.not .byte (.dn 1)) .byte (.dn 1) 0 high ∧
    Replaceable (.tas (.ind 1)) .byte (.ind 1) 0 (start 1 2 0) ∧
    Readable (.tst .word (.an 1)) .word (.an 1) 0 high := by decide

/-- The register at zero, at the bound, and the bound at zero. -/
theorem witness_ChkInBounds :
    let ready (sz : Size) (s : State) : Prop :=
      Readable (.chk sz 0 (.dn 1)) sz (.dn 1) 0 s ∧ 0 ≤ (lowPart sz s.d[0]).toInt ∧
        (lowPart sz s.d[0]).toInt ≤ (eaRead sz (.dn 1) 0 s).toInt
    ready .word (start 0x0A 0 0) ∧ ready .word (start 0x0A 0x0A 0) ∧ ready .word (start 0 0 0) ∧
    ready .long (start 0x7FFFFFFF 0x7FFFFFFF 0) := by
  decide

/-- What CHK2 of (A0) asks for. -/
abbrev BoundsReadable (sz : Size) (s : State) : Prop :=
  s.cfg.hasChk2 = true ∧ eaStop sz (.ind 0) (s.extAddr 1) s = none ∧ accessStop sz (chk2Addr sz (.ind 0) s) s = none ∧
    (chk2Addr sz (.ind 0) s).toNat + sz.bytes < 2 ^ 32 ∧ accessStop sz (chk2UpperAddr sz (.ind 0) s) s = none ∧ s.fits 2

/-- A data register at the lower and at the upper bound, bounds around the wrap, and an address register at the upper bound. -/
theorem witness_Chk2InBounds :
    let inside (lower upper r : Nat) : Prop := (lower ≤ r ∧ r ≤ upper) ∨ (upper < lower ∧ (r ≤ upper ∨ lower ≤ r))
    let bounds (s : State) (r : Nat) : Prop :=
      inside (memRead .byte (chk2Addr .byte (.ind 0) s) s).toNat (memRead .byte (chk2UpperAddr .byte (.ind 0) s) s).toNat r
    (Instr.chk2 .byte false 0 (.ind 0)).wf = true ∧ (Instr.chk2 .word true 1 (.ind 0)).wf = true ∧
    BoundsReadable .byte (chk2At 0 0x0A 0) ∧ bounds (chk2At 0 0x0A 0) 0 ∧ bounds (chk2At 0 0x0A 0x0A) 0x0A ∧
    bounds (chk2At 0xF0 0x10 0x10) 0x10 ∧ bounds (chk2At 0xF0 0x10 0xF0) 0xF0 ∧
    BoundsReadable .word { chk2At 0 0 0 with mem := [(0x1001, 1), (0x1002, 0x20)] } ∧
    inside 1 0x2000 0x2000 := by decide

/-- CHK just below zero and just above the bound; CHK2 just outside the bounds and just between bounds around the wrap. -/
theorem witness_OutOfBoundsIsRefused :
    let R (s : State) : Word := lowPart .word s.d[0]
    let UB (s : State) : Word := eaRead .word (.dn 1) 0 s
    let outside (R LB UB : Byte) : Prop :=
      (LB.toInt ≤ UB.toInt ∧ (R.toInt < LB.toInt ∨ UB.toInt < R.toInt)) ∨ (UB.toInt < R.toInt ∧ R.toInt < LB.toInt)
    Readable (.chk .word 0 (.dn 1)) .word (.dn 1) 0 (start 0x0A 0xFFFF 0) ∧ (R (start 0x0A 0xFFFF 0)).toInt < 0 ∧
    (UB (start 0x0A 0x0B 0)).toInt < (R (start 0x0A 0x0B 0)).toInt ∧ (Ea.ind 0).admitsControl = true ∧
    BoundsReadable .byte (chk2At 0 0x0A 0x0B) ∧ outside 0x0B 0 0x0A ∧ outside 0xFF 0 0x0A ∧
    outside 0x11 0x40 0x10 ∧ (0xFF : Byte).toInt < 0 ∧ 0 ≤ (0x0B : Byte).toInt ∧
    (0x0A : Byte).toInt < (0x0B : Byte).toInt := by decide

/-- Quotients 32767 and -32768, and 32768 that overflows. -/
theorem witness_SignedDivide :
    let ready (S D : Long) : Prop :=
      Readable (.divs 0 (.dn 1)) .word (.dn 1) 0 (start S D 0) ∧ eaRead .word (.dn 1) 0 (start S D 0) ≠ (0 : Word)
    ready 1 0x7FFF ∧ ready 1 0xFFFF8000 ∧ ready 1 0x8000 ∧ ready 0xFFFF 0x80000000 ∧
    (0x7FFF : Long).toInt = 32767 * (1 : Word).toInt + 0 ∧ fitsSigned 16 32767 = true ∧
    (0xFFFF8000 : Long).toInt = -32768 * (1 : Word).toInt + 0 ∧ fitsSigned 16 (-32768) = true ∧
    (0x8000 : Long).toInt = 32768 * (1 : Word).toInt + 0 ∧ fitsSigned 16 32768 = false := by decide

/-- Quotients 65535, and 65536 that overflows. -/
theorem witness_UnsignedDivide :
    let ready (S D : Long) : Prop :=
      Readable (.divu 0 (.dn 1)) .word (.dn 1) 0 (start S D 0) ∧ eaRead .word (.dn 1) 0 (start S D 0) ≠ (0 : Word)
    ready 1 0xFFFF ∧ ready 1 0x10000 ∧ ready 0xFFFF 0xFFFFFFFF ∧ (0xFFFF : Long).toNat = 65535 * (1 : Word).toNat + 0 ∧
    (0x10000 : Long).toNat = 65536 * (1 : Word).toNat + 0 := by decide

theorem witness_MultiplyWords :
    Readable (.muls .word 0 (.dn 1)) .word (.dn 1) 0 high ∧
    Readable (.mulu .word 0 (.imm 0xFFFF)) .word (.imm 0xFFFF) 0 (start 1 2 0) := by
  decide

theorem witness_MultiplyLongs :
    (start 1 2 0).cfg.longMultiply = true ∧ Readable (.muls .long 0 (.dn 1)) .long (.dn 1) 1 (start 1 2 0) ∧
    Readable (.mulu .long 0 (.imm 0xFFFFFFFF)) .long (.imm 0xFFFFFFFF) 1 (start 1 2 0) := by decide

theorem witness_ZeroDivisorAndAbsentForms :
    eaReadStop .word (.dn 1) 0 (start 0x10000 5 0) = none ∧ eaRead .word (.dn 1) 0 (start 0x10000 5 0) = (0 : Word) ∧
    (Ea.dn 1).admitsData .word = true ∧ State.reset.cfg.longMultiply = false ∧
    { Config.atReset with hasChk2 := false }.hasChk2 = false := by
  decide

theorem witness_BitTest :
    Readable (.btstReg 1 (.dn 0)) .long (.dn 0) 0 high ∧
    Readable (.btstImm 7 (.pcDisp 0)) .byte (.pcDisp 0) 1 (start 1 2 0) := by
  decide

theorem witness_BitChange :
    Replaceable (.bchgReg 1 (.dn 0)) .long (.dn 0) 0 high ∧
    Replaceable (.bchgImm 7 (.ind 0)) .byte (.ind 0) 1 (start 1 2 0) ∧
    Replaceable (.bclrReg 1 (.ind 0)) .byte (.ind 0) 0 (start 1 2 0) ∧
    Replaceable (.bclrImm 31 (.dn 0)) .long (.dn 0) 1 (start 1 2 0) ∧
    Replaceable (.bsetReg 1 (.dn 0)) .long (.dn 0) 0 high ∧
    Replaceable (.bsetImm 0 (.postInc 0)) .byte (.postInc 0) 1 (start 1 2 0) := by
  decide

theorem witness_MemoryShifts :
    Replaceable (.aslMem (.ind 0)) .word (.ind 0) 0 (start 1 2 0) ∧
    Replaceable (.lslMem (.ind 0)) .word (.ind 0) 0 (start 1 2 0) ∧
    Replaceable (.asrMem (.ind 0)) .word (.ind 0) 0 (start 1 2 0) ∧
    Replaceable (.lsrMem (.ind 0)) .word (.ind 0) 0 (start 1 2 0) ∧
    Replaceable (.rolMem (.ind 0)) .word (.ind 0) 0 (start 1 2 0) ∧
    Replaceable (.rorMem (.ind 0)) .word (.ind 0) 0 (start 1 2 0) ∧
    Replaceable (.roxlMem (.ind 0)) .word (.ind 0) 0 (start 1 2 0) ∧
    Replaceable (.roxrMem (.ind 0)) .word (.ind 0) 0 (start 1 2 0) := by
  decide

/-- A branch taken to an even target and one not taken, with each displacement. The condition codes decide which of the two
a test meets, so each of the fourteen branches is met by one state or the other. -/
theorem witness_Branches :
    (Instr.beq (.byte 0xFE)).wf = true ∧ (Instr.ble (.word 0)).wf = true ∧
    (branchTarget (.byte 0xFE) (start 1 2 0)).toNat % 2 = 0 ∧
    (branchTarget (.word 0) (start 1 2 0)).toNat % 2 = 0 ∧ high.fits (1 + (Disp.byte 0xFE).extWords) ∧
    (start 1 2 0).fits (1 + (Disp.word 0).extWords) ∧
    (∀ c : Cond, c ≠ .t → c ≠ .f → ∃ f g : BitVec 5, condHolds c (flags f) = true ∧ condHolds c (flags g) = false) := by
  refine ⟨by decide, by decide, by decide, by decide, by decide, by decide, ?_⟩
  intro c ht hf
  cases c
  · exact absurd rfl ht
  · exact absurd rfl hf
  · exact ⟨0, 1, rfl, rfl⟩
  · exact ⟨1, 0, rfl, rfl⟩
  · exact ⟨0, 1, rfl, rfl⟩
  · exact ⟨1, 0, rfl, rfl⟩
  · exact ⟨0, 4, rfl, rfl⟩
  · exact ⟨4, 0, rfl, rfl⟩
  · exact ⟨0, 2, rfl, rfl⟩
  · exact ⟨2, 0, rfl, rfl⟩
  · exact ⟨0, 8, rfl, rfl⟩
  · exact ⟨8, 0, rfl, rfl⟩
  · exact ⟨0, 8, rfl, rfl⟩
  · exact ⟨8, 0, rfl, rfl⟩
  · exact ⟨0, 4, rfl, rfl⟩
  · exact ⟨4, 0, rfl, rfl⟩

theorem witness_Sets :
    Storable (.st (.dn 0)) .byte (.dn 0) high ∧
    Storable (.sle (.postInc 0)) .byte (.postInc 0) (start 1 2 0) := by decide

/-- A misaligned access; an access whose last byte alone is outside the map; a store whose last byte alone is in the text;
each through an instruction of each list; and a store that completes. -/
theorem witness_AccessStops :
    let at_ (addr : Long) : State := { start 1 2 0 with a := #v[addr, addr, 0, 0, 0, 0, 0, 0] }
    let misaligned (sz : Size) (s : State) : Prop := sz ≠ .byte ∧ s.a[0].toNat % 2 = 1 ∧ s.cfg.misaligned = .refuse
    eaStop .long (.ind 0) ((at_ 0x1001).extAddr 0) (at_ 0x1001) = none ∧
    eaLoc .long (.ind 0) ((at_ 0x1001).extAddr 0) (at_ 0x1001) = .mem 0x1001 ∧
    misaligned .word (at_ 0x1001) ∧ ¬ misaligned .long (at_ 0xFFFE) ∧ allocated (at_ 0).cfg (0xFFFE + 2) = false ∧
    ¬ misaligned .long (at_ 0x7FFE) ∧ (∀ k, k < Size.long.bytes → allocated (at_ 0x7FFE).cfg (0x7FFE + k) = true) ∧
    inRegion (at_ 0).cfg.text (0x7FFE + 2) = true ∧ ¬ misaligned .byte (at_ 0x1001) ∧
    (Instr.addi .long 5 (.ind 0)).wf = true ∧ eaReadStop .long (.ind 0) 2 (at_ 0xFFFE) = some (.fault (.outsideMap 0xFFFE)) ∧
    eaReadStop .long (.ind 0) 2 (at_ 0x7FFE) = none ∧
    eaWriteStop .long (.ind 0) 2 (at_ 0x7FFE) = some (.refused (.storeToText 0x7FFE)) ∧
    (Instr.clr .word (.ind 0)).wf = true ∧ eaWriteStop .word (.ind 0) 0 (at_ 0x1001) = some (.refused (.misaligned 0x1001)) ∧
    (Instr.move .word (.dn 0) (.ind 0)).wf = true ∧ eaReadStop .word (.dn 0) 0 (at_ 0x1001) = none ∧
    eaReadStop .word (.preDec 0) 0 (at_ 0x1001) = some (.refused (.misaligned 0x0FFF)) ∧
    eaReadStop .word (.preDec 0) 0 (start 1 2 0) = none ∧
    eaReadStop .word (.preDec 2) 0 (eaAfter .word (.preDec 0) (start 1 2 0)) = some (.refused (.predecrementWrap 2)) ∧
    eaReadStop .word (.preDec 0) 0 (at_ 0x8102) = none ∧
    eaReadStop .word (.preDec 1) 0 (eaAfter .word (.preDec 0) (at_ 0x8102)) = none ∧
    eaWriteStop .word (.preDec 1) 0 (eaAfter .word (.preDec 0) (at_ 0x8102)) = none ∧
    eaWriteStop .word (.preDec 1) 0 (eaAfter .word (.preDec 0) (at_ 0x8100)) = some (.refused (.storeToText 0x80FE)) ∧
    eaReadStop .word (.postInc 0) 0 (at_ 0xFFFE) = none ∧
    eaReadStop .word (.postInc 0) 0 (eaAfter .word (.postInc 0) (at_ 0xFFFE)) = some (.fault (.outsideMap 0x10000)) ∧
    completes (.clr .word (.ind 0)) (at_ 0x1000) = true ∧ (Instr.clr .word (.ind 0)).stored (at_ 0x1000) = some (0x1000, 2) := by
  decide

/-- Address sums at each end of the address space, on it and one past it; an index that is inside as an unsigned number alone;
an increment to 2^32 - 1 and to 2^32 (U10). -/
theorem witness_AccessStops_addresses :
    let at_ (addr : Long) : State := { start 0xFFFFFFFF 2 0 with a := #v[addr, addr, 0, 0, 0, 0, 0, 0] }
    let wraps : Option Stop := some (.refused .addressWrap)
    let disp (d : Word) (addr : Long) := eaStop .word (.disp 0 d) 0 (at_ addr)
    let byD1 (addr : Long) := eaStop .word (.index 0 ⟨false, 1, true, 0⟩) 0 (at_ addr)
    disp 0xFFFF 1 = none ∧ disp 0xFFFF 0 = wraps ∧ disp 1 0xFFFFFFFE = none ∧ disp 1 0xFFFFFFFF = wraps ∧
    byD1 0 = none ∧ byD1 1 = none ∧
    eaStop .word (.index 0 ⟨false, 1, true, 0xFF⟩) 0 (at_ 0) = none ∧
    eaStop .word (.index 0 ⟨false, 3, false, 0xFF⟩) 0 (at_ 0) = wraps ∧
    eaStop .word (.pcDisp 0xFFFF) 1 (at_ 0) = none ∧ eaStop .word (.pcDisp 0xFFFE) 1 (at_ 0) = wraps ∧
    eaAfterStop .byte (.postInc 0) (at_ 0xFFFFFFFE) = none ∧ eaAfterStop .byte (.postInc 0) (at_ 0xFFFFFFFF) = wraps := by
  decide

/-- CHK2's lower bound misaligned; its upper bound alone outside the map; its upper bound past the top of the address space;
the 32-bit multiply at a misaligned operand. -/
theorem witness_AccessStops_bounds :
    let at_ (addr : Long) (top : Nat) : State :=
      { start 1 2 0 with
        a := #v[addr, addr, 0, 0, 0, 0, 0, 0]
        cfg := { Config.atReset with map := [⟨0, top⟩], longMultiply := true } }
    let bound (sz : Size) (s : State) := accessStop sz (chk2Addr sz (.ind 0) s) s
    let upper (sz : Size) (s : State) := accessStop sz (chk2UpperAddr sz (.ind 0) s) s
    (Instr.chk2 .word false 0 (.ind 0)).wf = true ∧ (at_ 0 0).cfg.hasChk2 = true ∧
    eaLoc .word (.ind 0) ((at_ 0x1001 0x10000).extAddr 1) (at_ 0x1001 0x10000) = .mem 0x1001 ∧
    bound .word (at_ 0x1001 0x10000) = some (.refused (.misaligned 0x1001)) ∧
    bound .word (at_ 0xFFFE 0x10000) = none ∧ upper .word (at_ 0xFFFE 0x10000) = some (.fault (.outsideMap 0x10000)) ∧
    bound .long (at_ 0xFFFFFFFC (2 ^ 32)) = none ∧ 2 ^ 32 ≤ (chk2Addr .long (.ind 0) (at_ 0xFFFFFFFC 0)).toNat + Size.long.bytes ∧
    (at_ 0 0).cfg.longMultiply = true ∧ (Instr.muls .long 0 (.ind 0)).wf = true ∧
    eaReadStop .long (.ind 0) 1 (at_ 0x1001 0x10000) = some (.refused (.misaligned 0x1001)) := by decide

/-- NBCD and ABCD on packed decimal operands whose store meets the program text. -/
theorem witness_AccessStops_decimalStores :
    let s : State := { start 1 2 0 with a := #v[0x1000, 0x8001, 0, 0, 0, 0, 0, 0] }
    let text : Option Stop := some (.refused (.storeToText 0x8000))
    let s1 := eaAfter .byte (.preDec 0) s
    (Instr.nbcd (.preDec 1)).wf = true ∧ eaReadStop .byte (.preDec 1) 0 s = none ∧
    bcdValid (eaRead .byte (.preDec 1) 0 s) = true ∧ eaWriteStop .byte (.preDec 1) 0 s = text ∧
    eaReadStop .byte (.preDec 0) 0 s = none ∧ eaReadStop .byte (.preDec 1) 0 s1 = none ∧
    bcdValid (eaRead .byte (.preDec 0) 0 s) = true ∧ bcdValid (eaRead .byte (.preDec 1) 0 s1) = true ∧
    eaWriteStop .byte (.preDec 1) 0 s1 = text := by decide

/-- -(A7) with Byte, and a register smaller than the operand, as source or in `<ea>`; both again as the destination, the
source operand readable, with one register for both as well. -/
theorem witness_PredecrementStops :
    let low : State := { start 1 2 0 with a := #v[3, 4, 0, 0, 0, 0, 0, 1] }
    low.a[(0 : RegNum)].toNat < Size.long.bytes ∧ low.a[(7 : RegNum)].toNat < Size.word.bytes ∧
    (State.reset.a[(0 : RegNum)]).toNat < Size.byte.bytes ∧ ¬ (Size.byte = .byte ∧ (0 : RegNum) = 7) ∧
    (Instr.tst .byte (.preDec 7)).wf = true ∧ (Instr.clr .long (.preDec 0)).wf = true ∧
    eaReadStop .byte (.preDec 0) 0 low = none ∧ eaReadStop .long (.preDec 1) 0 low = none ∧
    (eaAfter .long (.preDec 1) low).a[(0 : RegNum)].toNat < Size.long.bytes ∧
    (eaAfter .long (.preDec 1) low).a[(1 : RegNum)].toNat < Size.long.bytes := by decide

/-- An odd pc; each displacement odd, with the test true; a branch not taken and a register form whose pc would be 2^32; an
instruction that completes. -/
theorem witness_OddAddressesAndWrap :
    (bccOf .eq = some .beq ∧ bccOf .ne = some .bne) ∧
    let s := start 1 2 0b00100
    { s with pc := 0x8001 }.pc.toNat % 2 = 1 ∧
    wfDisp (.byte 1) = true ∧ wfDisp (.word 0xFFFF) = true ∧ condHolds .eq s.ccr = true ∧ condHolds .ne s.ccr = false ∧
    (branchTarget (.byte 1) s).toNat % 2 = 1 ∧ (branchTarget (.word 0xFFFF) s).toNat % 2 = 1 ∧
    2 ^ 32 ≤ { s with pc := 0xFFFFFFFE }.pc.toNat + 2 * (1 + (Disp.byte 1).extWords) ∧
    2 ^ 32 ≤ { s with pc := 0xFFFFFFFC }.pc.toNat + 2 * (1 + (Disp.word 2).extWords) ∧
    2 ^ 32 ≤ { s with pc := 0xFFFFFFFE }.pc.toNat + 2 ∧ encode (.addi .long 1 (.dn 0)) ≠ [] ∧
    completes (.addi .long 1 (.dn 0)) s = true ∧ completes (.beq (.byte 2)) s = true := ⟨⟨rfl, rfl⟩, by decide⟩

end Sys2Proof.Slice0
end

section
/-! PROOFS. The conditional tests (48_conditional_tests.md). The borrow of a subtraction is the unsigned comparison of its
operands (`subC_sub`), and N differs from V exactly where the signed comparison holds (`msb_bne_subV_sub`): every test after a
compare follows from these two and from Z saying that the operands are equal. -/

namespace Sys2Proof.Machine

section Compare
variable {n : Nat}

/-! ### What the bits of a subtraction say (40_cc_common.md) -/

/-- The borrow of rule R58, on a difference, is the unsigned comparison: where D < S the difference wraps to
`2^n - (S - D)`, elsewhere it is `D - S`. -/
theorem subC_sub (S D : BitVec n) : subC S D (D - S) = decide (D.toNat < S.toNat) := by
  cases n with
  | zero => simp [subC, BitVec.of_length_zero]
  | succ n =>
    have hS := S.isLt
    have hD := D.isLt
    have hpow : 2 ^ (n + 1) = 2 * 2 ^ n := by omega
    simp only [subC, BitVec.msb_eq_decide, Nat.add_one_sub_one, ← decide_not, ← Bool.decide_and, ← Bool.decide_or,
      decide_eq_decide]
    by_cases h : D < S
    · rw [BitVec.toNat_sub_of_lt h]
      rw [BitVec.lt_def] at h
      omega
    · rw [BitVec.toNat_sub_of_le (BitVec.not_lt.1 h)]
      rw [BitVec.lt_def] at h
      omega

/-- Z after a subtraction says that the operands are equal. -/
theorem isZero_sub (S D : BitVec n) : isZero (D - S) = decide (D = S) := by
  simp only [isZero, beq_eq_decide, BitVec.ofNat_eq_ofNat, BitVec.sub_eq_iff_eq_add, BitVec.zero_add]

/-- N differs from V after a subtraction exactly where D < S signed: N ≠ V is the borrow, turned round where the signs of the
operands differ, and so is the signed comparison from the unsigned one. -/
theorem msb_bne_subV_sub (S D : BitVec n) :
    ((D - S).msb != subV S D (D - S)) = decide (D.toInt < S.toInt) := by
  have hborrow : ((D - S).msb != subV S D (D - S)) = ((D.msb != S.msb) ^^ subC S D (D - S)) := by
    unfold subV subC
    cases S.msb <;> cases D.msb <;> cases (D - S).msb <;> rfl
  calc ((D - S).msb != subV S D (D - S))
      = ((D.msb != S.msb) ^^ D.ult S) := by rw [hborrow, subC_sub, BitVec.ult_eq_decide]
    _ = D.slt S := BitVec.slt_eq_ult.symm
    _ = decide (D.toInt < S.toInt) := BitVec.slt_eq_decide

/-! ### The tests of N and V as equality of the two bits (rules R183 to R186) -/

theorem condHolds_ge (f : CCR) : condHolds .ge f = (f.n == f.v) := by
  unfold condHolds
  cases f.n <;> cases f.v <;> rfl

theorem condHolds_lt (f : CCR) : condHolds .lt f = (f.n != f.v) := by
  unfold condHolds
  cases f.n <;> cases f.v <;> rfl

theorem condHolds_gt (f : CCR) : condHolds .gt f = ((f.n == f.v) && !f.z) := by
  unfold condHolds
  cases f.n <;> cases f.v <;> cases f.z <;> rfl

theorem condHolds_le (f : CCR) : condHolds .le f = (f.z || (f.n != f.v)) := by
  unfold condHolds
  cases f.n <;> cases f.v <;> cases f.z <;> rfl

/-! ### The bits a compare leaves (rules R88 to R90) -/

@[simp] theorem cmpFlags_c (f : CCR) (S D : BitVec n) : (cmpFlags f S D).c = decide (D.toNat < S.toNat) :=
  subC_sub S D

@[simp] theorem cmpFlags_z (f : CCR) (S D : BitVec n) : (cmpFlags f S D).z = decide (D = S) :=
  isZero_sub S D

theorem cmpFlags_n_bne_v (f : CCR) (S D : BitVec n) :
    ((cmpFlags f S D).n != (cmpFlags f S D).v) = decide (D.toInt < S.toInt) :=
  msb_bne_subV_sub S D

theorem cmpFlags_n_beq_v (f : CCR) (S D : BitVec n) :
    ((cmpFlags f S D).n == (cmpFlags f S D).v) = decide (S.toInt ≤ D.toInt) := by
  calc ((cmpFlags f S D).n == (cmpFlags f S D).v)
      = !((cmpFlags f S D).n != (cmpFlags f S D).v) := (Bool.not_not _).symm
    _ = decide (S.toInt ≤ D.toInt) := by rw [cmpFlags_n_bne_v, ← decide_not, decide_eq_decide, Int.not_lt]

/-! ### The tests after a compare (rule R189) -/

theorem condHolds_hi_cmpFlags (f : CCR) (S D : BitVec n) :
    condHolds .hi (cmpFlags f S D) = decide (S.toNat < D.toNat) := by
  have heq : D = S ↔ D.toNat = S.toNat := BitVec.toNat_inj.symm
  simp only [condHolds, cmpFlags_c, cmpFlags_z, heq, ← decide_not, ← Bool.decide_and, decide_eq_decide]
  omega

theorem condHolds_ls_cmpFlags (f : CCR) (S D : BitVec n) :
    condHolds .ls (cmpFlags f S D) = decide (D.toNat ≤ S.toNat) := by
  have heq : D = S ↔ D.toNat = S.toNat := BitVec.toNat_inj.symm
  simp only [condHolds, cmpFlags_c, cmpFlags_z, heq, ← Bool.decide_or, decide_eq_decide]
  omega

theorem condHolds_cc_cmpFlags (f : CCR) (S D : BitVec n) :
    condHolds .cc (cmpFlags f S D) = decide (S.toNat ≤ D.toNat) := by
  simp only [condHolds, cmpFlags_c, ← decide_not, Nat.not_lt]

theorem condHolds_cs_cmpFlags (f : CCR) (S D : BitVec n) :
    condHolds .cs (cmpFlags f S D) = decide (D.toNat < S.toNat) := cmpFlags_c f S D

theorem condHolds_ne_cmpFlags (f : CCR) (S D : BitVec n) :
    condHolds .ne (cmpFlags f S D) = decide (D ≠ S) := by
  simp only [condHolds, cmpFlags_z, ne_eq, decide_not]

theorem condHolds_eq_cmpFlags (f : CCR) (S D : BitVec n) :
    condHolds .eq (cmpFlags f S D) = decide (D = S) := cmpFlags_z f S D

theorem condHolds_ge_cmpFlags (f : CCR) (S D : BitVec n) :
    condHolds .ge (cmpFlags f S D) = decide (S.toInt ≤ D.toInt) := by
  rw [condHolds_ge, cmpFlags_n_beq_v]

theorem condHolds_lt_cmpFlags (f : CCR) (S D : BitVec n) :
    condHolds .lt (cmpFlags f S D) = decide (D.toInt < S.toInt) := by
  rw [condHolds_lt, cmpFlags_n_bne_v]

theorem condHolds_gt_cmpFlags (f : CCR) (S D : BitVec n) :
    condHolds .gt (cmpFlags f S D) = decide (S.toInt < D.toInt) := by
  have heq : D = S ↔ D.toInt = S.toInt := BitVec.toInt_inj.symm
  simp only [condHolds_gt, cmpFlags_n_beq_v, cmpFlags_z, heq, ← decide_not, ← Bool.decide_and, decide_eq_decide]
  omega

theorem condHolds_le_cmpFlags (f : CCR) (S D : BitVec n) :
    condHolds .le (cmpFlags f S D) = decide (D.toInt ≤ S.toInt) := by
  have heq : D = S ↔ D.toInt = S.toInt := BitVec.toInt_inj.symm
  simp only [condHolds_le, cmpFlags_n_bne_v, cmpFlags_z, heq, ← Bool.decide_or, decide_eq_decide]
  omega

end Compare

/-! ### The obligations -/

/-- Settles O13: by the tables of encodings, tests and branches. -/
theorem trueAndFalseTests : Obligations.TrueAndFalseTests :=
  ⟨rfl, rfl, fun _ => ⟨rfl, rfl⟩, rfl, rfl⟩

/-- Settles O14: the formulas are the model's, and C and Z after a compare are the unsigned comparison and equality. -/
theorem carryAndZeroTests : Obligations.CarryAndZeroTests := by
  refine ⟨⟨rfl, rfl, rfl, rfl, rfl, rfl⟩, fun f => ⟨rfl, rfl, rfl, rfl, rfl, rfl⟩, fun sz f S D => ?_⟩
  exact ⟨condHolds_hi_cmpFlags f S D, condHolds_ls_cmpFlags f S D, condHolds_cc_cmpFlags f S D,
    condHolds_cs_cmpFlags f S D, condHolds_ne_cmpFlags f S D, condHolds_eq_cmpFlags f S D⟩

/-- Settles O15: the formulas of GE, LT, GT and LE compare N with V, and after a compare that is the signed comparison. -/
theorem signAndOverflowTests : Obligations.SignAndOverflowTests := by
  refine ⟨⟨rfl, rfl, rfl, rfl, rfl, rfl, rfl, rfl⟩, fun f => ?_, fun sz f S D => ?_⟩
  · exact ⟨rfl, rfl, rfl, rfl, condHolds_ge f, condHolds_lt f, condHolds_gt f, condHolds_le f⟩
  · exact ⟨condHolds_ge_cmpFlags f S D, condHolds_lt_cmpFlags f S D, condHolds_gt_cmpFlags f S D,
      condHolds_le_cmpFlags f S D⟩

end Sys2Proof.Machine
end

section
/-! PROOFS. What any instruction can do. `Declared` ties the terms of Safety.lean (destination, moved registers, stored
bytes, length) to what a shared operation does; `Shaped` says once, constructor by constructor, which shared operation
an instruction is; `Frame` and `PcAfter` say what each operation leaves, and so what every instruction leaves. -/

namespace Sys2Proof.Machine

/-! ### Lengths of encodings -/

@[simp] theorem length_encoding (sz : Size) (ea : Ea) : (ea.encoding sz).length = ea.extWords sz := by
  cases ea with
  | imm v => cases sz <;> rfl
  | _ => rfl

@[simp] theorem length_immEncoding (sz : Size) (v : Long) : (immEncoding sz v).length = sz.immWords := by
  cases sz <;> rfl

@[simp] theorem length_encodeBcc (c : Cond) (d : Disp) : (encodeBcc c d).length = 1 + d.extWords := by
  cases d <;> rfl

/-! ### What an instruction declares, and which shared operation it is -/

/-- The terms of Safety.lean for an instruction: destination, moved registers, stored bytes, words of its encoding. -/
structure Declared (i : Instr) (s : State) (dest : Option RegNum) (moved : List RegNum) (stored : Option (Long × Nat))
    (words : Nat) : Prop where
  dest : i.destD = dest
  moved : i.movedA = moved
  stored : i.stored s = stored
  length : encode i ≠ [] → (encode i).length = words

/-- The condition codes that a row shows as not affected are kept. -/
def FlagsKept (affected f g : CCR) : Prop :=
  (affected.x = false → g.x = f.x) ∧ (affected.n = false → g.n = f.n) ∧ (affected.z = false → g.z = f.z) ∧
    (affected.v = false → g.v = f.v) ∧ (affected.c = false → g.c = f.c)

theorem flagsKept_all (f g : CCR) : FlagsKept ⟨true, true, true, true, true⟩ f g := by simp [FlagsKept]

theorem flagsKept_refl (affected f : CCR) : FlagsKept affected f f := by simp [FlagsKept]

theorem flagsKept_allButX {f g : CCR} (h : g.x = f.x) : FlagsKept ⟨false, true, true, true, true⟩ f g := by
  simp [FlagsKept, h]

/-- The shared operation of Machine/Shapes.lean that an instruction is, with what it declares. MOVE, CHK, CHK2 and CMPM
have an operation of their own. -/
inductive Shaped (i : Instr) (s : State) : Prop
  | toDn (sz : Size) (dn : RegNum) (ea : Ea) (before : Nat) (alu : BitVec sz.bits → Long → Effect 32)
      (stop : BitVec sz.bits → Option Stop) (absent : Bool) (why : Refusal)
      (runs : exec i s = check (refuseIf absent why) (eaToDn i sz dn ea before s alu stop))
      (declared : Declared i s (some dn) (eaMoved ea) none (1 + before + ea.extWords sz))
      (flags : ∀ S D, FlagsKept (i.affects s) s.ccr (alu S D).ccr)
  | modify (sz : Size) (ea : Ea) (before : Nat) (alu : BitVec sz.bits → Effect sz.bits)
      (stop : BitVec sz.bits → Option Stop) (runs : exec i s = modifyEa i sz ea before s alu stop)
      (declared : i.wf = true →
        Declared i s (eaDataReg ea) (eaMoved ea) (eaStored sz ea before s) (1 + before + ea.extWords sz))
      (flags : ∀ D, FlagsKept (i.affects s) s.ccr (alu D).ccr)
  | store (sz : Size) (ea : Ea) (v : BitVec sz.bits) (f : CCR) (runs : exec i s = storeEa i sz ea s v f)
      (declared : Declared i s (eaDataReg ea) (eaMoved ea) (eaStored sz ea 0 s) (1 + ea.extWords sz))
      (flags : FlagsKept (i.affects s) s.ccr f)
  | test (sz : Size) (ea : Ea) (before : Nat) (flag : BitVec sz.bits → CCR)
      (runs : exec i s = testEa i sz ea before s flag)
      (declared : Declared i s none (eaMoved ea) none (1 + before + ea.extWords sz))
      (flags : ∀ D, FlagsKept (i.affects s) s.ccr (flag D))
  | extended (sz : Size) (form : XForm) (dst src : RegNum) (alu : BitVec sz.bits → BitVec sz.bits → Effect sz.bits)
      (stop : BitVec sz.bits → BitVec sz.bits → Option Stop)
      (runs : exec i s = Machine.extended sz form dst src s alu stop) (wf : i.wf = true)
      (declared : Declared i s (form.dataReg dst) (form.moved dst src) (extendedStored sz form dst src s) 1)
      (flags : ∀ S D, FlagsKept (i.affects s) s.ccr (alu S D).ccr)
  | oneWord (dn : RegNum) (v : Long) (f : CCR) (spent : Nat)
      (runs : exec i s = check (pcStop 1 s) (.next ((s.setD dn v).finish f spent 1))) (wf : i.wf = true)
      (declared : Declared i s (some dn) [] none 1) (flags : FlagsKept (i.affects s) s.ccr f)
  | branch (c : Cond) (k : Disp → Instr) (disp : Disp) (isBranch : bccOf c = some k) (eq : i = k disp)
      (runs : exec i s = Machine.branch i c disp s) (declared : Declared i s none [] none (1 + disp.extWords))
  | move (sz : Size) (src dst : Ea) (eq : i = .move sz src dst)
  | chk (sz : Size) (dn : RegNum) (ea : Ea) (eq : i = .chk sz dn ea)
  | chk2 (sz : Size) (isAddr : Bool) (reg : RegNum) (ea : Ea) (eq : i = .chk2 sz isAddr reg ea)
  | cmpm (sz : Size) (dst src : RegNum) (eq : i = .cmpm sz dst src)

/-! ### The families of instructions, each shaped once -/

section Families
variable {i : Instr} {s : State} {sz : Size} {dn : RegNum} {ea : Ea}

/-- A well-formed memory shift has no register destination. -/
theorem eaDataReg_eq_none (h : ea.admitsMemoryAlterable = true) : eaDataReg ea = none := by
  cases ea with
  | dn r => cases h
  | _ => rfl

/-- The extension words of a bit operand: an immediate, whose length depends on the size, is not one of its modes. -/
theorem extWords_bitSize : ea.extWords (bitSize ea) = ea.extWords .byte := by
  cases ea <;> rfl

theorem divEffect_x (s : State) (D : Long) (q rem : Word) (overflow : Bool) :
    (divEffect s D q rem overflow).ccr.x = s.ccr.x := by
  cases overflow <;> rfl

/-- X after a shift or rotate by zero, and after ROL and ROR by any count. -/
theorem shiftEffect_x {n : Nat} {k : Shift} {inverted : Bool} {f : CCR} {r : Nat} {D : BitVec n}
    (h : k.keepsX = true ∨ r = 0) : (shiftEffect k inverted f r D).ccr.x = f.x := by
  unfold shiftEffect
  by_cases hr : r = 0
  · simp [hr]
  · simp [hr, h.resolve_right hr]

/-- An operand into a register, without a parameter that leaves the instruction out. -/
theorem shaped_eaToDn (alu : BitVec sz.bits → Long → Effect 32) (stop : BitVec sz.bits → Option Stop)
    (runs : exec i s = eaToDn i sz dn ea 0 s alu stop)
    (declared : Declared i s (some dn) (eaMoved ea) none (1 + ea.extWords sz))
    (flags : ∀ S D, FlagsKept (i.affects s) s.ccr (alu S D).ccr) : Shaped i s :=
  .toDn sz dn ea 0 alu stop false .noSuchForm runs declared flags

/-- ADD, SUB, AND and OR, in both directions. -/
theorem shaped_opmode (dir : Dir) (alu : BitVec sz.bits → BitVec sz.bits → Effect sz.bits)
    (runs : exec i s = opmode i sz dir dn ea s alu)
    (declared : Declared i s (dir.dataReg dn ea) (eaMoved ea) (opmodeStored sz dir ea s) (1 + ea.extWords sz))
    (flags : ∀ S D, FlagsKept (i.affects s) s.ccr (alu S D).ccr) : Shaped i s := by
  cases dir with
  | toDn =>
    exact shaped_eaToDn (fun S D => ⟨mergeLow sz D (alu S (lowPart sz D)).result, (alu S (lowPart sz D)).ccr,
      (alu S (lowPart sz D)).spent⟩) (fun _ => none) runs declared fun S D => flags S (lowPart sz D)
  | toEa => exact .modify sz ea 0 (alu (lowPart sz s.d[dn])) (fun _ => none) runs (fun _ => declared) (flags _)

/-- `<ea>` changed, with nothing but its accesses to stop it. -/
theorem shaped_modifyEa (before : Nat) (alu : BitVec sz.bits → Effect sz.bits)
    (runs : exec i s = modifyEa i sz ea before s alu)
    (declared : Declared i s (eaDataReg ea) (eaMoved ea) (eaStored sz ea before s) (1 + before + ea.extWords sz))
    (flags : ∀ D, FlagsKept (i.affects s) s.ccr (alu D).ccr) : Shaped i s :=
  .modify sz ea before alu (fun _ => none) runs (fun _ => declared) flags

/-- ADDX and SUBX. -/
theorem shaped_extended (form : XForm) (dst src : RegNum) (alu : BitVec sz.bits → BitVec sz.bits → Effect sz.bits)
    (runs : exec i s = extended sz form dst src s alu) (wf : i.wf = true)
    (declared : Declared i s (form.dataReg dst) (form.moved dst src) (extendedStored sz form dst src s) 1)
    (flags : ∀ S D, FlagsKept (i.affects s) s.ccr (alu S D).ccr) : Shaped i s :=
  .extended sz form dst src alu (fun _ _ => none) runs wf declared flags

/-- A shift or rotate of a register. -/
theorem shaped_shiftDn (k : Shift) (count : ShiftCount) (runs : exec i s = shiftDn k sz count dn s) (wf : i.wf = true)
    (declared : Declared i s (some dn) [] none 1)
    (affects : i.affects s = ⟨if k.keepsX then false else shiftCount count s != 0, true, true, true, true⟩) :
    Shaped i s := by
  refine .oneWord dn _ _ _ runs wf declared (affects ▸ ⟨fun h => shiftEffect_x ?_, by simp⟩)
  simpa [Classical.or_iff_not_imp_left] using h

/-- A shift or rotate of a word of memory. -/
theorem shaped_shiftEa (k : Shift) (runs : exec i s = shiftEa i k ea s) (wf : i.wf = ea.admitsMemoryAlterable)
    (declared : Declared i s none (eaMoved ea) (eaStored .word ea 0 s) (1 + ea.extWords .word))
    (affects : i.affects s = ⟨!k.keepsX, true, true, true, true⟩) : Shaped i s := by
  refine .modify .word ea 0 (fun D => shiftEffect k s.cfg.aslCarryInverted s.ccr 1 D) (fun _ => none) runs
    (fun h => ?_) fun D => affects ▸ ⟨fun h => shiftEffect_x (.inl (by simpa using h)), by simp⟩
  rw [eaDataReg_eq_none (wf ▸ h)]
  exact declared

/-- A set instruction. -/
theorem shaped_setByte (c : Cond) (runs : exec i s = setByte i c ea s)
    (declared : Declared i s (eaDataReg ea) (eaMoved ea) (eaStored .byte ea 0 s) (1 + ea.extWords .byte)) :
    Shaped i s :=
  .store .byte ea (if condHolds c s.ccr then (0xFF : Byte) else 0) s.ccr runs declared (flagsKept_refl _ _)

theorem flagsKept_bitFlags {n : Nat} (f : CCR) (D : BitVec n) (b : Nat) :
    FlagsKept ⟨false, false, true, false, false⟩ f (bitFlags f D b) := by
  simp [FlagsKept, bitFlags]

/-- A bit instruction that changes its operand. -/
theorem shaped_modifyBit (before b : Nat) (change : {n : Nat} → BitVec n → BitVec n → BitVec n)
    (runs : exec i s = modifyBit i ea before b s change)
    (declared : Declared i s (eaDataReg ea) (eaMoved ea) (eaStored (bitSize ea) ea before s)
      (1 + before + ea.extWords .byte))
    (affects : i.affects s = ⟨false, false, true, false, false⟩) : Shaped i s :=
  .modify (bitSize ea) ea before
    (fun D => ⟨change D (bitMask _ (bitIndex (bitSize ea) b)), bitFlags s.ccr D (bitIndex (bitSize ea) b), 0⟩)
    (fun _ => none) runs (fun _ => extWords_bitSize ▸ declared) fun _ => affects ▸ flagsKept_bitFlags _ _ _

/-- BTST. -/
theorem shaped_testBit (before b : Nat) (runs : exec i s = testBit i ea before b s)
    (declared : Declared i s none (eaMoved ea) none (1 + before + ea.extWords .byte))
    (affects : i.affects s = ⟨false, false, true, false, false⟩) : Shaped i s :=
  .test (bitSize ea) ea before (fun D => bitFlags s.ccr D (bitIndex (bitSize ea) b)) runs
    (extWords_bitSize ▸ declared) fun _ => affects ▸ flagsKept_bitFlags _ _ _

/-- A multiply, both forms. -/
theorem shaped_multiply (form : MulForm) (alu : BitVec form.size.bits → Long → Effect 32)
    (runs : exec i s = check (mulFormStop form s) (eaToDn i form.size dn ea form.controlWords s alu))
    (declared : Declared i s (some dn) (eaMoved ea) none (1 + form.controlWords + ea.extWords form.size))
    (flags : ∀ S D, FlagsKept (i.affects s) s.ccr (alu S D).ccr) : Shaped i s :=
  .toDn form.size dn ea form.controlWords alu (fun _ => none) _ _ runs declared flags

/-- The words of a multiply that has any. -/
theorem length_encodeMultiply {opm : Nat} {form : MulForm} (h : encodeMultiply opm form dn ea ≠ []) :
    (encodeMultiply opm form dn ea).length = 1 + form.controlWords + ea.extWords form.size := by
  cases form with
  | word => simp [encodeMultiply, encodeDnEa, MulForm.controlWords, Nat.add_comm]
  | long => exact absurd rfl h

end Families

/-- The words of an operation word and one list of extension words. -/
theorem length_cons_ea (w : Word) (sz : Size) (ea : Ea) : (w :: ea.encoding sz).length = 1 + ea.extWords sz := by
  simp [Nat.add_comm]

/-- The words of an operation word, one word and one list of extension words. -/
theorem length_cons_cons_ea (w v : Word) (sz : Size) (ea : Ea) :
    (w :: v :: ea.encoding sz).length = 1 + 1 + ea.extWords sz := by
  simp only [List.length_cons, length_encoding]
  omega

/-- The words of an operation word, an immediate and one list of extension words. -/
theorem length_cons_imm_ea (w : Word) (sz : Size) (imm : Long) (ea : Ea) :
    (w :: (immEncoding sz imm ++ ea.encoding sz)).length = 1 + sz.immWords + ea.extWords sz := by
  simp [Nat.add_comm, Nat.add_left_comm]

/-- Every instruction is one of the shared operations. -/
theorem shaped (i : Instr) (s : State) : Shaped i s := by
  cases i with
  | abcd form dst src =>
    exact .extended .byte form dst src (abcdEffect s) (bcdStop s) rfl rfl ⟨rfl, rfl, rfl, fun _ => rfl⟩
      fun _ _ => flagsKept_all _ _
  | add sz dir dn ea =>
    exact shaped_opmode dir (addEffect s.ccr) rfl ⟨rfl, rfl, rfl, fun _ => length_cons_ea _ _ _⟩
      fun _ _ => flagsKept_all _ _
  | addi sz imm ea =>
    exact shaped_modifyEa sz.immWords (addEffect s.ccr (lowPart sz imm)) rfl
      ⟨rfl, rfl, rfl, fun _ => length_cons_imm_ea _ _ _ _⟩ fun _ => flagsKept_all _ _
  | addq sz q ea =>
    exact shaped_modifyEa 0 (addEffect s.ccr (quickValue sz q)) rfl ⟨rfl, rfl, rfl, fun _ => length_cons_ea _ _ _⟩
      fun _ => flagsKept_all _ _
  | addxB form dst src =>
    exact shaped_extended form dst src (addxEffect s.ccr) rfl rfl ⟨rfl, rfl, rfl, fun _ => rfl⟩
      fun _ _ => flagsKept_all _ _
  | addxW form dst src =>
    exact shaped_extended form dst src (addxEffect s.ccr) rfl rfl ⟨rfl, rfl, rfl, fun _ => rfl⟩
      fun _ _ => flagsKept_all _ _
  | addxL form dst src =>
    exact shaped_extended form dst src (addxEffect s.ccr) rfl rfl ⟨rfl, rfl, rfl, fun _ => rfl⟩
      fun _ _ => flagsKept_all _ _
  | and sz dir dn ea =>
    exact shaped_opmode dir (fun S D => logicEffect s.ccr (S &&& D)) rfl ⟨rfl, rfl, rfl, fun _ => length_cons_ea _ _ _⟩
      fun _ _ => flagsKept_allButX rfl
  | andi sz imm ea =>
    exact shaped_modifyEa sz.immWords (fun D => logicEffect s.ccr (lowPart sz imm &&& D)) rfl
      ⟨rfl, rfl, rfl, fun _ => length_cons_imm_ea _ _ _ _⟩ fun _ => flagsKept_allButX rfl
  | eor sz dn ea =>
    exact shaped_modifyEa 0 (fun D => logicEffect s.ccr (lowPart sz s.d[dn] ^^^ D)) rfl
      ⟨rfl, rfl, rfl, fun _ => length_cons_ea _ _ _⟩ fun _ => flagsKept_allButX rfl
  | eori sz imm ea =>
    exact shaped_modifyEa sz.immWords (fun D => logicEffect s.ccr (lowPart sz imm ^^^ D)) rfl
      ⟨rfl, rfl, rfl, fun _ => length_cons_imm_ea _ _ _ _⟩ fun _ => flagsKept_allButX rfl
  | moveq dn data => exact .oneWord dn _ _ _ rfl rfl ⟨rfl, rfl, rfl, fun _ => rfl⟩ (flagsKept_allButX rfl)
  | move sz src dst => exact .move sz src dst rfl
  | or sz dir dn ea =>
    exact shaped_opmode dir (fun S D => logicEffect s.ccr (S ||| D)) rfl ⟨rfl, rfl, rfl, fun _ => length_cons_ea _ _ _⟩
      fun _ _ => flagsKept_allButX rfl
  | ori sz imm ea =>
    exact shaped_modifyEa sz.immWords (fun D => logicEffect s.ccr (lowPart sz imm ||| D)) rfl
      ⟨rfl, rfl, rfl, fun _ => length_cons_imm_ea _ _ _ _⟩ fun _ => flagsKept_allButX rfl
  | clr sz ea =>
    exact .store sz ea 0 (logicFlags s.ccr (0 : BitVec sz.bits)) rfl ⟨rfl, rfl, rfl, fun _ => length_cons_ea _ _ _⟩
      (flagsKept_allButX rfl)
  | extW dn => exact .oneWord dn _ _ _ rfl rfl ⟨rfl, rfl, rfl, fun _ => rfl⟩ (flagsKept_allButX rfl)
  | extL dn => exact .oneWord dn _ _ _ rfl rfl ⟨rfl, rfl, rfl, fun _ => rfl⟩ (flagsKept_allButX rfl)
  | not sz ea =>
    exact shaped_modifyEa 0 (fun D => logicEffect s.ccr (~~~D)) rfl ⟨rfl, rfl, rfl, fun _ => length_cons_ea _ _ _⟩
      fun _ => flagsKept_allButX rfl
  | tas ea =>
    exact shaped_modifyEa (sz := .byte) 0 (tasEffect s.ccr) rfl ⟨rfl, rfl, rfl, fun _ => length_cons_ea _ _ _⟩
      fun _ => flagsKept_allButX rfl
  | tst sz ea =>
    exact .test sz ea 0 (logicFlags s.ccr) rfl ⟨rfl, rfl, rfl, fun _ => length_cons_ea _ _ _⟩
      fun _ => flagsKept_allButX rfl
  | chk sz dn ea => exact .chk sz dn ea rfl
  | chk2 sz isAddr reg ea => exact .chk2 sz isAddr reg ea rfl
  | sub sz dir dn ea =>
    exact shaped_opmode dir (subEffect s.ccr) rfl ⟨rfl, rfl, rfl, fun _ => length_cons_ea _ _ _⟩
      fun _ _ => flagsKept_all _ _
  | subi sz imm ea =>
    exact shaped_modifyEa sz.immWords (subEffect s.ccr (lowPart sz imm)) rfl
      ⟨rfl, rfl, rfl, fun _ => length_cons_imm_ea _ _ _ _⟩ fun _ => flagsKept_all _ _
  | subq sz q ea =>
    exact shaped_modifyEa 0 (subEffect s.ccr (quickValue sz q)) rfl ⟨rfl, rfl, rfl, fun _ => length_cons_ea _ _ _⟩
      fun _ => flagsKept_all _ _
  | subxB form dst src =>
    exact shaped_extended form dst src (subxEffect s.ccr) rfl rfl ⟨rfl, rfl, rfl, fun _ => rfl⟩
      fun _ _ => flagsKept_all _ _
  | subxW form dst src =>
    exact shaped_extended form dst src (subxEffect s.ccr) rfl rfl ⟨rfl, rfl, rfl, fun _ => rfl⟩
      fun _ _ => flagsKept_all _ _
  | subxL form dst src =>
    exact shaped_extended form dst src (subxEffect s.ccr) rfl rfl ⟨rfl, rfl, rfl, fun _ => rfl⟩
      fun _ _ => flagsKept_all _ _
  | cmpB dn ea =>
    exact .test .byte ea 0 (fun S => cmpFlags s.ccr S (lowPart .byte s.d[dn])) rfl
      ⟨rfl, rfl, rfl, fun _ => length_cons_ea _ _ _⟩ fun _ => flagsKept_allButX rfl
  | cmpW dn ea =>
    exact .test .word ea 0 (fun S => cmpFlags s.ccr S (lowPart .word s.d[dn])) rfl
      ⟨rfl, rfl, rfl, fun _ => length_cons_ea _ _ _⟩ fun _ => flagsKept_allButX rfl
  | cmpL dn ea =>
    exact .test .long ea 0 (fun S => cmpFlags s.ccr S (lowPart .long s.d[dn])) rfl
      ⟨rfl, rfl, rfl, fun _ => length_cons_ea _ _ _⟩ fun _ => flagsKept_allButX rfl
  | cmpi sz imm ea =>
    exact .test sz ea sz.immWords (cmpFlags s.ccr (lowPart sz imm)) rfl
      ⟨rfl, rfl, rfl, fun _ => length_cons_imm_ea _ _ _ _⟩ fun _ => flagsKept_allButX rfl
  | cmpm sz dst src => exact .cmpm sz dst src rfl
  | divs dn ea =>
    exact shaped_eaToDn (sz := .word) (divsEffect s) divisorStop rfl ⟨rfl, rfl, rfl, fun _ => length_cons_ea _ _ _⟩
      fun _ _ => flagsKept_allButX (divEffect_x _ _ _ _ _)
  | divu dn ea =>
    exact shaped_eaToDn (sz := .word) (divuEffect s) divisorStop rfl ⟨rfl, rfl, rfl, fun _ => length_cons_ea _ _ _⟩
      fun _ _ => flagsKept_allButX (divEffect_x _ _ _ _ _)
  | muls form dn ea =>
    exact shaped_multiply form (fun S D => mulsEffect s.ccr S (lowPart form.size D)) rfl
      ⟨rfl, rfl, rfl, length_encodeMultiply⟩ fun _ _ => flagsKept_allButX rfl
  | mulu form dn ea =>
    exact shaped_multiply form (fun S D => muluEffect s.ccr S (lowPart form.size D)) rfl
      ⟨rfl, rfl, rfl, length_encodeMultiply⟩ fun _ _ => flagsKept_allButX rfl
  | sbcd form dst src =>
    exact .extended .byte form dst src (sbcdEffect s) (bcdStop s) rfl rfl ⟨rfl, rfl, rfl, fun _ => rfl⟩
      fun _ _ => flagsKept_all _ _
  | nbcd ea =>
    exact .modify .byte ea 0 (nbcdEffect s) (fun D => bcdStop s D D) rfl
      (fun _ => ⟨rfl, rfl, rfl, fun _ => length_cons_ea _ _ _⟩) fun _ => flagsKept_all _ _
  | neg sz ea =>
    exact shaped_modifyEa 0 (negEffect s.ccr) rfl ⟨rfl, rfl, rfl, fun _ => length_cons_ea _ _ _⟩
      fun _ => flagsKept_all _ _
  | negx sz ea =>
    exact shaped_modifyEa 0 (negxEffect s.ccr) rfl ⟨rfl, rfl, rfl, fun _ => length_cons_ea _ _ _⟩
      fun _ => flagsKept_all _ _
  | btstReg bit ea => exact shaped_testBit 0 _ rfl ⟨rfl, rfl, rfl, fun _ => length_cons_ea _ _ _⟩ rfl
  | btstImm bit ea => exact shaped_testBit 1 _ rfl ⟨rfl, rfl, rfl, fun _ => length_cons_cons_ea _ _ _ _⟩ rfl
  | bchgReg bit ea =>
    exact shaped_modifyBit 0 _ (fun D mask => D ^^^ mask) rfl ⟨rfl, rfl, rfl, fun _ => length_cons_ea _ _ _⟩ rfl
  | bchgImm bit ea =>
    exact shaped_modifyBit 1 _ (fun D mask => D ^^^ mask) rfl ⟨rfl, rfl, rfl, fun _ => length_cons_cons_ea _ _ _ _⟩ rfl
  | bclrReg bit ea =>
    exact shaped_modifyBit 0 _ (fun D mask => D &&& ~~~mask) rfl ⟨rfl, rfl, rfl, fun _ => length_cons_ea _ _ _⟩ rfl
  | bclrImm bit ea =>
    exact shaped_modifyBit 1 _ (fun D mask => D &&& ~~~mask) rfl ⟨rfl, rfl, rfl, fun _ => length_cons_cons_ea _ _ _ _⟩
      rfl
  | bsetReg bit ea =>
    exact shaped_modifyBit 0 _ (fun D mask => D ||| mask) rfl ⟨rfl, rfl, rfl, fun _ => length_cons_ea _ _ _⟩ rfl
  | bsetImm bit ea =>
    exact shaped_modifyBit 1 _ (fun D mask => D ||| mask) rfl ⟨rfl, rfl, rfl, fun _ => length_cons_cons_ea _ _ _ _⟩ rfl
  | asrReg sz count dn => exact shaped_shiftDn .asr count rfl rfl ⟨rfl, rfl, rfl, fun _ => rfl⟩ rfl
  | asrMem ea => exact shaped_shiftEa .asr rfl rfl ⟨rfl, rfl, rfl, fun _ => length_cons_ea _ _ _⟩ rfl
  | aslReg sz count dn => exact shaped_shiftDn .asl count rfl rfl ⟨rfl, rfl, rfl, fun _ => rfl⟩ rfl
  | aslMem ea => exact shaped_shiftEa .asl rfl rfl ⟨rfl, rfl, rfl, fun _ => length_cons_ea _ _ _⟩ rfl
  | lsrReg sz count dn => exact shaped_shiftDn .lsr count rfl rfl ⟨rfl, rfl, rfl, fun _ => rfl⟩ rfl
  | lsrMem ea => exact shaped_shiftEa .lsr rfl rfl ⟨rfl, rfl, rfl, fun _ => length_cons_ea _ _ _⟩ rfl
  | lslReg sz count dn => exact shaped_shiftDn .lsl count rfl rfl ⟨rfl, rfl, rfl, fun _ => rfl⟩ rfl
  | lslMem ea => exact shaped_shiftEa .lsl rfl rfl ⟨rfl, rfl, rfl, fun _ => length_cons_ea _ _ _⟩ rfl
  | roxrReg sz count dn => exact shaped_shiftDn .roxr count rfl rfl ⟨rfl, rfl, rfl, fun _ => rfl⟩ rfl
  | roxrMem ea => exact shaped_shiftEa .roxr rfl rfl ⟨rfl, rfl, rfl, fun _ => length_cons_ea _ _ _⟩ rfl
  | roxlReg sz count dn => exact shaped_shiftDn .roxl count rfl rfl ⟨rfl, rfl, rfl, fun _ => rfl⟩ rfl
  | roxlMem ea => exact shaped_shiftEa .roxl rfl rfl ⟨rfl, rfl, rfl, fun _ => length_cons_ea _ _ _⟩ rfl
  | rorReg sz count dn => exact shaped_shiftDn .ror count rfl rfl ⟨rfl, rfl, rfl, fun _ => rfl⟩ rfl
  | rorMem ea => exact shaped_shiftEa .ror rfl rfl ⟨rfl, rfl, rfl, fun _ => length_cons_ea _ _ _⟩ rfl
  | rolReg sz count dn => exact shaped_shiftDn .rol count rfl rfl ⟨rfl, rfl, rfl, fun _ => rfl⟩ rfl
  | rolMem ea => exact shaped_shiftEa .rol rfl rfl ⟨rfl, rfl, rfl, fun _ => length_cons_ea _ _ _⟩ rfl
  | bhi d => exact .branch .hi .bhi d rfl rfl rfl ⟨rfl, rfl, rfl, fun _ => length_encodeBcc _ _⟩
  | bls d => exact .branch .ls .bls d rfl rfl rfl ⟨rfl, rfl, rfl, fun _ => length_encodeBcc _ _⟩
  | bcc d => exact .branch .cc .bcc d rfl rfl rfl ⟨rfl, rfl, rfl, fun _ => length_encodeBcc _ _⟩
  | bcs d => exact .branch .cs .bcs d rfl rfl rfl ⟨rfl, rfl, rfl, fun _ => length_encodeBcc _ _⟩
  | bne d => exact .branch .ne .bne d rfl rfl rfl ⟨rfl, rfl, rfl, fun _ => length_encodeBcc _ _⟩
  | beq d => exact .branch .eq .beq d rfl rfl rfl ⟨rfl, rfl, rfl, fun _ => length_encodeBcc _ _⟩
  | bvc d => exact .branch .vc .bvc d rfl rfl rfl ⟨rfl, rfl, rfl, fun _ => length_encodeBcc _ _⟩
  | bvs d => exact .branch .vs .bvs d rfl rfl rfl ⟨rfl, rfl, rfl, fun _ => length_encodeBcc _ _⟩
  | bpl d => exact .branch .pl .bpl d rfl rfl rfl ⟨rfl, rfl, rfl, fun _ => length_encodeBcc _ _⟩
  | bmi d => exact .branch .mi .bmi d rfl rfl rfl ⟨rfl, rfl, rfl, fun _ => length_encodeBcc _ _⟩
  | bge d => exact .branch .ge .bge d rfl rfl rfl ⟨rfl, rfl, rfl, fun _ => length_encodeBcc _ _⟩
  | blt d => exact .branch .lt .blt d rfl rfl rfl ⟨rfl, rfl, rfl, fun _ => length_encodeBcc _ _⟩
  | bgt d => exact .branch .gt .bgt d rfl rfl rfl ⟨rfl, rfl, rfl, fun _ => length_encodeBcc _ _⟩
  | ble d => exact .branch .le .ble d rfl rfl rfl ⟨rfl, rfl, rfl, fun _ => length_encodeBcc _ _⟩
  | st ea => exact shaped_setByte .t rfl ⟨rfl, rfl, rfl, fun _ => length_cons_ea _ _ _⟩
  | sf ea => exact shaped_setByte .f rfl ⟨rfl, rfl, rfl, fun _ => length_cons_ea _ _ _⟩
  | shi ea => exact shaped_setByte .hi rfl ⟨rfl, rfl, rfl, fun _ => length_cons_ea _ _ _⟩
  | sls ea => exact shaped_setByte .ls rfl ⟨rfl, rfl, rfl, fun _ => length_cons_ea _ _ _⟩
  | scc ea => exact shaped_setByte .cc rfl ⟨rfl, rfl, rfl, fun _ => length_cons_ea _ _ _⟩
  | scs ea => exact shaped_setByte .cs rfl ⟨rfl, rfl, rfl, fun _ => length_cons_ea _ _ _⟩
  | sne ea => exact shaped_setByte .ne rfl ⟨rfl, rfl, rfl, fun _ => length_cons_ea _ _ _⟩
  | seq ea => exact shaped_setByte .eq rfl ⟨rfl, rfl, rfl, fun _ => length_cons_ea _ _ _⟩
  | svc ea => exact shaped_setByte .vc rfl ⟨rfl, rfl, rfl, fun _ => length_cons_ea _ _ _⟩
  | svs ea => exact shaped_setByte .vs rfl ⟨rfl, rfl, rfl, fun _ => length_cons_ea _ _ _⟩
  | spl ea => exact shaped_setByte .pl rfl ⟨rfl, rfl, rfl, fun _ => length_cons_ea _ _ _⟩
  | smi ea => exact shaped_setByte .mi rfl ⟨rfl, rfl, rfl, fun _ => length_cons_ea _ _ _⟩
  | sge ea => exact shaped_setByte .ge rfl ⟨rfl, rfl, rfl, fun _ => length_cons_ea _ _ _⟩
  | slt ea => exact shaped_setByte .lt rfl ⟨rfl, rfl, rfl, fun _ => length_cons_ea _ _ _⟩
  | sgt ea => exact shaped_setByte .gt rfl ⟨rfl, rfl, rfl, fun _ => length_cons_ea _ _ _⟩
  | sle ea => exact shaped_setByte .le rfl ⟨rfl, rfl, rfl, fun _ => length_cons_ea _ _ _⟩

end Sys2Proof.Machine
end

section
/-! PROOFS. The frame of every instruction: what a next state keeps of the state before, shape by shape, and from it
that the machine's invariant holds along every step (10_state.md rule R20, 20_memory.md rule R38, Table 4-10). -/

namespace Sys2Proof.Machine

/-! ### The frame -/

/-- Memory after an instruction: as before where nothing is stored; else one operand written where a store is
allowed. -/
def MemoryAfter (stored : Option (Long × Nat)) (s t : State) : Prop :=
  match stored with
  | none => t.mem = s.mem
  | some (addr, n) => ∃ (sz : Size) (v : BitVec sz.bits),
      n = sz.bytes ∧ storeStop sz addr s = none ∧ t.mem = (memWrite sz addr v s).mem

/-- What a next state `t` keeps of `s`. -/
structure Frame (dest : Option RegNum) (moved : List RegNum) (stored : Option (Long × Nat)) (affects : CCR)
    (s t : State) : Prop where
  d : ∀ r : RegNum, dest ≠ some r → t.d[r] = s.d[r]
  a : ∀ r : RegNum, r ∉ moved → t.a[r] = s.a[r]
  cfg : t.cfg = s.cfg
  draws : s.draws ≤ t.draws
  mem : MemoryAfter stored s t
  ccr : FlagsKept affects s.ccr t.ccr

/-- The pc after an instruction: past its words without a wrap, or at the even target of a branch taken. -/
def PcAfter (i : Instr) (s t : State) : Prop :=
  (∃ words, (encode i ≠ [] → (encode i).length = words) ∧ s.fits words ∧ t.pc = s.pcPast words) ∨
    ∃ c k disp, bccOf c = some k ∧ i = k disp ∧ condHolds c s.ccr = true ∧ t.pc = branchTarget disp s ∧
      t.pc.toNat % 2 = 0

/-- The frame of an instruction and its pc. -/
def Framed (i : Instr) (s t : State) : Prop := Frame i.destD i.movedA (i.stored s) (i.affects s) s t ∧ PcAfter i s t

/-- An instruction that ends as `finish` does has its frame from what it declares. -/
theorem Declared.framed {i : Instr} {s u : State} {dest : Option RegNum} {moved : List RegNum}
    {stored : Option (Long × Nat)} {words : Nat} {f : CCR} {spent : Nat}
    (declared : Declared i s dest moved stored words) (fits : pcStop words s = none)
    (flags : FlagsKept (i.affects s) s.ccr f) (d : ∀ r : RegNum, dest ≠ some r → u.d[r] = s.d[r])
    (a : ∀ r : RegNum, r ∉ moved → u.a[r] = s.a[r]) (mem : MemoryAfter stored s u)
    (pc : u.pc = s.pc := by simp) (cfg : u.cfg = s.cfg := by simp) (draws : u.draws = s.draws := by simp) :
    Framed i s (u.finish f spent words) := by
  refine ⟨?_, .inl ⟨words, declared.length, pcStop_eq_none.1 fits, by simp [State.pcPast, pc]⟩⟩
  rw [declared.dest, declared.moved, declared.stored]
  exact ⟨d, a, cfg, by simp [draws], mem, flags⟩

/-! ### What addressing and storing at `<ea>` leave -/

section Addressing
variable {sz : Size} {ea : Ea} {before : Nat} {s : State}

/-- Addressing moves no address register but those of postincrement and predecrement. -/
theorem eaAfter_a {r : RegNum} (h : r ∉ eaMoved ea) : (eaAfter sz ea s).a[r] = s.a[r] := by
  cases ea with
  | postInc q => exact (postinc_getElem s sz q r).trans (if_neg fun e => h (by simp [eaMoved, e]))
  | preDec q => exact (predec_getElem s sz q r).trans (if_neg fun e => h (by simp [eaMoved, e]))
  | _ => rfl

/-- Storing at `<ea>` changes no data register but the one it names. -/
theorem eaWrite_d {v : BitVec sz.bits} {r : RegNum} (h : eaDataReg ea ≠ some r) :
    (eaWrite sz ea before v s).d[r] = s.d[r] := by
  cases ea with
  | dn q => exact (setDLow_getElem s sz q r v).trans (if_neg fun e => h (by simp [eaDataReg, e]))
  | _ => simp [eaWrite, eaLoc, locWrite]

/-- Storing at `<ea>` changes memory by the operand it names alone, where the store is allowed. -/
theorem eaWrite_mem {v : BitVec sz.bits} (h : eaWriteStop sz ea before s = none) :
    MemoryAfter (eaStored sz ea before s) s (eaWrite sz ea before v s) := by
  obtain ⟨-, hw, -⟩ := eaWriteStop_eq_none.1 h
  unfold eaStored eaWrite
  cases hl : eaLoc sz ea (s.extAddr before) s with
  | mem addr =>
    rw [hl] at hw
    exact ⟨sz, v, rfl, by rw [← hw]; exact storeStop_congr (by simp) sz addr, by simp [locWrite, memWrite]⟩
  | dreg r => simp [MemoryAfter, locWrite]
  | areg r => simp [MemoryAfter, locWrite]
  | const c => simp [MemoryAfter, locWrite]

end Addressing

/-! ### Each shared operation has its frame -/

section Operations
variable {i : Instr} {s t : State} {sz : Size} {ea : Ea} {before : Nat}

theorem framed_eaToDn {dn : RegNum} {alu : BitVec sz.bits → Long → Effect 32} {stop : BitVec sz.bits → Option Stop}
    (declared : Declared i s (some dn) (eaMoved ea) none (1 + before + ea.extWords sz))
    (flags : ∀ S D, FlagsKept (i.affects s) s.ccr (alu S D).ccr)
    (h : eaToDn i sz dn ea before s alu stop = .next t) : Framed i s t := by
  obtain ⟨-, -, -, fits, rfl⟩ := eaToDn_eq_next.1 h
  refine declared.framed fits (flags _ _) (fun r hr => ?_) (fun r hr => eaAfter_a hr) (by simp [MemoryAfter])
  have hne : dn ≠ r := fun e => hr (by rw [e])
  exact (setD_getElem _ dn r _).trans (by rw [if_neg hne, eaAfter_d])

theorem framed_modifyEa {alu : BitVec sz.bits → Effect sz.bits} {stop : BitVec sz.bits → Option Stop}
    (declared : i.wf = true →
      Declared i s (eaDataReg ea) (eaMoved ea) (eaStored sz ea before s) (1 + before + ea.extWords sz))
    (flags : ∀ D, FlagsKept (i.affects s) s.ccr (alu D).ccr)
    (h : modifyEa i sz ea before s alu stop = .next t) : Framed i s t := by
  obtain ⟨wf, -, -, hw, fits, rfl⟩ := modifyEa_eq_next.1 h
  exact (declared wf).framed fits (flags _) (fun r hr => eaWrite_d hr)
    (fun r hr => by rw [eaWrite_a]; exact eaAfter_a hr) (eaWrite_mem hw)

theorem framed_storeEa {v : BitVec sz.bits} {f : CCR}
    (declared : Declared i s (eaDataReg ea) (eaMoved ea) (eaStored sz ea 0 s) (1 + ea.extWords sz))
    (flags : FlagsKept (i.affects s) s.ccr f) (h : storeEa i sz ea s v f = .next t) : Framed i s t := by
  obtain ⟨-, hw, fits, rfl⟩ := storeEa_eq_next.1 h
  exact declared.framed fits flags (fun r hr => eaWrite_d hr)
    (fun r hr => by rw [eaWrite_a]; exact eaAfter_a hr) (eaWrite_mem hw)

theorem framed_testEa {flag : BitVec sz.bits → CCR}
    (declared : Declared i s none (eaMoved ea) none (1 + before + ea.extWords sz))
    (flags : ∀ D, FlagsKept (i.affects s) s.ccr (flag D)) (h : testEa i sz ea before s flag = .next t) :
    Framed i s t := by
  obtain ⟨-, -, fits, rfl⟩ := testEa_eq_next.1 h
  exact declared.framed fits (flags _) (fun r _ => by rw [eaAfter_d]) (fun r hr => eaAfter_a hr) (by simp [MemoryAfter])

theorem framed_extended {form : XForm} {dst src : RegNum} {alu : BitVec sz.bits → BitVec sz.bits → Effect sz.bits}
    {stop : BitVec sz.bits → BitVec sz.bits → Option Stop}
    (declared : Declared i s (form.dataReg dst) (form.moved dst src) (extendedStored sz form dst src s) 1)
    (flags : ∀ S D, FlagsKept (i.affects s) s.ccr (alu S D).ccr)
    (h : extended sz form dst src s alu stop = .next t) : Framed i s t := by
  cases form with
  | data =>
    obtain ⟨-, fits, rfl⟩ := extended_data_eq_next.1 h
    refine declared.framed fits (flags _ _) (fun r hr => ?_) (fun r _ => rfl) rfl
    exact (setDLow_getElem s sz dst r _).trans (if_neg fun e => hr (by rw [e]; rfl))
  | predec =>
    obtain ⟨-, -, -, -, -, hstore, fits, rfl⟩ := extended_predec_eq_next.1 h
    refine declared.framed fits (flags _ _) (fun r _ => rfl) (fun r hr => ?_) ⟨sz, _, rfl, hstore, rfl⟩
    have hmoved : src ≠ r ∧ dst ≠ r := by
      constructor <;> rintro rfl <;> simp [XForm.moved] at hr
    calc (predec sz dst (predec sz src s)).a[r]
        = (predec sz src s).a[r] := (predec_getElem _ sz dst r).trans (if_neg hmoved.2)
      _ = s.a[r] := (predec_getElem s sz src r).trans (if_neg hmoved.1)

theorem framed_oneWord {dn : RegNum} {v : Long} {f : CCR} {spent : Nat} (declared : Declared i s (some dn) [] none 1)
    (flags : FlagsKept (i.affects s) s.ccr f)
    (h : check (pcStop 1 s) (.next ((s.setD dn v).finish f spent 1)) = .next t) : Framed i s t := by
  obtain ⟨fits, ht⟩ := check_eq_next.1 h
  obtain rfl := Host.Outcome.next.inj ht
  refine declared.framed fits flags (fun r hr => ?_) (fun r _ => rfl) rfl
  exact (setD_getElem s dn r v).trans (if_neg fun e => hr (by rw [e]))

theorem framed_branch {c : Cond} {k : Disp → Instr} {disp : Disp} (isBranch : bccOf c = some k) (eq : i = k disp)
    (declared : Declared i s none [] none (1 + disp.extWords)) (h : branch i c disp s = .next t) : Framed i s t := by
  have frame (p : Long) : Frame i.destD i.movedA (i.stored s) (i.affects s) s { s with pc := p } := by
    rw [declared.dest, declared.moved, declared.stored]
    exact ⟨fun _ _ => rfl, fun _ _ => rfl, rfl, le_rfl, rfl, flagsKept_refl _ _⟩
  obtain ⟨-, ⟨htest, heven, rfl⟩ | ⟨-, fits, rfl⟩⟩ := branch_eq_next.1 h
  · exact ⟨frame _, .inr ⟨c, k, disp, isBranch, eq, htest, rfl, heven⟩⟩
  · exact ⟨frame _, .inl ⟨_, declared.length, pcStop_eq_none.1 fits, rfl⟩⟩

/-- MOVE: every way to a next state. -/
theorem execMove_eq_next {src dst : Ea} :
    execMove sz src dst s = .next t ↔
      (Instr.move sz src dst).wf = true ∧ eaReadStop sz src 0 s = none ∧
        eaWriteStop sz dst (src.extWords sz) (eaAfter sz src s) = none ∧
        pcStop (1 + src.extWords sz + dst.extWords sz) s = none ∧
        (eaWrite sz dst (src.extWords sz) (eaRead sz src 0 s) (eaAfter sz src s)).finish
          (logicFlags s.ccr (eaRead sz src 0 s)) 0 (1 + src.extWords sz + dst.extWords sz) = t := by
  simp only [execMove, check_eq_next, formStop_eq_none, Host.Outcome.next.injEq]

theorem framed_move {src dst : Ea} (h : exec (.move sz src dst) s = .next t) : Framed (.move sz src dst) s t := by
  obtain ⟨-, -, hw, fits, rfl⟩ := execMove_eq_next.1 h
  have declared : Declared (.move sz src dst) s (eaDataReg dst) (eaMoved src ++ eaMoved dst)
      (eaStored sz dst (src.extWords sz) (eaAfter sz src s)) (1 + src.extWords sz + dst.extWords sz) :=
    ⟨rfl, rfl, rfl, fun _ => by simp only [encode, List.length_cons, List.length_append, length_encoding]; omega⟩
  refine declared.framed fits (flagsKept_allButX rfl) (fun r hr => ?_) (fun r hr => ?_) ?_
  · rw [eaWrite_d hr, eaAfter_d]
  · rw [List.mem_append, not_or] at hr
    rw [eaWrite_a, eaAfter_a hr.2, eaAfter_a hr.1]
  · have hmem := eaWrite_mem (v := eaRead sz src 0 s) hw
    revert hmem
    cases eaStored sz dst (src.extWords sz) (eaAfter sz src s) with
    | none => exact fun hmem => hmem.trans (eaAfter_mem s sz src)
    | some p =>
      rintro ⟨z, v, hn, hstop, hmem⟩
      exact ⟨z, v, hn, (storeStop_congr (eaAfter_cfg s sz src) z _).symm.trans hstop,
        hmem.trans (by simp [memWrite])⟩

theorem framed_chk {dn : RegNum} (h : exec (.chk sz dn ea) s = .next t) : Framed (.chk sz dn ea) s t := by
  simp only [exec, execChk, check_eq_next, Host.Outcome.next.injEq] at h
  obtain ⟨-, -, -, fits, rfl⟩ := h
  have declared : Declared (.chk sz dn ea) s none (eaMoved ea) none (1 + ea.extWords sz) :=
    ⟨rfl, rfl, rfl, fun _ => length_cons_ea _ _ _⟩
  exact declared.framed fits (flagsKept_allButX rfl) (fun r _ => by rw [eaAfter_d]) (fun r hr => eaAfter_a hr)
    (by simp [MemoryAfter])

theorem chk2Result_x (isAddr : Bool) (reg : RegNum) : (chk2Result sz isAddr reg ea s).x = s.ccr.x := by
  cases isAddr <;> rfl

theorem framed_chk2 {isAddr : Bool} {reg : RegNum} (h : exec (.chk2 sz isAddr reg ea) s = .next t) :
    Framed (.chk2 sz isAddr reg ea) s t := by
  simp only [exec, execChk2, check_eq_next, Host.Outcome.next.injEq] at h
  obtain ⟨-, -, -, -, -, -, -, fits, rfl⟩ := h
  have declared : Declared (.chk2 sz isAddr reg ea) s none [] none (2 + ea.extWords sz) :=
    ⟨rfl, rfl, rfl, fun _ => length_cons_cons_ea _ _ _ _⟩
  exact declared.framed fits (flagsKept_allButX (chk2Result_x isAddr reg)) (fun _ _ => rfl) (fun _ _ => rfl) rfl

theorem framed_cmpm {dst src : RegNum} (h : exec (.cmpm sz dst src) s = .next t) : Framed (.cmpm sz dst src) s t := by
  simp only [exec, execCmpm, check_eq_next, Host.Outcome.next.injEq] at h
  obtain ⟨-, -, -, -, fits, rfl⟩ := h
  have declared : Declared (.cmpm sz dst src) s none [src, dst] none 1 := ⟨rfl, rfl, rfl, fun _ => rfl⟩
  refine declared.framed fits (flagsKept_allButX rfl) (fun _ _ => rfl) (fun r hr => ?_) rfl
  have hmoved : src ≠ r ∧ dst ≠ r := by
    constructor <;> rintro rfl <;> simp at hr
  calc (postinc sz dst (postinc sz src s)).a[r]
      = (postinc sz src s).a[r] := (postinc_getElem _ sz dst r).trans (if_neg hmoved.2)
    _ = s.a[r] := (postinc_getElem s sz src r).trans (if_neg hmoved.1)

end Operations

/-- Every instruction that answers a next state has its frame, and its pc. -/
theorem exec_framed {i : Instr} {s t : State} (h : exec i s = .next t) : Framed i s t := by
  cases shaped i s with
  | toDn sz dn ea before alu stop absent why runs declared flags =>
    exact framed_eaToDn declared flags (check_eq_next.1 (runs ▸ h)).2
  | modify sz ea before alu stop runs declared flags => exact framed_modifyEa declared flags (runs ▸ h)
  | store sz ea v f runs declared flags => exact framed_storeEa declared flags (runs ▸ h)
  | test sz ea before flag runs declared flags => exact framed_testEa declared flags (runs ▸ h)
  | extended sz form dst src alu stop runs wf declared flags => exact framed_extended declared flags (runs ▸ h)
  | oneWord dn v f spent runs wf declared flags => exact framed_oneWord declared flags (runs ▸ h)
  | branch c k disp isBranch eq runs declared => exact framed_branch isBranch eq declared (runs ▸ h)
  | move sz src dst eq => subst eq; exact framed_move h
  | chk sz dn ea eq => subst eq; exact framed_chk h
  | chk2 sz isAddr reg ea eq => subst eq; exact framed_chk2 h
  | cmpm sz dst src eq => subst eq; exact framed_cmpm h

/-! ### Memory and the pc after an instruction -/

section Consequences
variable {s t : State} {stored : Option (Long × Nat)}

/-- Every byte outside the operand stored reads as before. -/
theorem MemoryAfter.read_outside (h : MemoryAfter stored s t) {y : Nat}
    (hy : ∀ (addr : Long) (k : Nat), stored = some (addr, k) → y < addr.toNat ∨ addr.toNat + k ≤ y) :
    t.mem.read y = s.mem.read y := by
  cases stored with
  | none => rw [show t.mem = s.mem from h]
  | some p =>
    obtain ⟨sz, v, hn, -, hmem⟩ := h
    rw [hmem]
    exact memWrite_read_outside sz p.1 v s y (hn ▸ hy p.1 p.2 rfl)

/-- Memory stays canonical. -/
theorem MemoryAfter.wf (h : MemoryAfter stored s t) (hs : s.mem.wf = true) : t.mem.wf = true := by
  cases stored with
  | none => rwa [show t.mem = s.mem from h]
  | some p =>
    obtain ⟨sz, v, -, -, hmem⟩ := h
    rw [hmem]
    exact wf_memWrite sz p.1 v hs

/-- No byte of the program text changes: a store into it is refused. -/
theorem MemoryAfter.read_text (h : MemoryAfter stored s t) {a : Nat} (ha : inRegion s.cfg.text a = true) :
    t.mem.read a = s.mem.read a := by
  refine h.read_outside fun addr k hk => ?_
  subst hk
  obtain ⟨sz, v, rfl, hstop, -⟩ := h
  by_contra hin
  have := (storeStop_eq_none.1 hstop).2 (a - addr.toNat) (by omega)
  rw [Nat.add_sub_cancel' (by omega), ha] at this
  cases this

/-- The pc after an instruction of `words` words, as a number. -/
theorem State.pcPast_toNat {words : Nat} (h : s.fits words) : (s.pcPast words).toNat = s.pc.toNat + 2 * words := by
  rw [State.pcPast, BitVec.toNat_add_of_lt] <;> simp [BitVec.toNat_ofNat] <;> omega

/-- The pc stays even. -/
theorem PcAfter.even {i : Instr} (h : PcAfter i s t) (hs : s.pc.toNat % 2 = 0) : t.pc.toNat % 2 = 0 := by
  obtain ⟨words, -, fits, hpc⟩ | ⟨c, k, disp, -, -, -, -, heven⟩ := h
  · rw [hpc, State.pcPast_toNat fits]
    omega
  · exact heven

end Consequences

/-! ### The obligations -/

/-- Settles O4: the registers of the frame. -/
theorem registerFrame : Obligations.RegisterFrame := by
  intro i s t h
  obtain ⟨frame, -⟩ := exec_framed h
  exact ⟨frame.d, frame.a, frame.cfg, frame.draws⟩

/-- Settles O5: the memory of the frame. -/
theorem memoryFrame : Obligations.MemoryFrame := fun _ _ _ h _ hy => (exec_framed h).1.mem.read_outside hy

/-- Settles O6: the condition codes of the frame. -/
theorem flagFrame : Obligations.FlagFrame := fun _ _ _ h => (exec_framed h).1.ccr

/-- Settles O2: a step executes one instruction, which keeps memory canonical and the pc even. -/
theorem stepKeepsTheInvariant : Obligations.StepKeepsTheInvariant := by
  intro s t hs h
  obtain ⟨i, -, hi⟩ := step_eq_next.1 h
  obtain ⟨frame, pc⟩ := exec_framed hi
  simp only [State.inv, Bool.and_eq_true, beq_iff_eq] at hs ⊢
  exact ⟨⟨frame.mem.wf hs.1, pc.even hs.2⟩, frame.cfg⟩

/-- Settles O3: a step executes one instruction, and no instruction stores into the text. -/
theorem textIsNeverChanged : Obligations.TextIsNeverChanged := by
  intro s t h a ha
  obtain ⟨i, -, hi⟩ := step_eq_next.1 h
  exact (exec_framed hi).1.mem.read_text ha

/-- An instruction that is not well formed is refused by its check of the form. -/
theorem check_formStop_refused {i : Instr} (h : i.wf = false) (k : Result) :
    check (formStop i) k = .refused .noSuchForm := by
  simp [formStop, refuseIf, h, Stop.outcome]

/-- A refusal follows a check that can only refuse. -/
theorem check_refuseIf_refused {b : Bool} {r : Refusal} {k : Result} (h : ∃ q, k = .refused q) :
    ∃ q, check (refuseIf b r) k = .refused q := by
  cases b with
  | false => exact h
  | true => exact ⟨r, rfl⟩

/-- Settles O12: the shared operations check the form first, but for a parameter that leaves the instruction out, which
refuses as well; the instructions without `<ea>` are always well formed. -/
theorem illFormedIsRefused : Obligations.IllFormedIsRefused := by
  intro i s h
  have form (k : Result) : ∃ r, check (formStop i) k = .refused r := ⟨_, check_formStop_refused h k⟩
  cases shaped i s with
  | toDn sz dn ea before alu stop absent why runs declared flags => exact runs ▸ check_refuseIf_refused (form _)
  | modify sz ea before alu stop runs declared flags => exact runs ▸ form _
  | store sz ea v f runs declared flags => exact runs ▸ form _
  | test sz ea before flag runs declared flags => exact runs ▸ form _
  | extended sz form dst src alu stop runs wf declared flags => simp [h] at wf
  | oneWord dn v f spent runs wf declared flags => simp [h] at wf
  | branch c k disp isBranch eq runs declared => exact runs ▸ form _
  | move sz src dst eq => subst eq; exact form _
  | chk sz dn ea eq => subst eq; exact form _
  | chk2 sz isAddr reg ea eq => subst eq; exact check_refuseIf_refused (form _)
  | cmpm sz dst src eq => subst eq; cases h

end Sys2Proof.Machine
end

section
/-! PROOFS. The decoder undoes the encoder (30_encoding.md section 5): first the fields of an operation word and the
extension words of each operand form, then the families of instructions by their lines, then all constructors. -/

namespace Sys2Proof.Machine

/-! ### Fields of an operation word -/

@[simp] theorem regOf_val (r : RegNum) : regOf r.val = r := Fin.ext (Nat.mod_eq_of_lt r.isLt)

@[simp] theorem sized_field (op : Word) (sz : Size) (k : Size → Dec Instr) : sized op sz.field k = k sz := by
  cases sz <;> rfl

@[simp] theorem condOf_field (c : Cond) : condOf c.field = c := by cases c <;> rfl

theorem condField_lt (c : Cond) : c.field < 16 := by cases c <;> decide

theorem modeField_lt (ea : Ea) : ea.modeField < 8 := by
  cases ea <;> simp only [Ea.modeField] <;> omega

theorem regField_lt (ea : Ea) : ea.regField < 8 := by
  cases ea <;> simp only [Ea.regField] <;> omega

/-- What an operation word's fields decode to, where the form is well formed, the words decode to. -/
theorem decode_of_fields {op : Word} {ws rest : List Word} {i : Instr}
    (h : decodeFields op (op.toNat / 4096) (op.toNat / 512 % 8) (op.toNat / 64 % 8) (op.toNat / 8 % 8)
      (op.toNat % 8) ws = .ok (i, rest)) (wf : i.wf = true) : decode (op :: ws) = .ok (i, rest) := by
  simp only [decode, h, wf, if_true]

/-- The operation word of five fields has these fields. -/
theorem decode_opWord {line r9 opm mode reg : Nat} {ws rest : List Word} {i : Instr} (hline : line < 16) (hr9 : r9 < 8)
    (hopm : opm < 8) (hmode : mode < 8) (hreg : reg < 8)
    (h : decodeFields (opWord line r9 opm (mode * 8 + reg)) line r9 opm mode reg ws = .ok (i, rest))
    (wf : i.wf = true) : decode (opWord line r9 opm (mode * 8 + reg) :: ws) = .ok (i, rest) := by
  refine decode_of_fields ?_ wf
  have hop : (opWord line r9 opm (mode * 8 + reg)).toNat = line * 4096 + r9 * 512 + opm * 64 + (mode * 8 + reg) := by
    rw [opWord, BitVec.toNat_ofNat, Nat.mod_eq_of_lt (by omega)]
  rw [hop]
  convert h using 2 <;> omega

/-! ### Operands -/

/-- The operand's extension words hold it: an immediate is no wider than the size. -/
def Encodable (sz : Size) : Ea → Prop
  | .imm v => immFits sz v = true
  | _ => True

section Operands
variable {sz : Size} {ea : Ea} {op : Word} {rest : List Word}

theorem encodable_of_admitsAll (h : ea.admitsAll sz = true) : Encodable sz ea := by
  cases ea with
  | imm v => exact h
  | _ => trivial

theorem encodable_of_admitsData (h : ea.admitsData sz = true) : Encodable sz ea := by
  cases ea with
  | imm v => exact h
  | _ => trivial

theorem encodable_of_admitsDataAddressable (h : ea.admitsDataAddressable = true) : Encodable sz ea := by
  cases ea with
  | imm v => cases h
  | _ => trivial

theorem encodable_of_admitsDataAlterable (h : ea.admitsDataAlterable = true) : Encodable sz ea := by
  cases ea with
  | imm v => cases h
  | _ => trivial

theorem encodable_of_admitsMemoryAlterable (h : ea.admitsMemoryAlterable = true) : Encodable sz ea := by
  cases ea with
  | imm v => cases h
  | _ => trivial

theorem encodable_of_admitsControl (h : ea.admitsControl = true) : Encodable sz ea := by
  cases ea with
  | imm v => cases h
  | _ => trivial

/-- Mode 001 is no data alterable mode: what EOR encodes is no CMPM. -/
theorem modeField_ne_one (h : ea.admitsDataAlterable = true) : ea.modeField ≠ 1 := by
  cases ea with
  | an r => cases h
  | _ => simp [Ea.modeField]

/-- Modes 000 and 001 are no memory alterable modes: what ADD, SUB, AND and OR to `<ea>` encode is no extended
instruction. -/
theorem two_le_modeField (h : ea.admitsMemoryAlterable = true) : ¬ ea.modeField < 2 := by
  cases ea with
  | dn r => cases h
  | an r => cases h
  | _ => simp [Ea.modeField]

theorem longWords_append (v : Long) : v.extractLsb' 16 16 ++ v.setWidth 16 = v := by
  apply BitVec.eq_of_toNat_eq
  rw [BitVec.toNat_append, BitVec.extractLsb'_toNat, BitVec.toNat_setWidth,
    ← Nat.shiftLeft_add_eq_or_of_lt (Nat.mod_lt _ (by decide)), Nat.shiftRight_eq_div_pow, Nat.shiftLeft_eq]
  omega

@[simp] theorem takeLong_longWords (v : Long) : takeLong (longWords v ++ rest) = .ok (v, rest) := by
  simp [longWords, takeLong, longWords_append]

/-- An immediate that fits its size is read back from its words. -/
theorem takeImm_immEncoding {v : Long} (h : immFits sz v = true) :
    takeImm sz (immEncoding sz v ++ rest) = .ok (v, rest) := by
  have hv : v.toNat < 2 ^ sz.bits := by simpa [immFits] using h
  cases sz with
  | byte =>
    have hback : (((v.setWidth 8).setWidth 16).setWidth 8).setWidth 32 = v := by
      apply BitVec.eq_of_toNat_eq
      simp only [Size.bits] at hv
      simp only [BitVec.toNat_setWidth]
      omega
    simp only [immEncoding, takeImm, List.cons_append, List.nil_append, takeWord, Dec.andThen, hback]
  | word =>
    have hback : (v.setWidth 16).setWidth 32 = v := by
      apply BitVec.eq_of_toNat_eq
      simp only [Size.bits] at hv
      simp only [BitVec.toNat_setWidth]
      omega
    simp only [immEncoding, takeImm, List.cons_append, List.nil_append, takeWord, Dec.andThen, hback]
  | long => exact takeLong_longWords v

/-- The index word's four fields and its three zero bits. -/
theorem decodeIndex_encodeIndex (ix : Index) : decodeIndex (encodeIndex ix) = some ix := by
  obtain ⟨isAddr, reg, isLong, disp⟩ := ix
  have hreg := reg.isLt
  have hdisp := disp.isLt
  have haddr := isAddr.toNat_le
  have hlong := isLong.toNat_le
  have hn : (encodeIndex ⟨isAddr, reg, isLong, disp⟩).toNat =
      isAddr.toNat * 32768 + reg * 4096 + isLong.toNat * 2048 + disp.toNat := by
    simp only [encodeIndex, BitVec.toNat_ofNat]
    omega
  have h1 : (decide ((encodeIndex ⟨isAddr, reg, isLong, disp⟩).toNat / 32768 % 2 = 1)) = isAddr := by
    rw [hn]
    cases isAddr <;> simp <;> omega
  have h2 : regOf ((encodeIndex ⟨isAddr, reg, isLong, disp⟩).toNat / 4096) = reg := by
    apply Fin.ext
    simp only [regOf, hn]
    omega
  have h3 : (decide ((encodeIndex ⟨isAddr, reg, isLong, disp⟩).toNat / 2048 % 2 = 1)) = isLong := by
    rw [hn]
    cases isLong <;> simp <;> omega
  have h4 : (encodeIndex ⟨isAddr, reg, isLong, disp⟩).setWidth 8 = disp := by
    apply BitVec.eq_of_toNat_eq
    rw [BitVec.toNat_setWidth, hn]
    omega
  rw [decodeIndex, if_pos (by rw [hn]; omega), h1, h2, h3, h4]

theorem takeIndex_encodeIndex (ix : Index) : takeIndex op (encodeIndex ix :: rest) = .ok (ix, rest) := by
  simp [takeIndex, takeWord, Dec.andThen, decodeIndex_encodeIndex]

/-- An effective address is read back from its fields and its extension words. -/
theorem decodeEa_encoding (h : Encodable sz ea) :
    decodeEa op sz ea.modeField ea.regField (ea.encoding sz ++ rest) = .ok (ea, rest) := by
  cases ea with
  | imm v => simp [Ea.modeField, Ea.regField, Ea.encoding, decodeEa, takeImm_immEncoding h, Dec.andThen]
  | index r ix => simp [Ea.modeField, Ea.regField, Ea.encoding, decodeEa, takeIndex_encodeIndex, Dec.andThen]
  | pcIndex ix => simp [Ea.modeField, Ea.regField, Ea.encoding, decodeEa, takeIndex_encodeIndex, Dec.andThen]
  | _ => simp [Ea.modeField, Ea.regField, Ea.encoding, decodeEa, takeWord, Dec.andThen]

theorem withEa_encoding (h : Encodable sz ea) (k : Ea → Instr) :
    withEa op sz ea.modeField ea.regField (ea.encoding sz ++ rest) k = .ok (k ea, rest) := by
  simp [withEa, decodeEa_encoding h, Dec.andThen]

theorem withImmEa_encoding {imm : Long} (himm : immFits sz imm = true) (h : Encodable sz ea) (k : Long → Ea → Instr) :
    withImmEa op sz ea.modeField ea.regField (immEncoding sz imm ++ (ea.encoding sz ++ rest)) k =
      .ok (k imm ea, rest) := by
  simp [withImmEa, takeImm_immEncoding himm, decodeEa_encoding h, Dec.andThen]

theorem withBitEa_encoding {bit : Byte} (h : Encodable .byte ea) (k : Byte → Ea → Instr) :
    withBitEa op ea.modeField ea.regField (bit.setWidth 16 :: (ea.encoding .byte ++ rest)) k =
      .ok (k bit ea, rest) := by
  have hbit : (bit.setWidth 16).setWidth 8 = bit := by
    apply BitVec.eq_of_toNat_eq
    simp only [BitVec.toNat_setWidth]
    omega
  simp [withBitEa, takeWord, decodeEa_encoding h, Dec.andThen, hbit]

end Operands

end Sys2Proof.Machine
end

section
/-! PROOFS. Decoding the encoding of every instruction (30_encoding.md section 5.3, 48_conditional_tests.md section 4):
the families of instructions first, each with what its line of the decoder does with the fields, then all
constructors. -/

namespace Sys2Proof.Machine

/-! ### Families of encodings -/

section Families
variable {sz : Size} {ea : Ea} {rest : List Word} {i : Instr}

/-- One operation word and the extension words of one effective address. -/
theorem decode_oneEa {line r9 opm : Nat} (k : Ea → Instr) (wf : (k ea).wf = true) (enc : Encodable sz ea)
    (fields : ∀ op ws, decodeFields op line r9 opm ea.modeField ea.regField ws =
      withEa op sz ea.modeField ea.regField ws k)
    (hline : line < 16 := by decide) (hr9 : r9 < 8 := by omega) (hopm : opm < 8 := by omega) :
    decode (opWord line r9 opm ea.field :: ea.encoding sz ++ rest) = .ok (k ea, rest) :=
  decode_opWord hline hr9 hopm (modeField_lt ea) (regField_lt ea) ((fields _ _).trans (withEa_encoding enc k)) wf

theorem sizeField_lt (sz : Size) : sz.field < 3 := by cases sz <;> decide

/-- One operation word, the words of an immediate and of one effective address. -/
theorem decode_encodeImmediate {r9 : Nat} {imm : Long} (k : Size → Long → Ea → Instr) (wf : (k sz imm ea).wf = true)
    (form : wfImmediate sz imm ea = true ∨ immFits sz imm = true ∧ ea.admitsDataAddressable = true)
    (fields : ∀ op sz mode reg ws, decodeFields op 0 r9 (Size.field sz) mode reg ws =
      withImmEa op sz mode reg ws (k sz))
    (hr9 : r9 < 8 := by decide) : decode (encodeImmediate r9 sz imm ea ++ rest) = .ok (k sz imm ea, rest) := by
  have hform : immFits sz imm = true ∧ Encodable sz ea := by
    rcases form with h | h
    · rw [wfImmediate, Bool.and_eq_true] at h
      exact ⟨h.1, encodable_of_admitsDataAlterable h.2⟩
    · exact ⟨h.1, encodable_of_admitsDataAddressable h.2⟩
  have hopm := sizeField_lt sz
  rw [encodeImmediate, List.cons_append, List.append_assoc]
  exact decode_opWord (by decide) hr9 (by omega) (modeField_lt ea) (regField_lt ea)
    ((fields _ _ _ _ _).trans (withImmEa_encoding hform.1 hform.2 _)) wf

/-- One operation word, a bit number and the words of one effective address. -/
theorem decode_encodeBitImm {opm : Nat} {bit : Byte} (k : Byte → Ea → Instr) (wf : (k bit ea).wf = true)
    (enc : Encodable .byte ea)
    (fields : ∀ op mode reg ws, decodeFields op 0 4 opm mode reg ws = withBitEa op mode reg ws k)
    (hopm : opm < 8 := by decide) : decode (encodeBitImm opm bit ea ++ rest) = .ok (k bit ea, rest) :=
  decode_opWord (by decide) (by decide) hopm (modeField_lt ea) (regField_lt ea)
    ((fields _ _ _ _).trans (withBitEa_encoding enc k)) wf

/-- ADD, SUB, AND and OR in both directions: Opmodes 000 to 010, and 100 to 110 with a mode that is not a register. -/
theorem decode_encodeOpmode {line : Nat} {dir : Dir} {dn : RegNum} (k : Size → Dir → RegNum → Ea → Instr)
    (wf : (k sz dir dn ea).wf = true) (form : wfArith sz dir ea = true ∨ wfLogic sz dir ea = true)
    (toDn : ∀ op sz mode reg ws, decodeFields op line dn (Size.field sz) mode reg ws =
      withEa op sz mode reg ws (k sz .toDn dn))
    (toEa : ∀ op sz mode reg ws, ¬ mode < 2 → decodeFields op line dn (4 + Size.field sz) mode reg ws =
      withEa op sz mode reg ws (k sz .toEa dn))
    (hline : line < 16 := by decide) :
    decode (encodeOpmode line sz dir dn ea ++ rest) = .ok (k sz dir dn ea, rest) := by
  have hopm := sizeField_lt sz
  cases dir with
  | toDn =>
    have enc : Encodable sz ea := form.elim encodable_of_admitsAll encodable_of_admitsData
    rw [encodeOpmode, show Dir.toDn.field * 4 + sz.field = sz.field by simp [Dir.field]]
    exact decode_oneEa _ wf enc (fun op ws => toDn op sz _ _ ws) hline
  | toEa =>
    have form : ea.admitsMemoryAlterable = true := form.elim id id
    exact decode_oneEa _ wf (encodable_of_admitsMemoryAlterable form)
      (fun op ws => toEa op sz _ _ ws (two_le_modeField form)) hline dn.isLt (by simp only [Dir.field]; omega)

/-- ABCD, SBCD, ADDX and SUBX: the form bit as the mode field. -/
theorem decode_encodeExtended {line opm : Nat} {form : XForm} {dst src : RegNum} (wf : i.wf = true)
    (fields : ∀ op ws, decodeFields op line dst opm form.field src ws = .ok (i, ws))
    (hline : line < 16 := by decide) (hopm : opm < 8 := by decide) :
    decode (encodeExtended line opm form dst src ++ rest) = .ok (i, rest) :=
  decode_opWord hline dst.isLt hopm (by cases form <;> decide) src.isLt (fields _ _) wf

/-- One operation word with a register in its lowest field. -/
theorem decode_oneWord {line r9 opm mode : Nat} {reg : RegNum}
    (h : decodeFields (opWord line r9 opm (mode * 8 + reg)) line r9 opm mode reg rest = .ok (i, rest))
    (wf : i.wf = true)
    (hline : line < 16 := by decide) (hr9 : r9 < 8 := by omega) (hopm : opm < 8 := by omega)
    (hmode : mode < 8 := by decide) : decode ([opWord line r9 opm (mode * 8 + reg)] ++ rest) = .ok (i, rest) :=
  decode_opWord hline hr9 hopm hmode reg.isLt h wf

/-- EXT: mode 000 of NBCD's row. -/
theorem decode_encodeExt {opm : Nat} {dn : RegNum}
    (h : decodeFields (opWord 4 4 opm dn) 4 4 opm 0 dn rest = .ok (i, rest)) (wf : i.wf = true)
    (hopm : opm < 8 := by decide) : decode ([opWord 4 4 opm dn] ++ rest) = .ok (i, rest) := by
  have hmode : 0 * 8 + dn.val = dn := by omega
  have := decode_oneWord (i := i) (rest := rest) (line := 4) (r9 := 4) (mode := 0) (by rw [hmode]; exact h) wf
  rwa [hmode] at this

/-- A register shift: bits 5 to 3 hold the kind of count and of shift. -/
theorem decode_encodeShiftReg (tt : Fin 4) (left : Bool) {count : ShiftCount} {dn : RegNum}
    (wf : (shiftRegOf tt left sz count dn).wf = true) :
    decode (encodeShiftReg tt left.toNat sz count dn ++ rest) = .ok (shiftRegOf tt left sz count dn, rest) := by
  have hfield : count.field < 8 ∧ count.kindField < 2 := by
    cases count <;> simp only [ShiftCount.field, ShiftCount.kindField] <;> omega
  have hopm := sizeField_lt sz
  have hleft := left.toNat_le
  have htt := tt.isLt
  rw [encodeShiftReg, List.cons_append, List.nil_append,
    show count.kindField * 32 + tt * 8 + dn = (count.kindField * 4 + tt) * 8 + dn by omega]
  refine decode_opWord (by decide) hfield.1 (by omega) (by omega) dn.isLt ?_ wf
  have hsize : (left.toNat * 4 + sz.field) % 4 = sz.field := by omega
  have hkind : (count.kindField * 4 + tt) % 4 = tt := by omega
  have hcount : (if (count.kindField * 4 + tt.val) / 4 = 1 then ShiftCount.reg (regOf count.field)
      else .imm (regOf count.field)) = count := by
    cases count with
    | imm c => rw [if_neg (by simp only [ShiftCount.kindField]; omega)]; exact congrArg _ (regOf_val c)
    | reg r => rw [if_pos (by simp only [ShiftCount.kindField]; omega)]; exact congrArg _ (regOf_val r)
  have hdir : decide (4 ≤ left.toNat * 4 + sz.field) = left := by
    cases left
    · simpa using by omega
    · simp
  simp only [decodeFields, decodeLineE, hsize, if_neg (show sz.field ≠ 3 by omega), sized_field, hkind, hcount, hdir,
    regOf_val]

/-- A memory shift. -/
theorem decode_encodeShiftMem (tt : Fin 4) (left : Bool) (wf : (shiftMemOf tt left ea).wf = true)
    (form : ea.admitsMemoryAlterable = true) :
    decode (encodeShiftMem tt left.toNat ea ++ rest) = .ok (shiftMemOf tt left ea, rest) := by
  have htt := tt.isLt
  refine decode_oneEa (shiftMemOf tt left) wf (encodable_of_admitsMemoryAlterable form) (fun op ws => ?_) (by decide)
    (by omega) (by cases left <;> decide)
  cases left <;> simp [decodeFields, decodeLineE, htt]

/-- A conditional branch: the 8-bit displacement is not zero, so that it is no sign of a displacement word. -/
theorem decode_encodeBcc {c : Cond} {k : Disp → Instr} {disp : Disp} (isBranch : bccOf c = some k)
    (wf : (k disp).wf = true) (form : wfDisp disp = true) :
    decode (encodeBcc c disp ++ rest) = .ok (k disp, rest) := by
  have hc := condField_lt c
  cases disp with
  | byte d =>
    have hd := d.isLt
    have hne : d.toNat ≠ 0 := fun h0 => by
      rw [wfDisp, bne_iff_ne] at form
      exact form (BitVec.eq_of_toNat_eq h0)
    have hop : (BitVec.ofNat 16 (6 * 4096 + c.field * 256 + d.toNat)).toNat = 6 * 4096 + c.field * 256 + d.toNat := by
      rw [BitVec.toNat_ofNat, Nat.mod_eq_of_lt (by omega)]
    have hlow : (BitVec.ofNat 16 (6 * 4096 + c.field * 256 + d.toNat)).setWidth 8 = d := by
      apply BitVec.eq_of_toNat_eq
      rw [BitVec.toNat_setWidth, hop]
      omega
    refine decode_of_fields ?_ wf
    have hline : (6 * 4096 + c.field * 256 + d.toNat) / 4096 = 6 := by omega
    have hcond : (6 * 4096 + c.field * 256 + d.toNat) / 256 % 16 = c.field := by omega
    simp only [hop, hline, decodeFields, decodeLine6, hcond, condOf_field, isBranch, hlow]
    exact if_neg (by omega)
  | word d =>
    have hop : (BitVec.ofNat 16 (6 * 4096 + c.field * 256)).toNat = 6 * 4096 + c.field * 256 := by
      rw [BitVec.toNat_ofNat, Nat.mod_eq_of_lt (by omega)]
    refine decode_of_fields ?_ wf
    have hline : (6 * 4096 + c.field * 256) / 4096 = 6 := by omega
    have hcond : (6 * 4096 + c.field * 256) / 256 % 16 = c.field := by omega
    simp only [hop, hline, decodeFields, decodeLine6, hcond, condOf_field, isBranch]
    exact if_pos (by omega)

/-- A set instruction: the condition's upper three bits are the Register field, its lowest the direction bit. -/
theorem decode_encodeScc (c : Cond) (wf : (sccOf c ea).wf = true) (form : ea.admitsDataAlterable = true) :
    decode (encodeScc c ea ++ rest) = .ok (sccOf c ea, rest) := by
  have hc := condField_lt c
  have hop : BitVec.ofNat 16 (5 * 4096 + c.field * 256 + 192 + ea.field) =
      opWord 5 (c.field / 2) (c.field % 2 * 4 + 3) ea.field := congrArg _ (by omega)
  rw [encodeScc, hop]
  refine decode_oneEa (sccOf c) wf (encodable_of_admitsDataAlterable form) (fun op ws => ?_)
  cases c <;> rfl

/-- MOVEQ: the data in the low byte. -/
theorem decode_moveq (dn : RegNum) (data : Byte) :
    decode (encode (.moveq dn data) ++ rest) = .ok (.moveq dn data, rest) := by
  have hdn := dn.isLt
  have hdata := data.isLt
  have hop : (BitVec.ofNat 16 (7 * 4096 + dn * 512 + data.toNat)).toNat = 7 * 4096 + dn * 512 + data.toNat := by
    rw [BitVec.toNat_ofNat, Nat.mod_eq_of_lt (by omega)]
  have hlow : (BitVec.ofNat 16 (7 * 4096 + dn * 512 + data.toNat)).setWidth 8 = data := by
    apply BitVec.eq_of_toNat_eq
    rw [BitVec.toNat_setWidth, hop]
    omega
  refine decode_of_fields ?_ rfl
  have hline : (7 * 4096 + dn * 512 + data.toNat) / 4096 = 7 := by omega
  have hreg : (7 * 4096 + dn * 512 + data.toNat) / 512 % 8 = dn := by omega
  simp only [hop, hline, decodeFields, hreg, regOf_val, hlow]
  exact if_pos (by omega)

/-- MOVE: the destination's mode stands before its register. -/
theorem decode_move {src dst : Ea} (wf : (Instr.move sz src dst).wf = true) :
    decode (encode (.move sz src dst) ++ rest) = .ok (.move sz src dst, rest) := by
  have form : src.admitsAll sz = true ∧ dst.admitsDataAlterable = true := Bool.and_eq_true_iff.1 wf
  rw [encode, List.cons_append, List.append_assoc]
  refine decode_opWord (by cases sz <;> decide) (regField_lt dst) (modeField_lt dst) (modeField_lt src)
    (regField_lt src) ?_ wf
  have hmove (op : Word) : decodeMove op sz dst.regField dst.modeField src.modeField src.regField
      (src.encoding sz ++ (dst.encoding sz ++ rest)) = .ok (.move sz src dst, rest) := by
    simp only [decodeMove, decodeEa_encoding (encodable_of_admitsAll form.1), Dec.andThen,
      decodeEa_encoding (encodable_of_admitsDataAlterable form.2)]
  cases sz <;> exact hmove _

/-- CHK2: the extension word of the register before those of `<ea>`. -/
theorem decode_chk2 {isAddr : Bool} {reg : RegNum} (wf : (Instr.chk2 sz isAddr reg ea).wf = true) :
    decode (encode (.chk2 sz isAddr reg ea) ++ rest) = .ok (.chk2 sz isAddr reg ea, rest) := by
  have hreg := reg.isLt
  have haddr := isAddr.toNat_le
  have hsize := sizeField_lt sz
  have enc : Encodable sz ea := encodable_of_admitsControl wf
  refine decode_opWord (by decide) (by omega) (by decide) (modeField_lt ea) (regField_lt ea) ?_ wf
  have hw : (BitVec.ofNat 16 (isAddr.toNat * 32768 + reg * 4096 + 2048)).toNat =
      isAddr.toNat * 32768 + reg * 4096 + 2048 := by
    rw [BitVec.toNat_ofNat, Nat.mod_eq_of_lt (by omega)]
  have h1 : decide ((isAddr.toNat * 32768 + reg * 4096 + 2048) / 32768 % 2 = 1) = isAddr := by
    cases isAddr <;> simp <;> omega
  have h2 : regOf ((isAddr.toNat * 32768 + reg * 4096 + 2048) / 4096) = reg :=
    Fin.ext (by simp only [regOf]; omega)
  have hchk2 (op : Word) : decodeChk2 op sz ea.modeField ea.regField
      (BitVec.ofNat 16 (isAddr.toNat * 32768 + reg * 4096 + 2048) :: (ea.encoding sz ++ rest)) =
        .ok (.chk2 sz isAddr reg ea, rest) := by
    simp only [decodeChk2, takeWord, Dec.andThen, hw, decodeEa_encoding enc, h1, h2]
    exact if_pos (by omega)
  cases sz <;> simp only [decodeFields, decodeLine0, Size.field, List.append_eq, List.cons_append, hchk2]

end Families

/-! ### All constructors -/

/-- Decoding the encoding of a well-formed instruction gives it back. -/
theorem decode_encode (i : Instr) (rest : List Word) (wf : i.wf = true) (words : encode i ≠ []) :
    decode (encode i ++ rest) = .ok (i, rest) := by
  cases i with
  | abcd form dst src =>
    exact decode_encodeExtended wf fun op ws => by cases form <;> simp [decodeFields, decodeLineC, formOf, XForm.field]
  | add sz dir dn ea =>
    exact decode_encodeOpmode .add wf (.inl wf)
      (fun op sz mode reg ws => by cases sz <;> simp [decodeFields, decodeLineD, Size.field, sized, sizeField])
      fun op sz mode reg ws h => by cases sz <;> simp [decodeFields, decodeLineD, Size.field, sized, sizeField, h]
  | addi sz imm ea => exact decode_encodeImmediate .addi wf (.inl wf) fun op sz _ _ _ => by cases sz <;> rfl
  | addq sz q ea =>
    exact decode_oneEa (.addq sz q) wf (encodable_of_admitsDataAlterable wf)
      (fun op ws => by cases sz <;> simp [decodeFields, decodeLine5, Size.field, sized, sizeField]) (by decide) q.isLt
      (by cases sz <;> decide)
  | addxB form dst src =>
    exact decode_encodeExtended wf fun op ws => by cases form <;> simp [decodeFields, decodeLineD, formOf, XForm.field]
  | addxW form dst src =>
    exact decode_encodeExtended wf fun op ws => by cases form <;> simp [decodeFields, decodeLineD, formOf, XForm.field]
  | addxL form dst src =>
    exact decode_encodeExtended wf fun op ws => by cases form <;> simp [decodeFields, decodeLineD, formOf, XForm.field]
  | and sz dir dn ea =>
    exact decode_encodeOpmode .and wf (.inr wf)
      (fun op sz mode reg ws => by cases sz <;> simp [decodeFields, decodeLineC, Size.field, sized, sizeField])
      fun op sz mode reg ws h => by cases sz <;> simp [decodeFields, decodeLineC, Size.field, sized, sizeField, h]
  | andi sz imm ea => exact decode_encodeImmediate .andi wf (.inl wf) fun op sz _ _ _ => by cases sz <;> rfl
  | eor sz dn ea =>
    have hmode := modeField_ne_one wf
    exact decode_oneEa (.eor sz dn) wf (encodable_of_admitsDataAlterable wf)
      (fun op ws => by cases sz <;> simp [decodeFields, decodeLineB, Size.field, sized, sizeField, hmode]) (by decide)
      dn.isLt (by cases sz <;> decide)
  | eori sz imm ea => exact decode_encodeImmediate .eori wf (.inl wf) fun op sz _ _ _ => by cases sz <;> rfl
  | moveq dn data => exact decode_moveq dn data
  | move sz src dst => exact decode_move wf
  | or sz dir dn ea =>
    exact decode_encodeOpmode .or wf (.inr wf)
      (fun op sz mode reg ws => by cases sz <;> simp [decodeFields, decodeLine8, Size.field, sized, sizeField])
      fun op sz mode reg ws h => by cases sz <;> simp [decodeFields, decodeLine8, Size.field, sized, sizeField, h]
  | ori sz imm ea => exact decode_encodeImmediate .ori wf (.inl wf) fun op sz _ _ _ => by cases sz <;> rfl
  | clr sz ea =>
    exact decode_oneEa (.clr sz) wf (encodable_of_admitsDataAlterable wf) (fun op ws => by cases sz <;> rfl)
      (hopm := by cases sz <;> decide)
  | extW dn => exact decode_encodeExt (opm := 2) (by simp [decodeFields, decodeLine4]) wf
  | extL dn => exact decode_encodeExt (opm := 3) (by simp [decodeFields, decodeLine4]) wf
  | not sz ea =>
    exact decode_oneEa (.not sz) wf (encodable_of_admitsDataAlterable wf) (fun op ws => by cases sz <;> rfl)
      (hopm := by cases sz <;> decide)
  | tas ea => exact decode_oneEa .tas wf (encodable_of_admitsDataAlterable wf) fun op ws => rfl
  | tst sz ea =>
    exact decode_oneEa (.tst sz) wf (encodable_of_admitsAll wf) (fun op ws => by cases sz <;> rfl)
      (hopm := by cases sz <;> decide)
  | chk sz dn ea =>
    have form := Bool.and_eq_true_iff.1 wf
    exact decode_oneEa (.chk sz dn) wf (encodable_of_admitsData form.2)
      (fun op ws => by cases sz <;> simp_all [decodeFields, decodeLine4]) (by decide) dn.isLt (by split <;> decide)
  | chk2 sz isAddr reg ea => exact decode_chk2 wf
  | sub sz dir dn ea =>
    exact decode_encodeOpmode .sub wf (.inl wf)
      (fun op sz mode reg ws => by cases sz <;> simp [decodeFields, decodeLine9, Size.field, sized, sizeField])
      fun op sz mode reg ws h => by cases sz <;> simp [decodeFields, decodeLine9, Size.field, sized, sizeField, h]
  | subi sz imm ea => exact decode_encodeImmediate .subi wf (.inl wf) fun op sz _ _ _ => by cases sz <;> rfl
  | subq sz q ea =>
    exact decode_oneEa (.subq sz q) wf (encodable_of_admitsDataAlterable wf)
      (fun op ws => by cases sz <;> simp [decodeFields, decodeLine5, Size.field, sized, sizeField]) (by decide) q.isLt
      (by cases sz <;> decide)
  | subxB form dst src =>
    exact decode_encodeExtended wf fun op ws => by cases form <;> simp [decodeFields, decodeLine9, formOf, XForm.field]
  | subxW form dst src =>
    exact decode_encodeExtended wf fun op ws => by cases form <;> simp [decodeFields, decodeLine9, formOf, XForm.field]
  | subxL form dst src =>
    exact decode_encodeExtended wf fun op ws => by cases form <;> simp [decodeFields, decodeLine9, formOf, XForm.field]
  | cmpB dn ea =>
    exact decode_oneEa (.cmpB dn) wf (encodable_of_admitsAll wf) (fun op ws => by simp [decodeFields, decodeLineB])
      (hr9 := dn.isLt)
  | cmpW dn ea =>
    exact decode_oneEa (.cmpW dn) wf (encodable_of_admitsAll wf) (fun op ws => by simp [decodeFields, decodeLineB])
      (hr9 := dn.isLt)
  | cmpL dn ea =>
    exact decode_oneEa (.cmpL dn) wf (encodable_of_admitsAll wf) (fun op ws => by simp [decodeFields, decodeLineB])
      (hr9 := dn.isLt)
  | cmpi sz imm ea =>
    exact decode_encodeImmediate .cmpi wf (.inr (Bool.and_eq_true_iff.1 wf)) fun op sz _ _ _ => by cases sz <;> rfl
  | cmpm sz dst src =>
    have hopm := sizeField_lt sz
    exact decode_oneWord (line := 11) (opm := 4 + sz.field) (mode := 1)
      (by cases sz <;> simp [decodeFields, decodeLineB, Size.field, sized, sizeField]) wf
  | divs dn ea =>
    exact decode_oneEa (.divs dn) wf (encodable_of_admitsData wf) (fun op ws => by simp [decodeFields, decodeLine8])
      (hr9 := dn.isLt)
  | divu dn ea =>
    exact decode_oneEa (.divu dn) wf (encodable_of_admitsData wf) (fun op ws => by simp [decodeFields, decodeLine8])
      (hr9 := dn.isLt)
  | muls form dn ea =>
    cases form with
    | long => exact absurd rfl words
    | word =>
      exact decode_oneEa (.muls .word dn) wf (encodable_of_admitsData wf)
        (fun op ws => by simp [decodeFields, decodeLineC]) (hr9 := dn.isLt)
  | mulu form dn ea =>
    cases form with
    | long => exact absurd rfl words
    | word =>
      exact decode_oneEa (.mulu .word dn) wf (encodable_of_admitsData wf)
        (fun op ws => by simp [decodeFields, decodeLineC]) (hr9 := dn.isLt)
  | sbcd form dst src =>
    exact decode_encodeExtended wf fun op ws => by cases form <;> simp [decodeFields, decodeLine8, formOf, XForm.field]
  | nbcd ea => exact decode_oneEa .nbcd wf (encodable_of_admitsDataAlterable wf) fun op ws => rfl
  | neg sz ea =>
    exact decode_oneEa (.neg sz) wf (encodable_of_admitsDataAlterable wf) (fun op ws => by cases sz <;> rfl)
      (hopm := by cases sz <;> decide)
  | negx sz ea =>
    exact decode_oneEa (.negx sz) wf (encodable_of_admitsDataAlterable wf) (fun op ws => by cases sz <;> rfl)
      (hopm := by cases sz <;> decide)
  | btstReg bit ea =>
    exact decode_oneEa (.btstReg bit) wf (encodable_of_admitsDataAddressable wf)
      (fun op ws => by simp [decodeFields, decodeLine0]) (hr9 := bit.isLt)
  | btstImm bit ea =>
    exact decode_encodeBitImm .btstImm wf (encodable_of_admitsDataAddressable wf) fun op mode reg ws => rfl
  | bchgReg bit ea =>
    exact decode_oneEa (.bchgReg bit) wf (encodable_of_admitsDataAlterable wf)
      (fun op ws => by simp [decodeFields, decodeLine0]) (hr9 := bit.isLt)
  | bchgImm bit ea =>
    exact decode_encodeBitImm .bchgImm wf (encodable_of_admitsDataAlterable wf) fun op mode reg ws => rfl
  | bclrReg bit ea =>
    exact decode_oneEa (.bclrReg bit) wf (encodable_of_admitsDataAlterable wf)
      (fun op ws => by simp [decodeFields, decodeLine0]) (hr9 := bit.isLt)
  | bclrImm bit ea =>
    exact decode_encodeBitImm .bclrImm wf (encodable_of_admitsDataAlterable wf) fun op mode reg ws => rfl
  | bsetReg bit ea =>
    exact decode_oneEa (.bsetReg bit) wf (encodable_of_admitsDataAlterable wf)
      (fun op ws => by simp [decodeFields, decodeLine0]) (hr9 := bit.isLt)
  | bsetImm bit ea =>
    exact decode_encodeBitImm .bsetImm wf (encodable_of_admitsDataAlterable wf) fun op mode reg ws => rfl
  | asrReg sz count dn => exact decode_encodeShiftReg 0 false wf
  | asrMem ea => exact decode_encodeShiftMem 0 false wf wf
  | aslReg sz count dn => exact decode_encodeShiftReg 0 true wf
  | aslMem ea => exact decode_encodeShiftMem 0 true wf wf
  | lsrReg sz count dn => exact decode_encodeShiftReg 1 false wf
  | lsrMem ea => exact decode_encodeShiftMem 1 false wf wf
  | lslReg sz count dn => exact decode_encodeShiftReg 1 true wf
  | lslMem ea => exact decode_encodeShiftMem 1 true wf wf
  | roxrReg sz count dn => exact decode_encodeShiftReg 2 false wf
  | roxrMem ea => exact decode_encodeShiftMem 2 false wf wf
  | roxlReg sz count dn => exact decode_encodeShiftReg 2 true wf
  | roxlMem ea => exact decode_encodeShiftMem 2 true wf wf
  | rorReg sz count dn => exact decode_encodeShiftReg 3 false wf
  | rorMem ea => exact decode_encodeShiftMem 3 false wf wf
  | rolReg sz count dn => exact decode_encodeShiftReg 3 true wf
  | rolMem ea => exact decode_encodeShiftMem 3 true wf wf
  | bhi d => exact decode_encodeBcc (c := .hi) rfl wf wf
  | bls d => exact decode_encodeBcc (c := .ls) rfl wf wf
  | bcc d => exact decode_encodeBcc (c := .cc) rfl wf wf
  | bcs d => exact decode_encodeBcc (c := .cs) rfl wf wf
  | bne d => exact decode_encodeBcc (c := .ne) rfl wf wf
  | beq d => exact decode_encodeBcc (c := .eq) rfl wf wf
  | bvc d => exact decode_encodeBcc (c := .vc) rfl wf wf
  | bvs d => exact decode_encodeBcc (c := .vs) rfl wf wf
  | bpl d => exact decode_encodeBcc (c := .pl) rfl wf wf
  | bmi d => exact decode_encodeBcc (c := .mi) rfl wf wf
  | bge d => exact decode_encodeBcc (c := .ge) rfl wf wf
  | blt d => exact decode_encodeBcc (c := .lt) rfl wf wf
  | bgt d => exact decode_encodeBcc (c := .gt) rfl wf wf
  | ble d => exact decode_encodeBcc (c := .le) rfl wf wf
  | st ea => exact decode_encodeScc .t wf wf
  | sf ea => exact decode_encodeScc .f wf wf
  | shi ea => exact decode_encodeScc .hi wf wf
  | sls ea => exact decode_encodeScc .ls wf wf
  | scc ea => exact decode_encodeScc .cc wf wf
  | scs ea => exact decode_encodeScc .cs wf wf
  | sne ea => exact decode_encodeScc .ne wf wf
  | seq ea => exact decode_encodeScc .eq wf wf
  | svc ea => exact decode_encodeScc .vc wf wf
  | svs ea => exact decode_encodeScc .vs wf wf
  | spl ea => exact decode_encodeScc .pl wf wf
  | smi ea => exact decode_encodeScc .mi wf wf
  | sge ea => exact decode_encodeScc .ge wf wf
  | slt ea => exact decode_encodeScc .lt wf wf
  | sgt ea => exact decode_encodeScc .gt wf wf
  | sle ea => exact decode_encodeScc .le wf wf

/-- Every instruction has at most five words, and at least one but for the 32-bit multiply. -/
theorem encodeLength (i : Instr) : Laws.EncodeLength.Statement i := by
  cases i with
  | abcd form dst src => exact Laws.EncodeLength.abcd form dst src
  | add sz dir dn ea => exact Laws.EncodeLength.add sz dir dn ea
  | addi sz imm ea => exact Laws.EncodeLength.addi sz imm ea
  | addq sz data ea => exact Laws.EncodeLength.addq sz data ea
  | addxB form dst src => exact Laws.EncodeLength.addxB form dst src
  | addxW form dst src => exact Laws.EncodeLength.addxW form dst src
  | addxL form dst src => exact Laws.EncodeLength.addxL form dst src
  | and sz dir dn ea => exact Laws.EncodeLength.and sz dir dn ea
  | andi sz imm ea => exact Laws.EncodeLength.andi sz imm ea
  | eor sz dn ea => exact Laws.EncodeLength.eor sz dn ea
  | eori sz imm ea => exact Laws.EncodeLength.eori sz imm ea
  | moveq dn data => exact Laws.EncodeLength.moveq dn data
  | move sz src dst => exact Laws.EncodeLength.move sz src dst
  | or sz dir dn ea => exact Laws.EncodeLength.or sz dir dn ea
  | ori sz imm ea => exact Laws.EncodeLength.ori sz imm ea
  | clr sz ea => exact Laws.EncodeLength.clr sz ea
  | extW dn => exact Laws.EncodeLength.extW dn
  | extL dn => exact Laws.EncodeLength.extL dn
  | not sz ea => exact Laws.EncodeLength.not sz ea
  | tas ea => exact Laws.EncodeLength.tas ea
  | tst sz ea => exact Laws.EncodeLength.tst sz ea
  | chk sz dn ea => exact Laws.EncodeLength.chk sz dn ea
  | chk2 sz isAddr reg ea => exact Laws.EncodeLength.chk2 sz isAddr reg ea
  | sub sz dir dn ea => exact Laws.EncodeLength.sub sz dir dn ea
  | subi sz imm ea => exact Laws.EncodeLength.subi sz imm ea
  | subq sz data ea => exact Laws.EncodeLength.subq sz data ea
  | subxB form dst src => exact Laws.EncodeLength.subxB form dst src
  | subxW form dst src => exact Laws.EncodeLength.subxW form dst src
  | subxL form dst src => exact Laws.EncodeLength.subxL form dst src
  | cmpB dn ea => exact Laws.EncodeLength.cmpB dn ea
  | cmpW dn ea => exact Laws.EncodeLength.cmpW dn ea
  | cmpL dn ea => exact Laws.EncodeLength.cmpL dn ea
  | cmpi sz imm ea => exact Laws.EncodeLength.cmpi sz imm ea
  | cmpm sz dst src => exact Laws.EncodeLength.cmpm sz dst src
  | divs dn ea => exact Laws.EncodeLength.divs dn ea
  | divu dn ea => exact Laws.EncodeLength.divu dn ea
  | muls form dn ea => exact Laws.EncodeLength.muls form dn ea
  | mulu form dn ea => exact Laws.EncodeLength.mulu form dn ea
  | sbcd form dst src => exact Laws.EncodeLength.sbcd form dst src
  | nbcd ea => exact Laws.EncodeLength.nbcd ea
  | neg sz ea => exact Laws.EncodeLength.neg sz ea
  | negx sz ea => exact Laws.EncodeLength.negx sz ea
  | btstReg bit ea => exact Laws.EncodeLength.btstReg bit ea
  | btstImm bit ea => exact Laws.EncodeLength.btstImm bit ea
  | bchgReg bit ea => exact Laws.EncodeLength.bchgReg bit ea
  | bchgImm bit ea => exact Laws.EncodeLength.bchgImm bit ea
  | bclrReg bit ea => exact Laws.EncodeLength.bclrReg bit ea
  | bclrImm bit ea => exact Laws.EncodeLength.bclrImm bit ea
  | bsetReg bit ea => exact Laws.EncodeLength.bsetReg bit ea
  | bsetImm bit ea => exact Laws.EncodeLength.bsetImm bit ea
  | asrReg sz count dn => exact Laws.EncodeLength.asrReg sz count dn
  | asrMem ea => exact Laws.EncodeLength.asrMem ea
  | aslReg sz count dn => exact Laws.EncodeLength.aslReg sz count dn
  | aslMem ea => exact Laws.EncodeLength.aslMem ea
  | lsrReg sz count dn => exact Laws.EncodeLength.lsrReg sz count dn
  | lsrMem ea => exact Laws.EncodeLength.lsrMem ea
  | lslReg sz count dn => exact Laws.EncodeLength.lslReg sz count dn
  | lslMem ea => exact Laws.EncodeLength.lslMem ea
  | roxrReg sz count dn => exact Laws.EncodeLength.roxrReg sz count dn
  | roxrMem ea => exact Laws.EncodeLength.roxrMem ea
  | roxlReg sz count dn => exact Laws.EncodeLength.roxlReg sz count dn
  | roxlMem ea => exact Laws.EncodeLength.roxlMem ea
  | rorReg sz count dn => exact Laws.EncodeLength.rorReg sz count dn
  | rorMem ea => exact Laws.EncodeLength.rorMem ea
  | rolReg sz count dn => exact Laws.EncodeLength.rolReg sz count dn
  | rolMem ea => exact Laws.EncodeLength.rolMem ea
  | bhi disp => exact Laws.EncodeLength.bhi disp
  | bls disp => exact Laws.EncodeLength.bls disp
  | bcc disp => exact Laws.EncodeLength.bcc disp
  | bcs disp => exact Laws.EncodeLength.bcs disp
  | bne disp => exact Laws.EncodeLength.bne disp
  | beq disp => exact Laws.EncodeLength.beq disp
  | bvc disp => exact Laws.EncodeLength.bvc disp
  | bvs disp => exact Laws.EncodeLength.bvs disp
  | bpl disp => exact Laws.EncodeLength.bpl disp
  | bmi disp => exact Laws.EncodeLength.bmi disp
  | bge disp => exact Laws.EncodeLength.bge disp
  | blt disp => exact Laws.EncodeLength.blt disp
  | bgt disp => exact Laws.EncodeLength.bgt disp
  | ble disp => exact Laws.EncodeLength.ble disp
  | st ea => exact Laws.EncodeLength.st ea
  | sf ea => exact Laws.EncodeLength.sf ea
  | shi ea => exact Laws.EncodeLength.shi ea
  | sls ea => exact Laws.EncodeLength.sls ea
  | scc ea => exact Laws.EncodeLength.scc ea
  | scs ea => exact Laws.EncodeLength.scs ea
  | sne ea => exact Laws.EncodeLength.sne ea
  | seq ea => exact Laws.EncodeLength.seq ea
  | svc ea => exact Laws.EncodeLength.svc ea
  | svs ea => exact Laws.EncodeLength.svs ea
  | spl ea => exact Laws.EncodeLength.spl ea
  | smi ea => exact Laws.EncodeLength.smi ea
  | sge ea => exact Laws.EncodeLength.sge ea
  | slt ea => exact Laws.EncodeLength.slt ea
  | sgt ea => exact Laws.EncodeLength.sgt ea
  | sle ea => exact Laws.EncodeLength.sle ea

/-! ### The fetch -/

/-- Where words stand in allocated memory, the fetch takes them, and then what follows. -/
theorem fetchWords_stored {s : State} {ws : List Word} {addr k : Nat} (hk : ws.length ≤ k)
    (h : ∀ (j : Nat) (hj : j < ws.length), allocated s.cfg (addr + 2 * j) = true ∧
      allocated s.cfg (addr + 2 * j + 1) = true ∧ s.mem.read (addr + 2 * j) ++ s.mem.read (addr + 2 * j + 1) = ws[j]) :
    ∃ rest, fetchWords k addr s = ws ++ rest := by
  induction ws generalizing addr k with
  | nil => exact ⟨_, rfl⟩
  | cons w ws ih =>
    obtain ⟨k, rfl⟩ := Nat.exists_eq_add_one.2 (Nat.lt_of_lt_of_le (Nat.succ_pos _) hk)
    obtain ⟨h0, h1, hw⟩ := h 0 (Nat.succ_pos _)
    obtain ⟨rest, hrest⟩ := ih (addr := addr + 2) (k := k) (Nat.le_of_succ_le_succ hk) fun j hj => by
      have := h (j + 1) (Nat.succ_lt_succ hj)
      simpa only [Nat.mul_add, Nat.mul_one, Nat.add_assoc, Nat.add_comm 2, List.getElem_cons_succ] using this
    refine ⟨rest, ?_⟩
    have hword : s.mem.read addr ++ s.mem.read (addr + 1) = w := hw
    rw [fetchWords, if_pos (by rw [Bool.and_eq_true]; exact ⟨h0, h1⟩), hrest, hword, List.cons_append]

/-- A step at an even pc executes what the fetched words decode to. -/
theorem step_of_decode {s : State} {i : Instr} {rest : List Word} (hpc : s.pc.toNat % 2 = 0)
    (h : decode (fetchWords maxWords s.pc.toNat s) = .ok (i, rest)) : step s = exec i s := by
  have hfetch : fetch s = .ok i := by
    rw [fetch, if_neg (by omega)]
    simp only [h]
  simp only [step, hfetch]

/-! ### The obligations -/

/-- Settles O7: the round trip of every constructor, and the lengths of the encodings. -/
theorem decodeEncode : Obligations.DecodeEncode := by
  refine ⟨fun i rest wf words => decode_encode i rest wf words, fun i => ⟨(encodeLength i).2, ?_⟩⟩
  rintro ⟨dn, ea, rfl | rfl⟩ <;> rfl

/-- Settles O8: by decoding each word. -/
theorem exampleWords : Obligations.ExampleWords :=
  ⟨rfl, rfl, rfl, rfl, rfl, rfl, rfl, rfl, rfl, rfl, rfl, rfl⟩

/-- Settles O9. -/
theorem stepExecutesTheDecoded : Obligations.StepExecutesTheDecoded := fun _ _ _ hpc h => step_of_decode hpc h

/-- Settles O10: the fetch takes the stored words and what follows, and the decoder reads the instruction from them. -/
theorem stepExecutesTheStored : Obligations.StepExecutesTheStored := by
  intro s i wf words hpc h
  obtain ⟨rest, hrest⟩ := fetchWords_stored (encodeLength i).1 h
  exact step_of_decode hpc (hrest ▸ decode_encode i rest wf words)

/-- A word whose fields no rule covers decodes to no instruction. -/
theorem decode_noRule {op : Word} {ws : List Word}
    (h : decodeFields op (op.toNat / 4096) (op.toNat / 512 % 8) (op.toNat / 64 % 8) (op.toNat / 8 % 8)
      (op.toNat % 8) ws = .error (.noRule op)) : decode (op :: ws) = .error (.noRule op) := by
  simp only [decode, h]

theorem opmode_eq_three_or_seven {n : Nat} (h : n / 64 % 4 = 3) : n / 64 % 8 = 3 ∨ n / 64 % 8 = 7 := by omega

/-- Settles O11: each of the lines, with these fields, has no rule. -/
theorem uncoveredWordsAreRefused : Obligations.UncoveredWordsAreRefused := by
  intro op ws h
  apply decode_noRule
  rcases h with h | h | ⟨hline | hline | hline, h⟩ | h | h | h
  · rw [show op.toNat / 4096 = 6 by omega]
    simp only [decodeFields, decodeLine6, show op.toNat / 256 % 16 = 0 by omega, condOf, bccOf]
  · rw [show op.toNat / 4096 = 6 by omega]
    simp only [decodeFields, decodeLine6, show op.toNat / 256 % 16 = 1 by omega, condOf, bccOf]
  · rw [hline]
    rcases opmode_eq_three_or_seven h with h | h <;> rw [h] <;> rfl
  · rw [hline]
    rcases opmode_eq_three_or_seven h with h | h <;> rw [h]
    · rfl
    · by_cases hmode : op.toNat / 8 % 8 < 2
      · simp [decodeFields, decodeLineD, hmode]
      · simp [decodeFields, decodeLineD, hmode, sized, sizeField]
  · rw [hline]
    rcases opmode_eq_three_or_seven h with h | h <;> rw [h]
    · rfl
    · by_cases hmode : op.toNat / 8 % 8 < 2
      · simp [decodeFields, decodeLine9, hmode]
      · simp [decodeFields, decodeLine9, hmode, sized, sizeField]
  · rw [h]
    rfl
  · rw [h]
    rfl
  · rw [show op.toNat / 4096 = 4 by omega, show op.toNat / 64 % 8 = 0 by omega, show op.toNat / 512 % 8 = 6 by omega]
    rfl

end Sys2Proof.Machine
end

section
/-! PROOFS. The arithmetic of the flag formulas (40_cc_common.md rules R55 to R59, R61): each formula over the three
sign bits against the sum or difference as a number. The sign bit of a value says on which side of `2^(n-1)` its number
stands, and that gives the signed number (`toInt_cases`); a sum or difference wraps at most once (`toNat_sum`,
`toNat_difference`); the rest is linear. -/

namespace Sys2Proof.Machine

/-! ### Numbers and signed numbers -/

section Numbers
variable {n : Nat}

theorem bits_pos (sz : Size) : 0 < sz.bits := by cases sz <;> decide

theorem two_pow_eq (hn : 0 < n) : 2 ^ n = 2 * 2 ^ (n - 1) := by
  have := Nat.two_pow_pred_mul_two hn
  omega

/-- The signed number of a value, by the side of `2^(n-1)` on which its number stands. -/
theorem toInt_cases (hn : 0 < n) (v : BitVec n) :
    (v.toNat < 2 ^ (n - 1) ∧ v.toInt = v.toNat) ∨
      (2 ^ (n - 1) ≤ v.toNat ∧ v.toInt = v.toNat - 2 * (2 ^ (n - 1) : Nat)) := by
  rw [BitVec.toInt_eq_toNat_cond, two_pow_eq hn]
  split <;> omega

/-- A number fits `n` bits as a signed number, as inequalities over `2^(n-1)`. -/
theorem fitsSigned_eq_decide (v : Int) :
    fitsSigned n v = decide (-((2 ^ (n - 1) : Nat) : Int) ≤ v ∧ v < (2 ^ (n - 1) : Nat)) := by
  simp [fitsSigned, Bool.decide_and]

theorem toNat_carry (hn : 0 < n) (x : Bool) : (BitVec.ofNat n x.toNat).toNat = x.toNat := by
  have := two_pow_eq hn
  have := Nat.two_pow_pos (n - 1)
  have := x.toNat_le
  rw [BitVec.toNat_ofNat, Nat.mod_eq_of_lt (by omega)]

/-- A sum with carry in as a number: it fits, or it wraps once. -/
theorem toNat_sum (hn : 0 < n) (S D : BitVec n) (x : Bool) :
    let sum := S.toNat + D.toNat + x.toNat
    (sum < 2 ^ n ∧ (S + D + BitVec.ofNat n x.toNat).toNat = sum) ∨
      (2 ^ n ≤ sum ∧ (S + D + BitVec.ofNat n x.toNat).toNat = sum - 2 ^ n) := by
  intro sum
  have hS := S.isLt
  have hD := D.isLt
  have hx := x.toNat_le
  rw [BitVec.toNat_add, BitVec.toNat_add, toNat_carry hn, Nat.mod_add_mod]
  by_cases h : sum < 2 ^ n
  · exact .inl ⟨h, Nat.mod_eq_of_lt h⟩
  · refine .inr ⟨by omega, ?_⟩
    rw [Nat.mod_eq_sub_mod (by omega), Nat.mod_eq_of_lt (by omega)]

/-- A difference with borrow in as a number: it is not negative, or it wraps once. -/
theorem toNat_difference (hn : 0 < n) (S D : BitVec n) (x : Bool) :
    (S.toNat + x.toNat ≤ D.toNat ∧ (D - S - BitVec.ofNat n x.toNat).toNat = D.toNat - (S.toNat + x.toNat)) ∨
      (D.toNat < S.toNat + x.toNat ∧
        (D - S - BitVec.ofNat n x.toNat).toNat = D.toNat + 2 ^ n - (S.toNat + x.toNat)) := by
  have hback := toNat_sum hn (D - S - BitVec.ofNat n x.toNat) S x
  have heq : D - S - BitVec.ofNat n x.toNat + S + BitVec.ofNat n x.toNat = D := by
    rw [BitVec.add_assoc, BitVec.add_comm S, ← BitVec.add_assoc, BitVec.sub_add_cancel, BitVec.sub_add_cancel]
  have hR := (D - S - BitVec.ofNat n x.toNat).isLt
  have hD := D.isLt
  rw [heq] at hback
  omega

end Numbers

/-! ### The formulas of addition, subtraction and negation -/

section Formulas
variable {n : Nat}

/-- Addition carry (rule R56) on a sum with carry in. -/
theorem addC_sum (hn : 0 < n) (S D : BitVec n) (x : Bool) :
    addC S D (S + D + BitVec.ofNat n x.toNat) = decide (2 ^ n ≤ S.toNat + D.toNat + x.toNat) := by
  have hpow := two_pow_eq hn
  have hx := x.toNat_le
  have hsum := toNat_sum hn S D x
  simp only [addC, BitVec.msb_eq_decide, ← decide_not, ← Bool.decide_and, ← Bool.decide_or, decide_eq_decide]
  omega

/-- Addition overflow (rule R55) on a sum with carry in. -/
theorem addV_sum (hn : 0 < n) (S D : BitVec n) (x : Bool) :
    addV S D (S + D + BitVec.ofNat n x.toNat) = !fitsSigned n (S.toInt + D.toInt + x.toNat) := by
  have hpow := two_pow_eq hn
  have hx := x.toNat_le
  have hsum := toNat_sum hn S D x
  have hS := toInt_cases hn S
  have hD := toInt_cases hn D
  have hS' := S.isLt
  have hD' := D.isLt
  simp only [addV, fitsSigned_eq_decide, BitVec.msb_eq_decide, ← decide_not, ← Bool.decide_and, ← Bool.decide_or,
    decide_eq_decide]
  omega

/-- Subtraction borrow (rule R58) on a difference with borrow in. -/
theorem subC_difference (hn : 0 < n) (S D : BitVec n) (x : Bool) :
    subC S D (D - S - BitVec.ofNat n x.toNat) = decide (D.toNat < S.toNat + x.toNat) := by
  have hpow := two_pow_eq hn
  have hx := x.toNat_le
  have hdiff := toNat_difference hn S D x
  have hS := S.isLt
  have hD := D.isLt
  simp only [subC, BitVec.msb_eq_decide, ← decide_not, ← Bool.decide_and, ← Bool.decide_or, decide_eq_decide]
  omega

/-- Subtraction overflow (rule R57) on a difference with borrow in. -/
theorem subV_difference (hn : 0 < n) (S D : BitVec n) (x : Bool) :
    subV S D (D - S - BitVec.ofNat n x.toNat) = !fitsSigned n (D.toInt - S.toInt - x.toNat) := by
  have hpow := two_pow_eq hn
  have hx := x.toNat_le
  have hdiff := toNat_difference hn S D x
  have hS := toInt_cases hn S
  have hD := toInt_cases hn D
  have hS' := S.isLt
  have hD' := D.isLt
  simp only [subV, fitsSigned_eq_decide, BitVec.msb_eq_decide, ← decide_not, ← Bool.decide_and, ← Bool.decide_or,
    decide_eq_decide]
  omega

/-- Negation borrow is the borrow of a subtraction from zero (rules R58, R59). -/
theorem negC_eq_subC (D R : BitVec n) : negC D R = subC D 0 R := by
  cases hD : D.msb <;> cases hR : R.msb <;> simp [negC, subC, hD, hR]

/-- Negation overflow is the overflow of a subtraction from zero (rules R57, R59). -/
theorem negV_eq_subV (D R : BitVec n) : negV D R = subV D 0 R := by
  cases hD : D.msb <;> cases hR : R.msb <;> simp [negV, subV, hD, hR]

/-- Negation overflows on the most negative number alone, and without borrow in alone. -/
theorem not_fitsSigned_neg (hn : 0 < n) (D : BitVec n) (x : Bool) :
    (!fitsSigned n (0 - D.toInt - x.toNat)) = decide (D.toNat = 2 ^ (n - 1) ∧ x = false) := by
  have hpow := two_pow_eq hn
  have hD := toInt_cases hn D
  have hD' := D.isLt
  have hx : x = false ↔ x.toNat = 0 := by cases x <;> simp
  have hx' := x.toNat_le
  simp only [fitsSigned_eq_decide, ← decide_not, decide_eq_decide, hx]
  omega

/-- CHK2's carry with signed comparisons: both compare around the same ring of numbers, cut at another place. -/
theorem chk2Carry_signed (hn : 0 < n) (R LB UB : BitVec n) :
    chk2Carry R LB UB =
      ((decide (LB.toInt ≤ UB.toInt) && (decide (R.toInt < LB.toInt) || decide (UB.toInt < R.toInt))) ||
        (decide (UB.toInt < LB.toInt) && decide (UB.toInt < R.toInt) && decide (R.toInt < LB.toInt))) := by
  have hpow := two_pow_eq hn
  have hR := toInt_cases hn R
  have hL := toInt_cases hn LB
  have hU := toInt_cases hn UB
  have hR' := R.isLt
  have hL' := LB.isLt
  have hU' := UB.isLt
  simp only [chk2Carry, ← Bool.decide_and, ← Bool.decide_or, decide_eq_decide]
  omega

/-- A register that equals a bound is inside. -/
theorem chk2Carry_bound {R LB UB : BitVec n} (h : R = LB ∨ R = UB) : chk2Carry R LB UB = false := by
  simp only [chk2Carry, ← Bool.decide_and, ← Bool.decide_or, decide_eq_false_iff_not]
  rcases h with rfl | rfl <;> omega

end Formulas

/-! ### Operands in registers and in memory -/

section Operands

/-- The low bits of a register after a result is put into them. -/
@[simp] theorem lowPart_mergeLow (sz : Size) (old : Long) (v : BitVec sz.bits) :
    lowPart sz (mergeLow sz old v) = v := by
  cases sz with
  | byte => exact BitVec.setWidth_append_eq_right
  | word => exact BitVec.setWidth_append_eq_right
  | long => exact BitVec.setWidth_eq _

/-- The bits above a result put into a register. -/
theorem getLsbD_mergeLow (sz : Size) (old : Long) (v : BitVec sz.bits) {k : Nat} (h : sz.bits ≤ k) :
    (mergeLow sz old v).getLsbD k = old.getLsbD k := by
  have append {m : Nat} (w : BitVec m) (hk : m ≤ k) (hm : m ≤ 32) :
      (old.extractLsb' m (32 - m) ++ w).getLsbD k = old.getLsbD k := by
    rw [BitVec.getLsbD_append, if_neg (by omega), BitVec.getLsbD_extractLsb', show m + (k - m) = k by omega]
    by_cases hlt : k < 32
    · simp [show k - m < 32 - m by omega]
    · simp [BitVec.getLsbD_of_ge old k (by omega)]
  cases sz with
  | byte => exact append v h (by decide)
  | word => exact append v h (by decide)
  | long => rw [BitVec.getLsbD_of_ge _ k h, BitVec.getLsbD_of_ge _ k h]

/-- The bytes an operand is stored as. -/
def operandBytes (sz : Size) (v : BitVec sz.bits) : List Byte :=
  (List.range sz.bytes).map fun k => v.extractLsb' (8 * (sz.bytes - 1 - k)) 8

theorem memWrite_mem (sz : Size) (addr : Long) (v : BitVec sz.bits) (s : State) :
    (memWrite sz addr v s).mem = s.mem.writeBytes addr.toNat (operandBytes sz v) := by
  cases sz <;> simp [memWrite, operandBytes, Size.bytes, List.range_succ]

/-- A byte of a stored operand reads back, the most significant first (rule R31). -/
theorem read_memWrite_byte {sz : Size} {addr : Long} {s : State} (v : BitVec sz.bits) (wf : s.mem.wf = true)
    (h : addr.toNat + sz.bytes ≤ 2 ^ 32) {k : Nat} (hk : k < sz.bytes) :
    (memWrite sz addr v s).mem.read (addr.toNat + k) = v.extractLsb' (8 * (sz.bytes - 1 - k)) 8 := by
  have hlen : (operandBytes sz v).length = sz.bytes := by simp [operandBytes]
  rw [memWrite_mem, read_writeBytes_inside (operandBytes sz v) addr.toNat k wf (by omega) (by omega)]
  simp [operandBytes]

theorem toNat_append_eq {m k : Nat} (x : BitVec m) (y : BitVec k) : (x ++ y).toNat = x.toNat * 2 ^ k + y.toNat := by
  rw [BitVec.toNat_append, ← Nat.shiftLeft_add_eq_or_of_lt y.isLt, Nat.shiftLeft_eq]

/-- A stored operand reads back. -/
theorem memRead_memWrite {sz : Size} {addr : Long} {s : State} (v : BitVec sz.bits) (wf : s.mem.wf = true)
    (h : addr.toNat + sz.bytes ≤ 2 ^ 32) : memRead sz addr (memWrite sz addr v s) = v := by
  have byte {k : Nat} (e : Nat) (hk : k < sz.bytes) (he : 8 * (sz.bytes - 1 - k) = e) :
      ((memWrite sz addr v s).mem.read (addr.toNat + k)).toNat = v.toNat / 2 ^ e % 256 := by
    rw [read_memWrite_byte v wf h hk, BitVec.extractLsb'_toNat, Nat.shiftRight_eq_div_pow, he]
  apply BitVec.eq_of_toNat_eq
  have hv := v.isLt
  cases sz with
  | byte =>
    have h0 := byte (k := 0) 0 (by decide) rfl
    simp only [memRead, h0, Size.bits] at hv ⊢
    omega
  | word =>
    have h0 := byte (k := 0) 8 (by decide) rfl
    have h1 := byte (k := 1) 0 (by decide) rfl
    simp only [memRead, toNat_append_eq, h0, h1, Size.bits] at hv ⊢
    omega
  | long =>
    have h0 := byte (k := 0) 24 (by decide) rfl
    have h1 := byte (k := 1) 16 (by decide) rfl
    have h2 := byte (k := 2) 8 (by decide) rfl
    have h3 := byte (k := 3) 0 (by decide) rfl
    simp only [memRead, toNat_append_eq, h0, h1, h2, h3, Size.bits] at hv ⊢
    omega

/-- The bytes of an access that is allowed are inside the address space. -/
theorem accessStop_lt {sz : Size} {addr : Long} {s : State} (h : accessStop sz addr s = none) :
    addr.toNat + sz.bytes ≤ 2 ^ 32 := by
  have hbytes : 0 < sz.bytes := by cases sz <;> decide
  have := allocated_lt ((accessStop_eq_none.1 h).2 (sz.bytes - 1) (by omega))
  omega

end Operands

/-! ### The obligations -/

/-- Settles O18. -/
theorem additionFormulas : Obligations.AdditionFormulas := fun sz S D x =>
  ⟨addC_sum (bits_pos sz) S D x, addV_sum (bits_pos sz) S D x⟩

/-- Settles O19: the formulas of negation are those of a subtraction from zero. -/
theorem subtractionFormulas : Obligations.SubtractionFormulas := by
  intro sz S D x
  have hn := bits_pos sz
  refine ⟨subC_difference hn S D x, subV_difference hn S D x, ?_, ?_⟩
  · rw [negC_eq_subC, subC_difference hn D 0 x]
    simp
  · rw [negV_eq_subV, subV_difference hn D 0 x, ← not_fitsSigned_neg hn D x]
    simp

/-- Settles O20. -/
theorem boundsCarryHasNoSign : Obligations.BoundsCarryHasNoSign := fun sz R LB UB =>
  ⟨chk2Carry_signed (bits_pos sz) R LB UB, chk2Carry_bound⟩

/-- Settles O21. -/
theorem partialRegisterWrite : Obligations.PartialRegisterWrite := fun sz old v =>
  ⟨lowPart_mergeLow sz old v, fun _ hk => getLsbD_mergeLow sz old v hk⟩

/-- Settles O22. -/
theorem storedOperandReadsBack : Obligations.StoredOperandReadsBack := fun sz addr v _ wf h =>
  ⟨memRead_memWrite v wf (accessStop_lt h), wf_memWrite sz addr v wf, fun _ hk =>
    read_memWrite_byte v wf (accessStop_lt h) hk⟩

/-- Settles O1: by evaluation. -/
theorem resetMeetsTheInvariant : Obligations.ResetMeetsTheInvariant := ⟨rfl, rfl, rfl, rfl, rfl, rfl⟩

/-- A sign-extended displacement as a number. -/
theorem toNat_signExtend {m : Nat} (d : BitVec m) : ((d.signExtend 32).toNat : Int) = d.toInt % 2 ^ 32 := by
  rw [BitVec.signExtend, BitVec.toNat_ofInt, Int.toNat_of_nonneg (Int.emod_nonneg _ (by decide))]
  rfl

/-- Settles O56. -/
theorem branchTargets : Obligations.BranchTargets := by
  intro s d w
  have target (x : Long) (i : Int) (hx : (x.toNat : Int) = i % 2 ^ 32) :
      ((s.pc + 2 + x).toNat : Int) = (s.pc.toNat + 2 + i) % 2 ^ 32 := by
    rw [BitVec.toNat_add, BitVec.toNat_add, show (2 : Long).toNat = 2 from rfl]
    omega
  exact ⟨target _ _ (toNat_signExtend d), target _ _ (toNat_signExtend w)⟩

/-- Settles O16: the formulas of each pair, GE with LT and GT with LE by comparing N with V. -/
theorem pairedTestsAreComplements : Obligations.PairedTestsAreComplements := by
  intro n f hn
  interval_cases n
  · rfl
  · simp [condOf, condHolds]
  · simp [condOf, condHolds]
  · simp [condOf, condHolds]
  · simp [condOf, condHolds]
  · simp [condOf, condHolds]
  · simp [condOf, condHolds_ge, condHolds_lt, bne]
  · cases hz : f.z <;> simp [condOf, condHolds_gt, condHolds_le, hz, bne]

end Sys2Proof.Machine
end

section
/-! PROOFS. Instructions that complete: each shared operation of Machine/Shapes.lean, where its operand can be read or
stored and its words end below the top of the address space, gives the shape of Safety.lean that the statements are
written in. -/

namespace Sys2Proof.Machine

section Shapes
variable {i : Instr} {s : State} {sz : Size} {ea : Ea} {before : Nat}

/-- The end of an instruction, as the fields it writes. -/
theorem finish_eq {u : State} {f : CCR} {spent words : Nat} (hpc : u.pc = s.pc) :
    u.finish f spent words = { u with ccr := f, pc := s.pcPast words, draws := u.draws + spent } := by
  simp only [State.finish, State.advance, State.pcPast, hpc]

theorem pcStop_of_fits {words : Nat} (h : s.fits words) : pcStop words s = none := pcStop_eq_none.2 h

/-- An operand into a register completes. -/
theorem eaToDn_completes {dn : RegNum} {alu : BitVec sz.bits → Long → Effect 32} {stop : BitVec sz.bits → Option Stop}
    (wf : i.wf = true) (read : eaReadStop sz ea before s = none) (hstop : stop (eaRead sz ea before s) = none)
    (fits : s.fits (1 + before + ea.extWords sz)) :
    let e := alu (eaRead sz ea before s) s.d[dn]
    eaToDn i sz dn ea before s alu stop = .next { eaAfter sz ea s with
      d := s.d.set dn e.result
      ccr := e.ccr
      pc := s.pcPast (1 + before + ea.extWords sz)
      draws := s.draws + e.spent } := by
  refine eaToDn_eq_next.2 ⟨wf, read, hstop, pcStop_of_fits fits, ?_⟩
  rw [finish_eq (s := s) (by simp)]
  simp [State.setD]

/-- An operand into a register, as the shape of the statements. -/
theorem putsInDn_of_eaToDn {dn : RegNum} (alu : BitVec sz.bits → Long → Effect 32)
    (runs : exec i s = eaToDn i sz dn ea before s alu) (spent : ∀ S, (alu S s.d[dn]).spent = 0)
    {result : BitVec sz.bits → Long} {flags : BitVec sz.bits → CCR} (hresult : ∀ S, (alu S s.d[dn]).result = result S)
    (hflags : ∀ S, (alu S s.d[dn]).ccr = flags S) : PutsInDn i sz dn ea before s result flags := by
  intro wf read fits
  rw [runs, eaToDn_completes wf read rfl fits, hresult, hflags, spent, Nat.add_zero, ← eaAfter_draws s sz ea]

/-- An operand changed in place completes. -/
theorem modifyEa_completes {alu : BitVec sz.bits → Effect sz.bits} {stop : BitVec sz.bits → Option Stop}
    (wf : i.wf = true) (read : eaReadStop sz ea before s = none) (hstop : stop (eaRead sz ea before s) = none)
    (write : eaWriteStop sz ea before s = none) (fits : s.fits (1 + before + ea.extWords sz)) :
    let e := alu (eaRead sz ea before s)
    modifyEa i sz ea before s alu stop = .next { eaWrite sz ea before e.result s with
      ccr := e.ccr
      pc := s.pcPast (1 + before + ea.extWords sz)
      draws := s.draws + e.spent } := by
  refine modifyEa_eq_next.2 ⟨wf, read, hstop, write, pcStop_of_fits fits, ?_⟩
  rw [finish_eq (s := s) (by simp), eaWrite_draws]

/-- An operand changed in place, as the shape of the statements. -/
theorem replaces_of_modifyEa (alu : BitVec sz.bits → Effect sz.bits) (runs : exec i s = modifyEa i sz ea before s alu)
    (spent : ∀ D, (alu D).spent = 0) {result : BitVec sz.bits → BitVec sz.bits} {flags : BitVec sz.bits → CCR}
    (hresult : ∀ D, (alu D).result = result D) (hflags : ∀ D, (alu D).ccr = flags D) :
    Replaces i sz ea before s result flags := by
  intro wf read write fits
  rw [runs, modifyEa_completes wf read rfl write fits, hresult, hflags, spent, Nat.add_zero,
    ← eaWrite_draws s sz ea before (result (eaRead sz ea before s))]

/-- An operand stored, as the shape of the statements. -/
theorem stores_of_storeEa {v : BitVec sz.bits} {f : CCR} (runs : exec i s = storeEa i sz ea s v f) :
    Stores i sz ea s v f := by
  intro wf write fits
  rw [runs]
  refine storeEa_eq_next.2 ⟨wf, write, pcStop_of_fits fits, ?_⟩
  rw [finish_eq (s := s) (by simp), Nat.add_zero]

/-- An operand tested, as the shape of the statements. -/
theorem tests_of_testEa {flag flags : BitVec sz.bits → CCR} (runs : exec i s = testEa i sz ea before s flag)
    (hflags : ∀ D, flag D = flags D) : Tests i sz ea before s flags := by
  intro wf read fits
  rw [runs]
  refine testEa_eq_next.2 ⟨wf, read, pcStop_of_fits fits, ?_⟩
  rw [finish_eq (s := s) (by simp), hflags, Nat.add_zero]

/-- A one-word instruction that writes a register, as the shape of the statements. -/
theorem setsDn_of_check {dn : RegNum} {v w : Long} {f g : CCR} {spent : Nat}
    (runs : s.fits 1 → exec i s = check (pcStop 1 s) (.next ((s.setD dn v).finish f spent 1)))
    (hv : v = w) (hf : f = g) : SetsDn i dn s w g spent := by
  intro fits
  rw [runs fits, pcStop_of_fits fits, check_none, hv, hf]
  rfl

/-- The register form of an extended instruction, as the shape of the statements. -/
theorem setsDn_of_extended {dst src : RegNum} {alu : BitVec sz.bits → BitVec sz.bits → Effect sz.bits}
    {stop : BitVec sz.bits → BitVec sz.bits → Option Stop} {drawn : Nat} {result : BitVec sz.bits} {flags : CCR}
    (runs : exec i s = extended sz .data dst src s alu stop)
    (hstop : stop (lowPart sz s.d[src]) (lowPart sz s.d[dst]) = none)
    (spent : (alu (lowPart sz s.d[src]) (lowPart sz s.d[dst])).spent = drawn)
    (hresult : (alu (lowPart sz s.d[src]) (lowPart sz s.d[dst])).result = result)
    (hflags : (alu (lowPart sz s.d[src]) (lowPart sz s.d[dst])).ccr = flags) :
    SetsDn i dst s (mergeLow sz s.d[dst] result) flags drawn := by
  intro fits
  rw [runs]
  refine extended_data_eq_next.2 ⟨hstop, pcStop_of_fits fits, ?_⟩
  rw [spent, hresult, hflags]
  rfl

/-- A predecrement happens unless it is -(A7) with Byte or goes below address 0 (rule R33). -/
theorem predecStop_eq_none {r : RegNum} :
    predecStop sz r s = none ↔ ¬ (sz = .byte ∧ r = 7) ∧ sz.bytes ≤ s.a[r].toNat := by
  unfold predecStop
  by_cases h7 : sz = .byte ∧ r = 7
  · simp [h7]
  · simp [h7]

/-- The predecrement form of an extended instruction, as the shape of the statements. -/
theorem replacesByPredecrement_of_extended {dst src : RegNum} {alu : BitVec sz.bits → BitVec sz.bits → Effect sz.bits}
    {stop : BitVec sz.bits → BitVec sz.bits → Option Stop} {drawn : Nat}
    (runs : exec i s = extended sz .predec dst src s alu stop)
    (hstop : stop (memRead sz (predec sz src s).a[src] s)
      (memRead sz (predec sz dst (predec sz src s)).a[dst] s) = none)
    (spent : ∀ S D, (alu S D).spent = drawn) {result : BitVec sz.bits → BitVec sz.bits → BitVec sz.bits}
    {flags : BitVec sz.bits → BitVec sz.bits → CCR} (hresult : ∀ S D, (alu S D).result = result S D)
    (hflags : ∀ S D, (alu S D).ccr = flags S D) : ReplacesByPredecrement i sz dst src s result flags drawn := by
  intro h7 hsrc hdst read store fits
  rw [runs]
  refine extended_predec_eq_next.2 ⟨predecStop_eq_none.2 ⟨fun h => h7 ⟨h.1, .inl h.2⟩, hsrc⟩, read,
    predecStop_eq_none.2 ⟨fun h => h7 ⟨h.1, .inr h.2⟩, hdst⟩, (storeStop_eq_none.1 store).1, hstop, store,
    pcStop_of_fits fits, ?_⟩
  simp only [hresult, hflags, spent]
  rfl

end Shapes

end Sys2Proof.Machine
end

section
/-! PROOFS. The arithmetic and logic instructions (42_add_sub_cmp_neg.md, 43_logic_move.md): their effects' condition
codes by their arithmetic meaning, and each instruction's next state from the shape of its shared operation. -/

namespace Sys2Proof.Machine

/-! ### The condition codes of each effect, by their meaning (rule R61) -/

section Effects
variable {n : Nat}

theorem addxEffect_ccr (hn : 0 < n) (f : CCR) (S D : BitVec n) :
    (addxEffect f S D).ccr = sumFlags S D f.x (f.z && (S + D + BitVec.ofNat n f.x.toNat) == 0) := by
  simp only [addxEffect, CCR.xBit, addC_sum hn, addV_sum hn]
  rfl

theorem subxEffect_ccr (hn : 0 < n) (f : CCR) (S D : BitVec n) :
    (subxEffect f S D).ccr = differenceFlags S D f.x (f.z && (D - S - BitVec.ofNat n f.x.toNat) == 0) := by
  simp only [subxEffect, CCR.xBit, subC_difference hn, subV_difference hn]
  rfl

/-- ADD is ADDX with X and Z given: X clear, Z set. -/
theorem addEffect_ccr (hn : 0 < n) (f : CCR) (S D : BitVec n) :
    (addEffect f S D).ccr = sumFlags S D false (S + D == 0) := by
  have h := addxEffect_ccr hn { f with x := false, z := true } S D
  simpa [addxEffect, addEffect, CCR.xBit] using h

/-- Z of a difference says that the operands are equal. -/
theorem isZero_sub_eq_beq (S D : BitVec n) : isZero (D - S) = (D == S) := by
  rw [isZero_sub, beq_eq_decide]

/-- SUB is SUBX with X and Z given: X clear, Z set. -/
theorem subEffect_ccr (hn : 0 < n) (f : CCR) (S D : BitVec n) :
    (subEffect f S D).ccr = differenceFlags S D false (D == S) := by
  have h := subxEffect_ccr hn { f with x := false, z := true } S D
  have hz : (D - S == 0#n) = (D == S) := isZero_sub_eq_beq S D
  simpa [subxEffect, subEffect, CCR.xBit, isZero, hz] using h

/-- A compare is a subtraction that keeps X. -/
theorem cmpFlags_eq (hn : 0 < n) (f : CCR) (S D : BitVec n) : cmpFlags f S D = compareFlags f.x S D := by
  have h := subEffect_ccr hn f S D
  calc cmpFlags f S D = { (subEffect f S D).ccr with x := f.x } := rfl
    _ = compareFlags f.x S D := by rw [h]; rfl

/-- A negation is a subtraction from zero (rules R59, R92). -/
theorem negxEffect_ccr (hn : 0 < n) (f : CCR) (D : BitVec n) :
    (negxEffect f D).ccr = differenceFlags D 0 f.x (f.z && (0 - D - BitVec.ofNat n f.x.toNat) == 0) := by
  rw [← subxEffect_ccr hn f D 0]
  simp only [negxEffect, subxEffect, negC_eq_subC, negV_eq_subV]

theorem negEffect_ccr (hn : 0 < n) (f : CCR) (D : BitVec n) :
    (negEffect f D).ccr = differenceFlags D 0 false (D == 0) := by
  rw [BEq.comm, ← subEffect_ccr hn f D 0]
  simp only [negEffect, subEffect, negC_eq_subC, negV_eq_subV]

end Effects

/-! ### The shapes of a family -/

section Families
variable {i : Instr} {s : State} {sz : Size} {dn : RegNum} {ea : Ea}

/-- An opmode instruction to a register. -/
theorem putsInDn_of_opmode (alu : BitVec sz.bits → BitVec sz.bits → Effect sz.bits)
    (runs : exec i s = opmode i sz .toDn dn ea s alu) (spent : ∀ S D, (alu S D).spent = 0)
    {result : BitVec sz.bits → BitVec sz.bits} {flags : BitVec sz.bits → CCR}
    (hresult : ∀ S, (alu S (lowPart sz s.d[dn])).result = result S)
    (hflags : ∀ S, (alu S (lowPart sz s.d[dn])).ccr = flags S) :
    PutsInDn i sz dn ea 0 s (fun S => mergeLow sz s.d[dn] (result S)) flags :=
  putsInDn_of_eaToDn (fun S D => ⟨mergeLow sz D (alu S (lowPart sz D)).result, (alu S (lowPart sz D)).ccr,
    (alu S (lowPart sz D)).spent⟩) runs (fun _ => spent _ _) (fun S => by simp only [hresult S]) hflags

/-- The condition codes an opmode instruction to a register leaves. -/
theorem opmode_toDn_ccr (alu : BitVec sz.bits → BitVec sz.bits → Effect sz.bits) {t : State}
    (h : opmode i sz .toDn dn ea s alu = .next t) : t.ccr = (alu (eaRead sz ea 0 s) (lowPart sz s.d[dn])).ccr := by
  unfold opmode eaToDnLow at h
  obtain ⟨-, -, -, -, rfl⟩ := eaToDn_eq_next.1 h
  rfl

/-- The condition codes an instruction that changes `<ea>` leaves. -/
theorem modifyEa_ccr {before : Nat} (alu : BitVec sz.bits → Effect sz.bits) {t : State}
    (h : modifyEa i sz ea before s alu = .next t) : t.ccr = (alu (eaRead sz ea before s)).ccr := by
  obtain ⟨-, -, -, -, -, rfl⟩ := modifyEa_eq_next.1 h
  rfl

end Families

/-! ### Addition and subtraction -/

/-- Settles O24. -/
theorem addResults : Obligations.AddResults := by
  intro sz dn ea s
  have hn := bits_pos sz
  refine ⟨?_, ?_, fun imm => ?_, fun q => ?_⟩
  · exact putsInDn_of_opmode (addEffect s.ccr) rfl (fun _ _ => rfl) (fun _ => rfl) fun S => addEffect_ccr hn _ S _
  · exact replaces_of_modifyEa (addEffect s.ccr _) rfl (fun _ => rfl) (fun _ => rfl) (addEffect_ccr hn _ _)
  · exact replaces_of_modifyEa (addEffect s.ccr _) rfl (fun _ => rfl) (fun _ => rfl) (addEffect_ccr hn _ _)
  · exact replaces_of_modifyEa (addEffect s.ccr _) rfl (fun _ => rfl) (fun _ => rfl) (addEffect_ccr hn _ _)

/-- Settles O25. -/
theorem subResults : Obligations.SubResults := by
  intro sz dn ea s
  have hn := bits_pos sz
  refine ⟨?_, ?_, fun imm => ?_, fun q => ?_⟩
  · exact putsInDn_of_opmode (subEffect s.ccr) rfl (fun _ _ => rfl) (fun _ => rfl) fun S => subEffect_ccr hn _ S _
  · exact replaces_of_modifyEa (subEffect s.ccr _) rfl (fun _ => rfl) (fun _ => rfl) (subEffect_ccr hn _ _)
  · exact replaces_of_modifyEa (subEffect s.ccr _) rfl (fun _ => rfl) (fun _ => rfl) (subEffect_ccr hn _ _)
  · exact replaces_of_modifyEa (subEffect s.ccr _) rfl (fun _ => rfl) (fun _ => rfl) (subEffect_ccr hn _ _)

theorem exec_addxOf (sz : Size) (form : XForm) (dst src : RegNum) (s : State) :
    exec (addxOf sz form dst src) s = extended sz form dst src s (addxEffect s.ccr) := by
  cases sz <;> rfl

theorem exec_subxOf (sz : Size) (form : XForm) (dst src : RegNum) (s : State) :
    exec (subxOf sz form dst src) s = extended sz form dst src s (subxEffect s.ccr) := by
  cases sz <;> rfl

theorem exec_cmpOf (sz : Size) (dn : RegNum) (ea : Ea) (s : State) :
    exec (cmpOf sz dn ea) s =
      testEa (cmpOf sz dn ea) sz ea 0 s fun S => cmpFlags s.ccr S (lowPart sz s.d[dn]) := by
  cases sz <;> rfl

/-- Settles O26. -/
theorem addxResults : Obligations.AddxResults := by
  intro sz dst src s
  have hn := bits_pos sz
  refine ⟨?_, ?_⟩
  · exact setsDn_of_extended (exec_addxOf sz .data dst src s) rfl rfl rfl (addxEffect_ccr hn s.ccr _ _)
  · exact replacesByPredecrement_of_extended (exec_addxOf sz .predec dst src s) rfl (fun _ _ => rfl) (fun _ _ => rfl)
      (addxEffect_ccr hn s.ccr)

/-- Settles O27. -/
theorem subxResults : Obligations.SubxResults := by
  intro sz dst src s
  have hn := bits_pos sz
  refine ⟨?_, ?_⟩
  · exact setsDn_of_extended (exec_subxOf sz .data dst src s) rfl rfl rfl (subxEffect_ccr hn s.ccr _ _)
  · exact replacesByPredecrement_of_extended (exec_subxOf sz .predec dst src s) rfl (fun _ _ => rfl) (fun _ _ => rfl)
      (subxEffect_ccr hn s.ccr)

/-- Settles O30. -/
theorem negateResults : Obligations.NegateResults := by
  intro sz ea s
  have hn := bits_pos sz
  exact ⟨replaces_of_modifyEa (negEffect s.ccr) rfl (fun _ => rfl) (fun _ => rfl) (negEffect_ccr hn s.ccr),
    replaces_of_modifyEa (negxEffect s.ccr) rfl (fun _ => rfl) (fun _ => rfl) (negxEffect_ccr hn s.ccr)⟩

/-! ### Compare -/

/-- The fields of an operation word. -/
theorem opWord_fields {line r9 opm low : Nat} (hline : line < 16) (hr9 : r9 < 8) (hopm : opm < 8) (hlow : low < 64) :
    (opWord line r9 opm low).toNat / 4096 = line ∧ (opWord line r9 opm low).toNat / 512 % 8 = r9 ∧
      (opWord line r9 opm low).toNat / 64 % 8 = opm := by
  rw [opWord, BitVec.toNat_ofNat, Nat.mod_eq_of_lt (by omega)]
  omega

theorem field_lt (ea : Ea) : ea.field < 64 := by
  have := modeField_lt ea
  have := regField_lt ea
  rw [Ea.field]
  omega

/-- Settles O28. -/
theorem compareResults : Obligations.CompareResults := by
  intro sz dn ea s
  refine ⟨tests_of_testEa (exec_cmpOf sz dn ea s) fun S => cmpFlags_eq (bits_pos sz) s.ccr S _, ?_⟩
  have words (opm : Nat) (hopm : opm < 8) := opWord_fields (line := 11) (by decide) dn.isLt hopm (field_lt ea)
  cases sz with
  | byte => exact ⟨_, _, rfl, words 0 (by decide)⟩
  | word => exact ⟨_, _, rfl, words 1 (by decide)⟩
  | long => exact ⟨_, _, rfl, words 2 (by decide)⟩

/-- An increment happens unless it leaves the address space (U10). -/
theorem postincStop_eq_none {sz : Size} {r : RegNum} {s : State} :
    postincStop sz r s = none ↔ s.a[r].toNat + sz.bytes < 2 ^ 32 := by
  simp [postincStop]

/-- CMPM: every way to a next state. -/
theorem execCmpm_eq_next {sz : Size} {dst src : RegNum} {s t : State} :
    execCmpm sz dst src s = .next t ↔
      accessStop sz s.a[src] s = none ∧ postincStop sz src s = none ∧
        accessStop sz (postinc sz src s).a[dst] s = none ∧ postincStop sz dst (postinc sz src s) = none ∧
        pcStop 1 s = none ∧
        (postinc sz dst (postinc sz src s)).finish
          (cmpFlags s.ccr (memRead sz s.a[src] s) (memRead sz (postinc sz src s).a[dst] s)) 0 1 = t := by
  simp only [execCmpm, check_eq_next, Host.Outcome.next.injEq]

/-- Settles O29. -/
theorem compareImmediateAndMemory : Obligations.CompareImmediateAndMemory := by
  intro sz s
  have hn := bits_pos sz
  refine ⟨fun imm ea => tests_of_testEa rfl fun D => cmpFlags_eq hn s.ccr _ D, ?_⟩
  intro dst src a1 a2 hsrc hdst readSrc readDst fits
  refine execCmpm_eq_next.2 ⟨readSrc, postincStop_eq_none.2 hsrc, readDst, postincStop_eq_none.2 hdst,
    pcStop_of_fits fits, ?_⟩
  rw [cmpFlags_eq hn]
  rfl

/-- The tests compare D with S, unsigned and signed (rule R189). -/
def ComparesAs {n : Nat} (f : CCR) (S D : BitVec n) : Prop :=
  condHolds .hi f = decide (S.toNat < D.toNat) ∧ condHolds .cs f = decide (D.toNat < S.toNat) ∧
    condHolds .eq f = decide (D = S) ∧ condHolds .gt f = decide (S.toInt < D.toInt) ∧
    condHolds .lt f = decide (D.toInt < S.toInt) ∧ condHolds .mi f = (D - S).msb ∧
    condHolds .vs f = !fitsSigned n (D.toInt - S.toInt)

theorem comparesAs_cmpFlags {n : Nat} (hn : 0 < n) (f : CCR) (S D : BitVec n) : ComparesAs (cmpFlags f S D) S D := by
  refine ⟨condHolds_hi_cmpFlags f S D, condHolds_cs_cmpFlags f S D, condHolds_eq_cmpFlags f S D,
    condHolds_gt_cmpFlags f S D, condHolds_lt_cmpFlags f S D, rfl, ?_⟩
  rw [cmpFlags_eq hn]
  simp [condHolds, compareFlags, differenceFlags]

/-- A subtraction leaves the flags of a compare, X beside them. -/
theorem subEffect_ccr_eq_cmpFlags {n : Nat} (f : CCR) (S D : BitVec n) :
    (subEffect f S D).ccr = cmpFlags { f with x := subC S D (D - S) } S D := rfl

/-- Settles O17: CMP, CMPI and CMPM leave the flags of a compare, and so do SUB, SUBI and SUBQ but for X, which no test
reads. -/
theorem testsAfterACompare : Obligations.TestsAfterACompare := by
  intro sz dn ea s t
  have ofCmp (f : CCR) (S D : BitVec sz.bits) : ComparesAs (cmpFlags f S D) S D :=
    comparesAs_cmpFlags (bits_pos sz) f S D
  have ofSub (S D : BitVec sz.bits) : ComparesAs (subEffect s.ccr S D).ccr S D :=
    subEffect_ccr_eq_cmpFlags s.ccr S D ▸ ofCmp _ S D
  refine ⟨fun h => ?_, fun imm h => ?_, fun src h => ?_, fun h => ?_, fun h => ?_, fun imm h => ?_, fun q h => ?_⟩
  · obtain ⟨-, -, -, rfl⟩ := testEa_eq_next.1 (exec_cmpOf sz dn ea s ▸ h)
    exact ofCmp _ _ _
  · obtain ⟨-, -, -, rfl⟩ := testEa_eq_next.1 h
    exact ofCmp _ _ _
  · obtain ⟨-, -, -, -, -, rfl⟩ := execCmpm_eq_next.1 h
    exact ofCmp _ _ _
  · exact opmode_toDn_ccr (subEffect s.ccr) h ▸ ofSub _ _
  · exact modifyEa_ccr (subEffect s.ccr _) h ▸ ofSub _ _
  · exact modifyEa_ccr (subEffect s.ccr _) h ▸ ofSub _ _
  · exact modifyEa_ccr (subEffect s.ccr _) h ▸ ofSub _ _

/-! ### Logic and moves -/

/-- Settles O36. -/
theorem logicResults : Obligations.LogicResults := by
  intro sz dn imm ea s
  have toDn (op : BitVec sz.bits → BitVec sz.bits → BitVec sz.bits) {i : Instr}
      (runs : exec i s = opmode i sz .toDn dn ea s fun S D => logicEffect s.ccr (op S D)) :
      PutsInDn i sz dn ea 0 s (fun S => mergeLow sz s.d[dn] (op S (lowPart sz s.d[dn])))
        (fun S => resultFlags s.ccr.x (op S (lowPart sz s.d[dn]))) :=
    putsInDn_of_opmode (fun S D => logicEffect s.ccr (op S D)) runs (fun _ _ => rfl) (fun _ => rfl) fun _ => rfl
  have toEa {before : Nat} (op : BitVec sz.bits → BitVec sz.bits) {i : Instr}
      (runs : exec i s = modifyEa i sz ea before s fun T => logicEffect s.ccr (op T)) :
      Replaces i sz ea before s op (fun T => resultFlags s.ccr.x (op T)) :=
    replaces_of_modifyEa (fun T => logicEffect s.ccr (op T)) runs (fun _ => rfl) (fun _ => rfl) fun _ => rfl
  exact ⟨toDn (· &&& ·) rfl, toEa (_ &&& ·) rfl, toDn (· ||| ·) rfl, toEa (_ ||| ·) rfl, toEa (_ ^^^ ·) rfl,
    toEa (_ &&& ·) rfl, toEa (_ ||| ·) rfl, toEa (_ ^^^ ·) rfl⟩

/-- Settles O37. -/
theorem moveResult : Obligations.MoveResult := by
  intro sz src dst s before R wf read write fits
  refine execMove_eq_next.2 ⟨wf, read, write, pcStop_of_fits fits, ?_⟩
  rw [finish_eq (s := s) (by simp), Nat.add_zero]
  rfl

/-- The logic row's flags of a sign extension are those of the value extended. -/
theorem logicFlags_signExtend {n m : Nat} (h : n ≤ m) (f : CCR) (v : BitVec n) :
    logicFlags f (v.signExtend m) = ⟨f.x, v.msb, v == 0, false, false⟩ := by
  have hint : (v.signExtend m).toInt = v.toInt := BitVec.toInt_signExtend_of_le h
  have hzero : v.signExtend m = 0 ↔ v = 0 := by
    rw [← BitVec.toInt_inj, ← BitVec.toInt_inj, hint]
    simp
  simp only [logicFlags, isZero, BitVec.msb_eq_toInt, hint, beq_eq_decide, hzero]

/-- Settles O38. -/
theorem signExtensions : Obligations.SignExtensions := fun _ _ s =>
  ⟨setsDn_of_check (fun _ => rfl) rfl (logicFlags_signExtend (by decide) s.ccr _),
    setsDn_of_check (fun _ => rfl) rfl (logicFlags_signExtend (by decide) s.ccr _),
    setsDn_of_check (fun _ => rfl) rfl (logicFlags_signExtend (by decide) s.ccr _)⟩

/-- Settles O39. -/
theorem singleOperandLogic : Obligations.SingleOperandLogic := by
  intro sz ea s
  refine ⟨?_, ?_, ?_, tests_of_testEa rfl fun _ => rfl⟩
  · have hzero : logicFlags s.ccr (0 : BitVec sz.bits) = ⟨s.ccr.x, false, true, false, false⟩ := by
      simp [logicFlags, isZero]
    exact stores_of_storeEa (hzero ▸ rfl)
  · exact replaces_of_modifyEa (fun D => logicEffect s.ccr (~~~D)) rfl (fun _ => rfl) (fun _ => rfl) fun _ => rfl
  · exact replaces_of_modifyEa (sz := .byte) (tasEffect s.ccr) rfl (fun _ => rfl) (fun _ => rfl) fun _ => rfl

end Sys2Proof.Machine
end

section
/-! PROOFS. The addressing modes (30_encoding.md section 5.2), the bounds checks, multiplies and divides (44_chk.md,
45_mul_div.md), the bit instructions (46_bit.md), the branches and the sets (48_conditional_tests.md). -/

namespace Sys2Proof.Machine

/-! ### Addressing modes -/

/-- Settles O23: each mode by its row of the table; the low word of an index register is its bits 15 to 0. -/
theorem addressingModes : Obligations.AddressingModes := by
  intro sz b s r d a v ix
  have low (x : Long) : x.setWidth 16 = x.extractLsb' 0 16 := BitVec.setWidth_eq_extractLsb' (by decide)
  have index (base : Long) : indexAddr base ix s = base + ix.disp.signExtend 32 +
      (if ix.isLong then (if ix.isAddr then s.a[ix.reg] else s.d[ix.reg])
       else ((if ix.isAddr then s.a[ix.reg] else s.d[ix.reg]).extractLsb' 0 16).signExtend 32) := by
    rw [← low]
    rfl
  refine ⟨rfl, rfl, rfl, rfl, rfl, rfl, rfl, rfl, ?_, rfl, rfl, rfl, ?_, rfl, fun res => ?_⟩
  · exact congrArg (memRead sz · s) (index s.a[r])
  · exact congrArg (memRead sz · s) (index _)
  · exact ⟨rfl, rfl, rfl, rfl, rfl, congrArg (memWrite sz · res s) (index s.a[r]), rfl, rfl⟩

/-! ### Bounds -/

section Bounds
variable {sz : Size} {reg : RegNum} {ea : Ea} {s : State}

/-- CHK: every way to a next state. -/
theorem execChk_eq_next {t : State} :
    execChk sz reg ea s = .next t ↔
      (Instr.chk sz reg ea).wf = true ∧ eaReadStop sz ea 0 s = none ∧
        chkOut (lowPart sz s.d[reg]) (eaRead sz ea 0 s) = false ∧ pcStop (1 + ea.extWords sz) s = none ∧
        (eaAfter sz ea s).finish (chkFlags s (lowPart sz s.d[reg]) (eaRead sz ea 0 s)) 4 (1 + ea.extWords sz) = t := by
  simp only [execChk, check_eq_next, formStop_eq_none, refuseIf_eq_none, Host.Outcome.next.injEq]

/-- CHK2: every way to a next state. -/
theorem execChk2_eq_next {isAddr : Bool} {t : State} :
    execChk2 sz isAddr reg ea s = .next t ↔
      s.cfg.hasChk2 = true ∧ (Instr.chk2 sz isAddr reg ea).wf = true ∧ eaStop sz ea (s.extAddr 1) s = none ∧
        accessStop sz (chk2Addr sz ea s) s = none ∧ chk2WrapStop sz ea s = none ∧
        accessStop sz (chk2UpperAddr sz ea s) s = none ∧ (chk2Result sz isAddr reg ea s).c = false ∧
        pcStop (2 + ea.extWords sz) s = none ∧
        s.finish (chk2Result sz isAddr reg ea s) 2 (2 + ea.extWords sz) = t := by
  simp only [execChk2, check_eq_next, formStop_eq_none, refuseIf_eq_none, Host.Outcome.next.injEq,
    Bool.not_eq_false']

theorem chk2WrapStop_eq_none : chk2WrapStop sz ea s = none ↔ (chk2Addr sz ea s).toNat + sz.bytes < 2 ^ 32 := by
  simp [chk2WrapStop]

/-- Settles O40. -/
theorem chkInBounds : Obligations.ChkInBounds := by
  intro sz dn ea s R UB wf read low high fits
  have inside : chkOut R UB = false := by
    simp [chkOut, low, high]
  let f := chkFlags s R UB
  refine ⟨f.n, f.z, f.v, f.c, execChk_eq_next.2 ⟨wf, read, inside, pcStop_of_fits fits, ?_⟩⟩
  rw [finish_eq (s := s) (by simp), eaAfter_draws]
  rfl

/-- Inside the bounds, or around the wrap where they stand in the wrong order, CHK2's carry is clear. -/
theorem chk2Carry_inside {n : Nat} {R LB UB : BitVec n}
    (h : (LB.toNat ≤ R.toNat ∧ R.toNat ≤ UB.toNat) ∨
      (UB.toNat < LB.toNat ∧ (R.toNat ≤ UB.toNat ∨ LB.toNat ≤ R.toNat))) :
    chk2Carry R LB UB = false := by
  simp only [chk2Carry, ← Bool.decide_and, ← Bool.decide_or, decide_eq_false_iff_not]
  omega

theorem chk2Flags_inside {n : Nat} {R LB UB : BitVec n} (h : chk2Carry R LB UB = false) :
    chk2Flags s R LB UB = ⟨s.ccr.x, s.freeBit 0, R == LB || R == UB, s.freeBit 1, false⟩ := by
  simp only [chk2Flags, h]

/-- CHK2 completes with its condition codes where these leave C clear. -/
theorem execChk2_completes {isAddr : Bool} {f : CCR} (present : s.cfg.hasChk2 = true)
    (formed : eaStop sz ea (s.extAddr 1) s = none) (readLower : accessStop sz (chk2Addr sz ea s) s = none)
    (wrap : (chk2Addr sz ea s).toNat + sz.bytes < 2 ^ 32) (readUpper : accessStop sz (chk2UpperAddr sz ea s) s = none)
    (fits : s.fits (2 + ea.extWords sz)) (wf : (Instr.chk2 sz isAddr reg ea).wf = true)
    (flags : chk2Result sz isAddr reg ea s = f) (inside : f.c = false) :
    exec (.chk2 sz isAddr reg ea) s = .next { s with
      ccr := f, pc := s.pcPast (2 + ea.extWords sz), draws := s.draws + 2 } := by
  refine execChk2_eq_next.2 ⟨present, wf, formed, readLower, chk2WrapStop_eq_none.2 wrap, readUpper, flags ▸ inside,
    pcStop_of_fits fits, ?_⟩
  rw [flags, finish_eq (s := s) rfl]

/-- Settles O41. -/
theorem chk2InBounds : Obligations.Chk2InBounds := by
  intro sz reg ea s lower upper inside completes present formed readLower wrap readUpper fits
  exact ⟨fun wf h => ⟨_, _, execChk2_completes present formed readLower wrap readUpper fits wf
      (chk2Flags_inside (chk2Carry_inside h)) rfl⟩,
    fun wf h => ⟨_, _, execChk2_completes present formed readLower wrap readUpper fits wf
      (chk2Flags_inside (chk2Carry_inside h)) rfl⟩⟩

/-- Outside the bounds, signed, CHK2's carry is set. -/
theorem chk2Carry_outside {n : Nat} (hn : 0 < n) {R LB UB : BitVec n}
    (h : (LB.toInt ≤ UB.toInt ∧ (R.toInt < LB.toInt ∨ UB.toInt < R.toInt)) ∨
      (UB.toInt < R.toInt ∧ R.toInt < LB.toInt)) : chk2Carry R LB UB = true := by
  rw [chk2Carry_signed hn]
  simp only [← Bool.decide_and, ← Bool.decide_or, decide_eq_true_iff]
  omega

/-- CHK2 out of bounds, once its bounds are read. -/
theorem execChk2_outOfBounds {isAddr : Bool} (present : s.cfg.hasChk2 = true) (wf : ea.admitsControl = true)
    (formed : eaStop sz ea (s.extAddr 1) s = none) (readLower : accessStop sz (chk2Addr sz ea s) s = none)
    (wrap : (chk2Addr sz ea s).toNat + sz.bytes < 2 ^ 32) (readUpper : accessStop sz (chk2UpperAddr sz ea s) s = none)
    (out : (chk2Result sz isAddr reg ea s).c = true) : execChk2 sz isAddr reg ea s = .refused .outOfBounds := by
  have form : formStop (.chk2 sz isAddr reg ea) = none := formStop_eq_none.2 wf
  simp [execChk2, present, form, formed, readLower, chk2WrapStop_eq_none.2 wrap, readUpper, out, refuseIf, Stop.outcome]

/-- Settles O42. -/
theorem outOfBoundsIsRefused : Obligations.OutOfBoundsIsRefused := by
  intro sz reg ea s
  have hn := bits_pos sz
  refine ⟨?_, ?_, fun R LB UB => ⟨rfl, fun h => ?_, fun h h' => ?_, rfl, rfl, chk2Carry_signed hn R LB UB⟩⟩
  · intro R UB wf read out
    have hout : chkOut R UB = true := by simpa [chkOut] using out
    simp only [exec, execChk, formStop_eq_none.2 wf, read, check_none, refuseIf]
    exact congrArg (check · _) (if_pos hout)
  · intro lower upper outside present wf formed readLower wrap readUpper
    exact ⟨fun out => execChk2_outOfBounds present wf formed readLower wrap readUpper (chk2Carry_outside hn out),
      fun out => execChk2_outOfBounds present wf formed readLower wrap readUpper
        (chk2Carry_outside (by decide) out)⟩
  · simp [chkFlags, h]
  · simp [chkFlags, h', Int.not_lt.2 h]

end Bounds

/-! ### Divide -/

/-- The sign and the zero of a signed number that fits. -/
theorem ofInt_flags {n : Nat} (hn : 0 < n) {v : Int} (h : fitsSigned n v = true) :
    (BitVec.ofInt n v).msb = decide (v < 0) ∧ isZero (BitVec.ofInt n v) = decide (v = 0) := by
  have hfit : -(2 ^ (n - 1)) ≤ v ∧ v < 2 ^ (n - 1) := by simpa [fitsSigned] using h
  have hint : (BitVec.ofInt n v).toInt = v := BitVec.toInt_ofInt_eq_self hn hfit.1 hfit.2
  have hzero : BitVec.ofInt n v = 0 ↔ v = 0 := by
    rw [← BitVec.toInt_inj, hint]
    simp
  simp only [isZero, BitVec.msb_eq_toInt, hint, beq_eq_decide, hzero, and_self]

/-- The sign and the zero of a number that fits. -/
theorem ofNat_flags {n v : Nat} (h : v < 2 ^ n) :
    (BitVec.ofNat n v).msb = decide (2 ^ (n - 1) ≤ v) ∧ isZero (BitVec.ofNat n v) = decide (v = 0) := by
  have hnat : (BitVec.ofNat n v).toNat = v := by rw [BitVec.toNat_ofNat, Nat.mod_eq_of_lt h]
  have hzero : BitVec.ofNat n v = 0 ↔ v = 0 := by
    rw [← BitVec.toNat_inj, hnat]
    simp
  simp only [isZero, BitVec.msb_eq_decide, hnat, beq_eq_decide, hzero, and_self]

theorem divisorStop_eq_none {S : Word} (h : S ≠ 0) : divisorStop S = none := by
  simpa [divisorStop] using h

/-- The exact quotient and remainder of DIVS: truncated, the remainder smaller than the divisor and of the dividend's
sign. -/
theorem tdiv_remainder (D S : Int) (hS : S ≠ 0) :
    let rem := D - D.tdiv S * S
    D = D.tdiv S * S + rem ∧ |rem| < |S| ∧ (0 < rem → 0 < D) ∧ (rem < 0 → D < 0) := by
  intro rem
  have hrem : rem = D.tmod S := by
    have := Int.tdiv_mul_add_tmod D S
    omega
  have habs : rem.natAbs < S.natAbs := by
    rw [hrem, Int.natAbs_tmod]
    exact Nat.mod_lt _ (Int.natAbs_pos.2 hS)
  have hpos : 0 ≤ D → 0 ≤ rem := fun h => hrem ▸ Int.tmod_nonneg S h
  have hneg : D ≤ 0 → rem ≤ 0 := fun h => by
    have := Int.tmod_nonneg S (a := -D) (by omega)
    rw [Int.neg_tmod] at this
    omega
  refine ⟨by omega, ?_, by omega, by omega⟩
  rw [Int.abs_eq_natAbs, Int.abs_eq_natAbs]
  exact_mod_cast habs

section Divide
variable {i : Instr} {s : State} {dn : RegNum} {ea : Ea} {r : Long} {f : CCR}

/-- A divide that fits completes. -/
theorem divide_completes {alu : Word → Long → Effect 32} (runs : exec i s = eaToDn i .word dn ea 0 s alu divisorStop)
    (wf : i.wf = true) (read : eaReadStop .word ea 0 s = none) (nonzero : eaRead .word ea 0 s ≠ (0 : Word))
    (fits : s.fits (1 + ea.extWords .word)) (effect : alu (eaRead .word ea 0 s) s.d[dn] = ⟨r, f, 0⟩) :
    exec i s = .next { eaAfter .word ea s with
      d := s.d.set dn r, ccr := f, pc := s.pcPast (1 + ea.extWords .word) } := by
  rw [runs, eaToDn_completes wf read (divisorStop_eq_none nonzero) fits, effect, ← eaAfter_draws s .word ea]
  rfl

/-- A divide that overflows completes and keeps its register. -/
theorem divide_overflows {alu : Word → Long → Effect 32} (runs : exec i s = eaToDn i .word dn ea 0 s alu divisorStop)
    (wf : i.wf = true) (read : eaReadStop .word ea 0 s = none) (nonzero : eaRead .word ea 0 s ≠ (0 : Word))
    (fits : s.fits (1 + ea.extWords .word)) (effect : alu (eaRead .word ea 0 s) s.d[dn] = ⟨s.d[dn], f, 2⟩) :
    exec i s = .next { eaAfter .word ea s with
      ccr := f, pc := s.pcPast (1 + ea.extWords .word), draws := s.draws + 2 } := by
  have keeps : s.d.set dn s.d[dn] = (eaAfter .word ea s).d := by simp
  rw [runs, eaToDn_completes wf read (divisorStop_eq_none nonzero) fits, effect, keeps]

end Divide

/-- DIVS where the quotient fits: remainder and quotient, N and Z of the quotient. -/
theorem divsEffect_fits (s : State) (S : Word) (D : Long) (h : fitsSigned 16 (D.toInt.tdiv S.toInt) = true) :
    divsEffect s S D = ⟨BitVec.ofInt 16 (D.toInt - D.toInt.tdiv S.toInt * S.toInt) ++
      BitVec.ofInt 16 (D.toInt.tdiv S.toInt),
      ⟨s.ccr.x, decide (D.toInt.tdiv S.toInt < 0), decide (D.toInt.tdiv S.toInt = 0), false, false⟩, 0⟩ := by
  obtain ⟨hsign, hzero⟩ := ofInt_flags (by decide) h
  have hover : (decide (D.toInt.tdiv S.toInt < -32768) || decide (32767 < D.toInt.tdiv S.toInt)) = false := by
    simp only [fitsSigned_eq_decide, decide_eq_true_iff, ← Bool.decide_or, decide_eq_false_iff_not] at h ⊢
    omega
  simp only [divsEffect, divEffect, hover, hsign, hzero, Bool.false_eq_true, if_false]

/-- DIVS where the quotient does not fit: the register, V set, N and Z drawn. -/
theorem divsEffect_overflows (s : State) (S : Word) (D : Long) (h : fitsSigned 16 (D.toInt.tdiv S.toInt) = false) :
    divsEffect s S D = ⟨D, ⟨s.ccr.x, s.freeBit 0, s.freeBit 1, true, false⟩, 2⟩ := by
  have hover : (decide (D.toInt.tdiv S.toInt < -32768) || decide (32767 < D.toInt.tdiv S.toInt)) = true := by
    simp only [fitsSigned_eq_decide, decide_eq_false_iff_not, ← Bool.decide_or, decide_eq_true_iff] at h ⊢
    omega
  simp only [divsEffect, divEffect, hover, if_true]

/-- DIVU where the quotient fits. -/
theorem divuEffect_fits (s : State) (S : Word) (D : Long) (h : D.toNat / S.toNat < 65536) :
    divuEffect s S D = ⟨BitVec.ofNat 16 (D.toNat % S.toNat) ++ BitVec.ofNat 16 (D.toNat / S.toNat),
      ⟨s.ccr.x, decide (32768 ≤ D.toNat / S.toNat), decide (D.toNat / S.toNat = 0), false, false⟩, 0⟩ := by
  obtain ⟨hsign, hzero⟩ := ofNat_flags (n := 16) h
  have hover : decide (65535 < D.toNat / S.toNat) = false := by simpa using Nat.le_of_lt_succ h
  simp only [divuEffect, divEffect, hover, hsign, hzero, Bool.false_eq_true, if_false]
  rfl

/-- DIVU where the quotient does not fit. -/
theorem divuEffect_overflows (s : State) (S : Word) (D : Long) (h : 65536 ≤ D.toNat / S.toNat) :
    divuEffect s S D = ⟨D, ⟨s.ccr.x, s.freeBit 0, s.freeBit 1, true, false⟩, 2⟩ := by
  have hover : decide (65535 < D.toNat / S.toNat) = true := decide_eq_true h
  simp only [divuEffect, divEffect, hover, if_true]

/-- Settles O43. -/
theorem signedDivide : Obligations.SignedDivide := by
  intro dn ea s D S wf read nonzero fits
  have hS : S.toInt ≠ 0 := fun h => nonzero (BitVec.toInt_inj.1 h)
  obtain ⟨heq, hlt, hpos, hneg⟩ := tdiv_remainder D.toInt S.toInt hS
  exact ⟨_, _, heq, hlt, hpos, hneg,
    fun hfits => divide_completes (alu := divsEffect s) rfl wf read nonzero fits (divsEffect_fits s S D hfits),
    fun hover => ⟨s.freeBit 0, s.freeBit 1,
      divide_overflows (alu := divsEffect s) rfl wf read nonzero fits (divsEffect_overflows s S D hover)⟩⟩

/-- Settles O44. -/
theorem unsignedDivide : Obligations.UnsignedDivide := by
  intro dn ea s D S wf read nonzero fits
  have hS : 0 < S.toNat := Nat.pos_of_ne_zero fun h => nonzero (BitVec.eq_of_toNat_eq h)
  exact ⟨D.toNat / S.toNat, D.toNat % S.toNat, (Nat.div_add_mod' _ _).symm, Nat.mod_lt _ hS,
    fun hfits => divide_completes (alu := divuEffect s) rfl wf read nonzero fits (divuEffect_fits s S D hfits),
    fun hover => ⟨s.freeBit 0, s.freeBit 1,
      divide_overflows (alu := divuEffect s) rfl wf read nonzero fits (divuEffect_overflows s S D hover)⟩⟩

/-! ### Multiply -/

theorem mulFormStop_long {s : State} (h : s.cfg.longMultiply = true) : mulFormStop .long s = none := by
  simp [mulFormStop, h]

/-- The product of two signed words is a signed 31-bit number. -/
theorem signed_product_bounds (S D : Word) : -2 ^ 30 ≤ S.toInt * D.toInt ∧ S.toInt * D.toInt ≤ 2 ^ 30 := by
  have hS : |S.toInt| ≤ 2 ^ 15 := abs_le.2 ⟨BitVec.le_toInt S, (BitVec.toInt_lt (x := S)).le⟩
  have hD : |D.toInt| ≤ 2 ^ 15 := abs_le.2 ⟨BitVec.le_toInt D, (BitVec.toInt_lt (x := D)).le⟩
  have hprod : |S.toInt * D.toInt| ≤ 2 ^ 15 * 2 ^ 15 := by
    rw [abs_mul]
    exact mul_le_mul hS hD (abs_nonneg _) (by decide)
  exact abs_le.1 (hprod.trans (by decide))

/-- MULS of words: the product fits. -/
theorem mulsEffect_word_ccr (f : CCR) (S D : Word) :
    (mulsEffect f S D).ccr = ⟨f.x, decide (S.toInt * D.toInt < 0), decide (S.toInt * D.toInt = 0), false, false⟩ := by
  have bounds := signed_product_bounds S D
  obtain ⟨hsign, hzero⟩ := ofInt_flags (n := 32) (v := S.toInt * D.toInt) (by decide)
    (by rw [fitsSigned_eq_decide, decide_eq_true_iff]; omega)
  have hover : (decide (S.toInt * D.toInt < -2147483648) || decide (2147483647 < S.toInt * D.toInt)) = false := by
    rw [← Bool.decide_or, decide_eq_false_iff_not]
    omega
  simp only [mulsEffect, mulEffect, hsign, hzero, hover]

/-- MULU of words: the product fits. -/
theorem muluEffect_word_ccr (f : CCR) (S D : Word) :
    (muluEffect f S D).ccr = ⟨f.x, decide (2 ^ 31 ≤ S.toNat * D.toNat), decide (S.toNat * D.toNat = 0), false,
      false⟩ := by
  have bound : S.toNat * D.toNat < 2 ^ 32 := Nat.mul_lt_mul'' (c := 2 ^ 16) (d := 2 ^ 16) S.isLt D.isLt
  obtain ⟨hsign, hzero⟩ := ofNat_flags bound
  have hover : decide (2 ^ 32 ≤ S.toNat * D.toNat) = false := by
    rw [decide_eq_false_iff_not]
    omega
  simp only [muluEffect, mulEffect, hsign, hzero, hover]

/-- MULS overflows where the product is no signed long word. -/
theorem mulsEffect_ccr {n : Nat} (f : CCR) (S D : BitVec n) :
    (mulsEffect f S D).ccr = ⟨f.x, (BitVec.ofInt 32 (S.toInt * D.toInt)).msb, BitVec.ofInt 32 (S.toInt * D.toInt) == 0,
      !fitsSigned 32 (S.toInt * D.toInt), false⟩ := by
  have hover : (decide (S.toInt * D.toInt < -2147483648) || decide (2147483647 < S.toInt * D.toInt)) =
      !fitsSigned 32 (S.toInt * D.toInt) := by
    simp only [fitsSigned_eq_decide, ← decide_not, ← Bool.decide_or, decide_eq_decide]
    omega
  simp only [mulsEffect, mulEffect, hover, isZero]

/-- Settles O45. -/
theorem multiplyWords : Obligations.MultiplyWords := by
  intro dn ea s
  exact ⟨putsInDn_of_eaToDn (sz := .word) (fun S D => mulsEffect s.ccr S (lowPart .word D)) rfl (fun _ => rfl)
      (fun _ => rfl) fun S => mulsEffect_word_ccr s.ccr S _,
    putsInDn_of_eaToDn (sz := .word) (fun S D => muluEffect s.ccr S (lowPart .word D)) rfl (fun _ => rfl)
      (fun _ => rfl) fun S => muluEffect_word_ccr s.ccr S _⟩

/-- Settles O46. -/
theorem multiplyLongs : Obligations.MultiplyLongs := by
  intro dn ea s present
  have low : lowPart .long s.d[dn] = s.d[dn] := BitVec.setWidth_eq _
  have form := mulFormStop_long present
  refine ⟨putsInDn_of_eaToDn (sz := .long) (fun S D => mulsEffect s.ccr S (lowPart .long D)) ?_ (fun _ => rfl)
      (fun S => by rw [low]; rfl) (fun S => by rw [low]; exact mulsEffect_ccr s.ccr S _),
    putsInDn_of_eaToDn (sz := .long) (fun S D => muluEffect s.ccr S (lowPart .long D)) ?_ (fun _ => rfl)
      (fun S => by rw [low]; rfl) (fun S => by rw [low]; rfl)⟩
  · exact congrArg (check · _) form
  · exact congrArg (check · _) form

/-- Settles O47. -/
theorem zeroDivisorAndAbsentForms : Obligations.ZeroDivisorAndAbsentForms := by
  intro dn ea s
  refine ⟨fun read zero wf => ?_, fun absent sz isAddr => ?_, fun absent => ?_⟩
  · have stop : divisorStop (eaRead .word ea 0 s) = some (.refused .divideByZero) := by rw [zero]; rfl
    have refused {i : Instr} (alu : Word → Long → Effect 32) (hwf : i.wf = true) :
        eaToDn i .word dn ea 0 s alu divisorStop = .refused .divideByZero := by
      simp only [eaToDn, formStop_eq_none.2 hwf, read, stop, check_none, check_some, Stop.outcome]
    exact ⟨refused (divsEffect s) wf, refused (divuEffect s) wf⟩
  · simp [exec, execChk2, absent, refuseIf, Stop.outcome]
  · simp [exec, execMuls, execMulu, mulFormStop, absent, refuseIf, Stop.outcome]

/-! ### Bits -/

/-- Settles O48. -/
theorem bitTest : Obligations.BitTest := fun _ _ _ _ =>
  ⟨tests_of_testEa rfl fun _ => rfl, tests_of_testEa rfl fun _ => rfl⟩

/-- Settles O49. -/
theorem bitChange : Obligations.BitChange := by
  intro bit number ea s
  have replaces {i : Instr} {before b : Nat} (change : {n : Nat} → BitVec n → BitVec n → BitVec n)
      (runs : exec i s = modifyBit i ea before b s change) :
      Replaces i (bitSize ea) ea before s
        (fun D => change D (BitVec.twoPow (bitSize ea).bits (b % (bitSize ea).bits)))
        (fun D => { s.ccr with z := !D.getLsbD (b % (bitSize ea).bits) }) :=
    replaces_of_modifyEa (fun D => ⟨change D (bitMask _ (bitIndex (bitSize ea) b)),
      bitFlags s.ccr D (bitIndex (bitSize ea) b), 0⟩) runs (fun _ => rfl) (fun _ => rfl) fun _ => rfl
  exact ⟨replaces (fun D mask => D ^^^ mask) rfl, replaces (fun D mask => D ^^^ mask) rfl,
    replaces (fun D mask => D &&& ~~~mask) rfl, replaces (fun D mask => D &&& ~~~mask) rfl,
    replaces (fun D mask => D ||| mask) rfl, replaces (fun D mask => D ||| mask) rfl⟩

/-! ### Branches and sets -/

/-- A conditional branch on a test that its condition means. -/
theorem branchesOn_of_branch (c : Cond) {k : Disp → Instr} {test : CCR → Bool} (htest : ∀ f, condHolds c f = test f)
    (runs : ∀ disp s, exec (k disp) s = branch (k disp) c disp s) : BranchesOn k test := by
  intro disp s wf
  refine ⟨fun taken even => ?_, fun past fits => ?_⟩
  · exact runs disp s ▸ branch_eq_next.2 ⟨wf, .inl ⟨htest s.ccr ▸ taken, even, rfl⟩⟩
  · exact runs disp s ▸ branch_eq_next.2 ⟨wf, .inr ⟨htest s.ccr ▸ past, pcStop_of_fits fits, rfl⟩⟩

/-- Settles O55. -/
theorem branches : Obligations.Branches :=
  ⟨branchesOn_of_branch .hi (fun _ => rfl) fun _ _ => rfl, branchesOn_of_branch .ls (fun _ => rfl) fun _ _ => rfl,
    branchesOn_of_branch .cc (fun _ => rfl) fun _ _ => rfl, branchesOn_of_branch .cs (fun _ => rfl) fun _ _ => rfl,
    branchesOn_of_branch .ne (fun _ => rfl) fun _ _ => rfl, branchesOn_of_branch .eq (fun _ => rfl) fun _ _ => rfl,
    branchesOn_of_branch .vc (fun _ => rfl) fun _ _ => rfl, branchesOn_of_branch .vs (fun _ => rfl) fun _ _ => rfl,
    branchesOn_of_branch .pl (fun _ => rfl) fun _ _ => rfl, branchesOn_of_branch .mi (fun _ => rfl) fun _ _ => rfl,
    branchesOn_of_branch .ge condHolds_ge fun _ _ => rfl, branchesOn_of_branch .lt condHolds_lt fun _ _ => rfl,
    branchesOn_of_branch .gt condHolds_gt fun _ _ => rfl, branchesOn_of_branch .le condHolds_le fun _ _ => rfl⟩

/-- A set instruction on a test that its condition means. -/
theorem setsOn_of_setByte (c : Cond) {k : Ea → Instr} {test : CCR → Bool} (htest : ∀ f, condHolds c f = test f)
    (runs : ∀ ea s, exec (k ea) s = setByte (k ea) c ea s) : SetsOn k test := by
  intro ea s
  rw [← htest]
  exact stores_of_storeEa (runs ea s)

/-- Settles O57. -/
theorem sets : Obligations.Sets :=
  ⟨setsOn_of_setByte .t (fun _ => rfl) fun _ _ => rfl, setsOn_of_setByte .f (fun _ => rfl) fun _ _ => rfl,
    setsOn_of_setByte .hi (fun _ => rfl) fun _ _ => rfl, setsOn_of_setByte .ls (fun _ => rfl) fun _ _ => rfl,
    setsOn_of_setByte .cc (fun _ => rfl) fun _ _ => rfl, setsOn_of_setByte .cs (fun _ => rfl) fun _ _ => rfl,
    setsOn_of_setByte .ne (fun _ => rfl) fun _ _ => rfl, setsOn_of_setByte .eq (fun _ => rfl) fun _ _ => rfl,
    setsOn_of_setByte .vc (fun _ => rfl) fun _ _ => rfl, setsOn_of_setByte .vs (fun _ => rfl) fun _ _ => rfl,
    setsOn_of_setByte .pl (fun _ => rfl) fun _ _ => rfl, setsOn_of_setByte .mi (fun _ => rfl) fun _ _ => rfl,
    setsOn_of_setByte .ge condHolds_ge fun _ _ => rfl, setsOn_of_setByte .lt condHolds_lt fun _ _ => rfl,
    setsOn_of_setByte .gt condHolds_gt fun _ _ => rfl, setsOn_of_setByte .le condHolds_le fun _ _ => rfl⟩

end Sys2Proof.Machine
end

section
/-! PROOFS. Decimal arithmetic (41_bcd.md): packing is the inverse of unpacking below 100, so that the decimal effects
are the sum and difference modulo 100; and chains of ADDX.L and SUBX.L (70_reset_and_hazards.md section 2), by induction
on the chain. -/

namespace Sys2Proof.Machine

/-! ### Packed decimal -/

/-- A valid packed decimal is a number below 100. -/
theorem bcdDec_lt {b : Byte} (h : bcdValid b = true) : bcdDec b < 100 := by
  simp only [bcdValid, Bool.and_eq_true, decide_eq_true_eq] at h
  rw [bcdDec]
  omega

/-- A number below 100, packed, is valid and unpacks to itself. -/
theorem bcdEnc_spec {v : Nat} (h : v < 100) : bcdValid (bcdEnc v) = true ∧ bcdDec (bcdEnc v) = v := by
  have hb : (bcdEnc v).toNat = v / 10 * 16 + v % 10 := by
    rw [bcdEnc, BitVec.toNat_ofNat, Nat.mod_eq_of_lt (by omega)]
  simp only [bcdValid, bcdDec, hb, Bool.and_eq_true, decide_eq_true_eq]
  omega

/-- A decimal effect holds a value and a carry; Z accumulates (rules R54, R70 to R72). -/
def DecimalEffect (s : State) (e : Effect 8) (value : Nat) (carry : Bool) : Prop :=
  bcdValid e.result = true ∧ bcdDec e.result = value ∧ e.ccr.c = carry ∧ e.ccr.x = carry ∧
    e.ccr.z = (s.ccr.z && e.result == 0)

theorem decimalEffect_bcdEffect (s : State) {v : Nat} (carry : Bool) (h : v < 100) :
    DecimalEffect s (bcdEffect s (bcdEnc v) carry) v carry :=
  ⟨(bcdEnc_spec h).1, (bcdEnc_spec h).2, rfl, rfl, rfl⟩

/-- ABCD on packed decimal operands. -/
theorem abcdEffect_valid {s : State} {S D : Byte} (hS : bcdValid S = true) (hD : bcdValid D = true) :
    DecimalEffect s (abcdEffect s S D) ((bcdDec S + bcdDec D + s.ccr.x.toNat) % 100)
      (decide (99 < bcdDec S + bcdDec D + s.ccr.x.toNat)) := by
  simp only [abcdEffect, hS, hD, Bool.and_self, if_true]
  exact decimalEffect_bcdEffect s _ (Nat.mod_lt _ (by decide))

/-- SBCD on packed decimal operands. -/
theorem sbcdEffect_valid {s : State} {S D : Byte} (hS : bcdValid S = true) (hD : bcdValid D = true) :
    DecimalEffect s (sbcdEffect s S D) ((bcdDec D + 200 - bcdDec S - s.ccr.x.toNat) % 100)
      (decide (bcdDec D < bcdDec S + s.ccr.x.toNat)) := by
  have hS' := bcdDec_lt hS
  have hx := s.ccr.x.toNat_le
  have hvalue : (((bcdDec D : Int) - bcdDec S - s.ccr.x.toNat) % 100).toNat =
      (bcdDec D + 200 - bcdDec S - s.ccr.x.toNat) % 100 := by omega
  have hborrow : decide ((bcdDec D : Int) - bcdDec S - s.ccr.x.toNat < 0) =
      decide (bcdDec D < bcdDec S + s.ccr.x.toNat) := by
    rw [decide_eq_decide]
    omega
  simp only [sbcdEffect, hS, hD, Bool.and_self, if_true, hvalue, hborrow]
  exact decimalEffect_bcdEffect s _ (Nat.mod_lt _ (by decide))

/-- NBCD on a packed decimal operand. -/
theorem nbcdEffect_valid {s : State} {D : Byte} (hD : bcdValid D = true) :
    DecimalEffect s (nbcdEffect s D) ((200 - bcdDec D - s.ccr.x.toNat) % 100)
      (decide (0 < bcdDec D + s.ccr.x.toNat)) := by
  have hD' := bcdDec_lt hD
  have hx := s.ccr.x.toNat_le
  have hvalue : ((0 - (bcdDec D : Int) - s.ccr.x.toNat) % 100).toNat = (200 - bcdDec D - s.ccr.x.toNat) % 100 := by
    omega
  have hborrow : decide (0 - (bcdDec D : Int) - s.ccr.x.toNat < 0) = decide (0 < bcdDec D + s.ccr.x.toNat) := by
    rw [decide_eq_decide]
    omega
  simp only [nbcdEffect, hD, if_true, hvalue, hborrow]
  exact decimalEffect_bcdEffect s _ (Nat.mod_lt _ (by decide))

/-- Settles O33. -/
theorem decimalArithmetic : Obligations.DecimalArithmetic := fun _ _ _ hD =>
  ⟨fun hS => ⟨abcdEffect_valid hS hD, sbcdEffect_valid hS hD⟩, nbcdEffect_valid hD⟩

/-- Every decimal effect counts three draws. -/
theorem abcdEffect_spent (s : State) (S D : Byte) : (abcdEffect s S D).spent = 3 := by
  unfold abcdEffect
  split <;> rfl

theorem sbcdEffect_spent (s : State) (S D : Byte) : (sbcdEffect s S D).spent = 3 := by
  unfold sbcdEffect
  split <;> rfl

theorem nbcdEffect_spent (s : State) (D : Byte) : (nbcdEffect s D).spent = 3 := by
  unfold nbcdEffect
  split <;> rfl

/-- The register decremented, after its predecrement. -/
theorem predec_self (sz : Size) (r : RegNum) (s : State) : (predec sz r s).a[r] = s.a[r] - BitVec.ofNat 32 sz.bytes :=
  (predec_getElem s sz r r).trans (if_pos rfl)

/-- Settles O34. -/
theorem decimalInstructions : Obligations.DecimalInstructions := by
  intro dst src ea s S D M a1 N
  have operands : memRead .byte (predec .byte src s).a[src] s = M ∧
      memRead .byte (predec .byte dst (predec .byte src s)).a[dst] s = N :=
    ⟨congrArg (memRead .byte · s) (predec_self .byte src s),
      congrArg (memRead .byte · s) (predec_self .byte dst (predec .byte src s))⟩
  refine ⟨fun h => ⟨?_, ?_⟩, fun h => ⟨?_, ?_⟩, fun wf read write fits h => ?_⟩
  · exact setsDn_of_extended rfl (bcdStop_eq_none.2 h) (abcdEffect_spent s S D) rfl rfl
  · exact setsDn_of_extended rfl (bcdStop_eq_none.2 h) (sbcdEffect_spent s S D) rfl rfl
  · exact replacesByPredecrement_of_extended (sz := .byte) rfl
      (by rw [operands.1, operands.2]; exact bcdStop_eq_none.2 h)
      (abcdEffect_spent s) (fun _ _ => rfl) fun _ _ => rfl
  · exact replacesByPredecrement_of_extended (sz := .byte) rfl
      (by rw [operands.1, operands.2]; exact bcdStop_eq_none.2 h)
      (sbcdEffect_spent s) (fun _ _ => rfl) fun _ _ => rfl
  · have runs := modifyEa_completes (sz := .byte) (alu := nbcdEffect s) (stop := fun D => bcdStop s D D) wf read
        (bcdStop_eq_none.2 h)
      write fits
    simp only [nbcdEffect_spent] at runs
    exact runs

/-! ### Chains -/

section Chains

/-- A number depends on its registers alone. -/
theorem bigNumber_congr {v w : RegNum → Long} {rs : List RegNum} (h : ∀ r ∈ rs, v r = w r) :
    bigNumber v rs = bigNumber w rs := by
  induction rs with
  | nil => rfl
  | cons r rs ih =>
    rw [bigNumber, bigNumber, h r List.mem_cons_self, ih fun q hq => h q (List.mem_cons_of_mem r hq)]

/-- `op` adds (`sign` 1) or subtracts (`sign` -1) the register `p.2` and X to or from the register `p.1`, X becomes the
carry or borrow, and Z accumulates: one link of a chain over long words. -/
def IsLink (sign : Int) (op : RegNum × RegNum → Instr) : Prop :=
  ∀ (p : RegNum × RegNum) (s : State), s.fits 1 → ∃ t : State, exec (op p) s = .next t ∧
    t.pc.toNat = s.pc.toNat + 2 ∧ (∀ r, r ≠ p.1 → t.d[r] = s.d[r]) ∧
    (t.d[p.1].toNat : Int) = s.d[p.1].toNat + sign * (s.d[p.2].toNat + s.ccr.x.toNat - 2 ^ 32 * t.ccr.x.toNat) ∧
    t.ccr.z = (s.ccr.z && t.d[p.1] == 0)

/-- A chain of links adds or subtracts the numbers of its registers, where the destinations are distinct and no source
is among them. -/
theorem execAll_links {sign : Int} {op : RegNum × RegNum → Instr} (link : IsLink sign op)
    (ps : List (RegNum × RegNum)) (s : State) (distinct : (ps.map Prod.fst).Nodup)
    (sources : ∀ p ∈ ps, p.2 ∉ ps.map Prod.fst) (fits : s.fits ps.length) :
    ∃ t, execAll (ps.map op) s = .next t ∧ (∀ r, r ∉ ps.map Prod.fst → t.d[r] = s.d[r]) ∧
      (bigNumber (fun r => t.d[r]) (ps.map Prod.fst) : Int) =
        bigNumber (fun r => s.d[r]) (ps.map Prod.fst) + sign * (bigNumber (fun r => s.d[r]) (ps.map Prod.snd) +
          s.ccr.x.toNat - 2 ^ (32 * ps.length) * t.ccr.x.toNat) ∧
      t.ccr.z = (s.ccr.z && bigNumber (fun r => t.d[r]) (ps.map Prod.fst) == 0) := by
  induction ps generalizing s with
  | nil => exact ⟨s, rfl, fun _ _ => rfl, by simp [bigNumber], by simp [bigNumber]⟩
  | cons p ps ih =>
    simp only [List.map_cons, List.nodup_cons, List.length_cons] at distinct fits ⊢
    obtain ⟨t, ht, hpc, hother, hp, hz⟩ := link p s (by unfold State.fits at *; omega)
    have sources' (q) (hq : q ∈ ps) : q.2 ≠ p.1 ∧ q.2 ∉ ps.map Prod.fst := by
      simpa using sources q (List.mem_cons_of_mem p hq)
    obtain ⟨u, hu, hu_other, hu_sum, hu_z⟩ := ih t distinct.2 (fun q hq => (sources' q hq).2)
      (by unfold State.fits at *; omega)
    have hp1 : u.d[p.1] = t.d[p.1] := hu_other p.1 distinct.1
    have hdst : bigNumber (fun r => t.d[r]) (ps.map Prod.fst) = bigNumber (fun r => s.d[r]) (ps.map Prod.fst) :=
      bigNumber_congr fun r hr => hother r fun e => distinct.1 (e ▸ hr)
    have hsrc : bigNumber (fun r => t.d[r]) (ps.map Prod.snd) = bigNumber (fun r => s.d[r]) (ps.map Prod.snd) :=
      bigNumber_congr fun r hr => by
        obtain ⟨q, hq, rfl⟩ := List.mem_map.1 hr
        exact hother q.2 (sources' q hq).1
    refine ⟨u, by simp only [execAll, ht, hu], fun r hr => ?_, ?_, ?_⟩
    · rw [List.mem_cons, not_or] at hr
      rw [hu_other r hr.2, hother r hr.1]
    · simp only [bigNumber, hp1, Nat.mul_add, Nat.mul_one, Int.natCast_add, Int.natCast_mul, pow_add] at *
      rw [hdst, hsrc] at hu_sum
      push_cast
      rw [hu_sum, hp]
      ring
    · rw [hu_z, hz, bigNumber, hp1, Bool.and_assoc]
      congr 1
      rw [Bool.eq_iff_iff]
      simp [← BitVec.toNat_inj]

/-- An instruction that sets its destination to a long word is a link, where the word and the condition codes are. -/
theorem isLink_of_setsDn {sign : Int} {op : RegNum × RegNum → Instr} {value : RegNum × RegNum → State → Long}
    {flags : RegNum × RegNum → State → CCR} (sets : ∀ p s, SetsDn (op p) p.1 s (value p s) (flags p s) 0)
    (hvalue : ∀ p s, ((value p s).toNat : Int) =
      s.d[p.1].toNat + sign * (s.d[p.2].toNat + s.ccr.x.toNat - 2 ^ 32 * (flags p s).x.toNat))
    (hz : ∀ p s, (flags p s).z = (s.ccr.z && value p s == 0)) : IsLink sign op := by
  intro p s fits
  have self : (s.setD p.1 (value p s)).d[p.1] = value p s := (setD_getElem s p.1 p.1 _).trans (if_pos rfl)
  refine ⟨_, sets p s fits, State.pcPast_toNat fits, fun r hr => ?_, ?_, ?_⟩
  · exact (setD_getElem s p.1 r _).trans (if_neg (Ne.symm hr))
  · exact (congrArg (fun v : Long => (v.toNat : Int)) self).trans (hvalue p s)
  · exact (hz p s).trans (congrArg (fun v : Long => (s.ccr.z && v == 0)) self.symm)

theorem lowPart_long (v : Long) : lowPart .long v = v := BitVec.setWidth_eq _

/-- ADDX.L is a link that adds: the sum and its carry. -/
theorem isLink_addxL : IsLink 1 fun p => .addxL .data p.1 p.2 := by
  refine isLink_of_setsDn (fun p s => (addxResults .long p.1 p.2 s).1) (fun p s => ?_) fun p s => rfl
  have hsum := toNat_sum (n := 32) (by decide) s.d[p.2] s.d[p.1] s.ccr.x
  simp only [mergeLow, lowPart_long, sumFlags, Size.bits]
  by_cases h : 2 ^ 32 ≤ s.d[p.2].toNat + s.d[p.1].toNat + s.ccr.x.toNat
  · simp only [h, decide_true, Bool.toNat_true]
    omega
  · simp only [h, decide_false, Bool.toNat_false]
    omega

/-- SUBX.L is a link that subtracts: the difference and its borrow. -/
theorem isLink_subxL : IsLink (-1) fun p => .subxL .data p.1 p.2 := by
  refine isLink_of_setsDn (fun p s => (subxResults .long p.1 p.2 s).1) (fun p s => ?_) fun p s => rfl
  have hdiff := toNat_difference (n := 32) (by decide) s.d[p.2] s.d[p.1] s.ccr.x
  have hD := s.d[p.1].isLt
  have hx := s.ccr.x.toNat_le
  simp only [mergeLow, lowPart_long, differenceFlags, Size.bits]
  by_cases h : s.d[p.1].toNat < s.d[p.2].toNat + s.ccr.x.toNat
  · simp only [h, decide_true, Bool.toNat_true]
    omega
  · simp only [h, decide_false, Bool.toNat_false]
    omega

end Chains

/-- Settles O31. -/
theorem addxChainAddsNumbers : Obligations.AddxChainAddsNumbers := by
  intro ps s distinct sources fits
  obtain ⟨t, ht, -, hsum, hz⟩ := execAll_links isLink_addxL ps s distinct sources fits
  refine ⟨t, ht, ?_, hz⟩
  zify
  rw [hsum]
  ring

/-- Settles O32. -/
theorem subxChainSubtractsNumbers : Obligations.SubxChainSubtractsNumbers := by
  intro ps s distinct sources fits
  obtain ⟨t, ht, -, hsum, hz⟩ := execAll_links isLink_subxL ps s distinct sources fits
  refine ⟨t, ht, ?_, hz⟩
  zify
  rw [hsum]
  ring

end Sys2Proof.Machine
end

section
/-! PROOFS. Where the machine stops. What an access, an address and an operand stop with; that each shared operation
checks its operands in the order of the rules of Safety.lean and stops with their reason; and from that, list by list,
every instruction with an `<ea>`. -/

namespace Sys2Proof.Machine

/-! ### Accesses and addresses -/

/-- An access that is misaligned where that is refused, else one with a byte outside the map, else one that is done. -/
theorem accessRule (sz : Size) (addr : Long) (s : State) : AccessRule sz addr s := by
  unfold AccessRule
  intro misaligned inMap inText stops
  have hmap : everyByte (allocated s.cfg) addr.toNat sz.bytes = true ↔ inMap := everyByte_eq_true _ _ _
  have htext : everyByte (fun x => !inRegion s.cfg.text x) addr.toNat sz.bytes = true ↔ ¬ inText := by
    simp [everyByte_eq_true, inText]
  have stops_of {st : Stop} (h : accessStop sz addr s = some st) : stops st := ⟨h, by simp only [storeStop, h]⟩
  refine ⟨fun h => stops_of (if_pos h), fun h hm => stops_of ((if_neg h).trans (if_neg (mt hmap.1 hm))),
    fun h hm => ?_⟩
  have done : accessStop sz addr s = none := (if_neg h).trans (if_pos (hmap.2 hm))
  simp only [storeStop, done, htext, true_and]
  exact ⟨fun ht => if_neg (not_not.2 ht), fun ht => if_pos ht⟩

/-- A check of a condition, both ways. -/
theorem refuseIf_not {p : Prop} {b : Bool} (h : b = true ↔ p) (r : Refusal) :
    (p → refuseIf (!b) r = none) ∧ (¬ p → refuseIf (!b) r = some (.refused r)) := by
  cases b <;> simp_all [refuseIf]

theorem inSpace_eq_true {v : Int} : inSpace v = true ↔ 0 ≤ v ∧ v < 2 ^ 32 := by simp [inSpace]

/-- A displacement is added exactly where the sum stays in the address space (U10). -/
theorem dispStop_rule (base : Long) (d : Word) :
    ((0 ≤ (base.toNat : Int) + d.toInt ∧ (base.toNat : Int) + d.toInt < 2 ^ 32) → dispStop base d = none) ∧
      (¬ (0 ≤ (base.toNat : Int) + d.toInt ∧ (base.toNat : Int) + d.toInt < 2 ^ 32) →
        dispStop base d = some (.refused .addressWrap)) :=
  refuseIf_not inSpace_eq_true _

/-- An index is added exactly where the sum stays in the address space, the index read as signed or as unsigned
(U10). -/
theorem indexStop_rule (base : Long) (ix : Index) (s : State) :
    let v (x : Int) := (base.toNat : Int) + ix.disp.toInt + x
    let p := (0 ≤ v (indexValue ix s).toInt ∧ v (indexValue ix s).toInt < 2 ^ 32) ∨
      (0 ≤ v (indexValue ix s).toNat ∧ v (indexValue ix s).toNat < 2 ^ 32)
    (p → indexStop base ix s = none) ∧ (¬ p → indexStop base ix s = some (.refused .addressWrap)) := by
  intro v p
  simp only [indexStop, ← Bool.not_or]
  exact refuseIf_not (by simp only [Bool.or_eq_true, inSpace_eq_true]; rfl) _

/-- An increment happens exactly where it stays in the address space (U10). -/
theorem postincStop_rule (sz : Size) (r : RegNum) (s : State) :
    (s.a[r].toNat + sz.bytes < 2 ^ 32 → postincStop sz r s = none) ∧
      (¬ s.a[r].toNat + sz.bytes < 2 ^ 32 → postincStop sz r s = some (.refused .addressWrap)) :=
  ⟨postincStop_eq_none.2, fun h => if_pos (decide_eq_true (not_lt.1 h))⟩

theorem addressRule (sz : Size) (before : Nat) (s : State) (r : RegNum) (d : Word) (a : Long) (ix : Index) :
    AddressRule sz before s r d a ix := by
  unfold AddressRule
  intro ext x index inside insideWithIndex refusedUnless stop loc
  have hindex : indexValue ix s = index := by
    simp only [indexValue, BitVec.setWidth_eq_extractLsb' (by decide : 16 ≤ 32)]
    rfl
  refine ⟨⟨rfl, rfl⟩, ⟨rfl, rfl⟩, ⟨rfl, predecStop_eq_none⟩, ⟨rfl, dispStop_rule _ _⟩, ⟨?_, ?_⟩, ⟨rfl, rfl⟩, ⟨rfl, rfl⟩,
    ⟨rfl, dispStop_rule _ _⟩, ⟨?_, ?_⟩, postincStop_rule sz r s, fun ea h => ?_⟩
  · exact congrArg (fun v => Loc.mem (s.a[r] + ix.disp.signExtend 32 + v)) hindex
  · have rule := indexStop_rule s.a[r] ix s
    rwa [hindex] at rule
  · exact congrArg (fun v => Loc.mem (ext + ix.disp.signExtend 32 + v)) hindex
  · have rule := indexStop_rule ext ix s
    rwa [hindex] at rule
  · cases ea with
    | postInc q => exact absurd rfl (h q)
    | _ => rfl

/-- An operand in memory: its address's reason, its access's, its increment's. -/
theorem operandRule (sz : Size) (before : Nat) (s : State) : OperandRule sz before s := by
  refine ⟨?_, fun r v => ⟨rfl, rfl, rfl, rfl⟩⟩
  intro ea addr hloc formed
  have read : eaReadStop sz ea before s = formed.or ((accessStop sz addr s).or (eaAfterStop sz ea s)) := by
    rw [eaReadStop, hloc, locReadStop, accessStop_congr (eaAfter_cfg s sz ea)]
  have write : eaWriteStop sz ea before s = formed.or ((storeStop sz addr s).or (eaAfterStop sz ea s)) := by
    rw [eaWriteStop, hloc, locWriteStop, storeStop_congr (eaAfter_cfg s sz ea)]
  rw [read, write]
  refine ⟨fun st h => by simp [h], fun h => ?_⟩
  rw [h]
  exact ⟨fun st h => by simp [h], fun st h => by simp [h], fun h => by simp [h], fun h => by simp [h]⟩

/-! ### Each shared operation stops with the reason its operands give -/

/-- A check that stops. -/
theorem check_of_some {stop : Option Stop} {st : Stop} (h : stop = some st) (k : Result) :
    check stop k = st.outcome := by
  rw [h, check_some]

/-- A well-formed instruction passes its check of the form. -/
theorem check_formStop {i : Instr} (wf : i.wf = true) (k : Result) : check (formStop i) k = k := by
  rw [formStop_eq_none.2 wf, check_none]

section Operations
variable {i : Instr} {sz z : Size} {ea : Ea} {before : Nat} {s : State}

/-- An instruction that reads `<ea>` before anything but its form can stop it. -/
def ReadsFirst (i : Instr) (sz : Size) (ea : Ea) (before : Nat) (s : State) : Prop :=
  i.wf = true → StopsAs i s (eaReadStop sz ea before s)

theorem readsFirst_eaToDn {dn : RegNum} {alu : BitVec sz.bits → Long → Effect 32} {stop : BitVec sz.bits → Option Stop}
    (runs : exec i s = eaToDn i sz dn ea before s alu stop) : ReadsFirst i sz ea before s := by
  intro wf st h
  rw [runs, eaToDn, check_formStop wf, check_of_some h]

theorem readsFirst_modifyEa {alu : BitVec sz.bits → Effect sz.bits} {stop : BitVec sz.bits → Option Stop}
    (runs : exec i s = modifyEa i sz ea before s alu stop) : ReadsFirst i sz ea before s := by
  intro wf st h
  rw [runs, modifyEa, check_formStop wf, check_of_some h]

theorem readsFirst_testEa {flags : BitVec sz.bits → CCR} (runs : exec i s = testEa i sz ea before s flags) :
    ReadsFirst i sz ea before s := by
  intro wf st h
  rw [runs, testEa, check_formStop wf, check_of_some h]

/-- After its operand has been read and nothing stops on it, `<ea>` changed stops with the reason of its store. -/
theorem stopsAs_write_of_modifyEa {alu : BitVec sz.bits → Effect sz.bits} {stop : BitVec sz.bits → Option Stop}
    (runs : exec i s = modifyEa i sz ea before s alu stop) (wf : i.wf = true) (read : eaReadStop sz ea before s = none)
    (go : stop (eaRead sz ea before s) = none) : StopsAs i s (eaWriteStop sz ea before s) := by
  intro st h
  rw [runs, modifyEa, check_formStop wf, read, check_none, go, check_none, check_of_some h]

theorem stopsAs_write_of_storeEa {v : BitVec sz.bits} {f : CCR} (runs : exec i s = storeEa i sz ea s v f)
    (wf : i.wf = true) : StopsAs i s (eaWriteStop sz ea 0 s) := by
  intro st h
  rw [runs, storeEa, check_formStop wf, check_of_some h]

/-- An instruction that changes `<ea>`, with nothing but its operand's accesses to stop it. -/
structure ChangesEa (i : Instr) (sz : Size) (ea : Ea) (before : Nat) (s : State) : Prop where
  reads : ReadsFirst i sz ea before s
  stores : i.wf = true → eaReadStop sz ea before s = none → StopsAs i s (eaWriteStop sz ea before s)

theorem changesEa_of_modifyEa {alu : BitVec sz.bits → Effect sz.bits}
    (runs : exec i s = modifyEa i sz ea before s alu) : ChangesEa i sz ea before s :=
  ⟨readsFirst_modifyEa runs, fun wf read => stopsAs_write_of_modifyEa runs wf read rfl⟩

/-- ADD, SUB, AND and OR, to `<ea>` and to Dn. -/
theorem changesEa_of_opmode {dn : RegNum} {alu : BitVec sz.bits → BitVec sz.bits → Effect sz.bits}
    (runs : exec i s = opmode i sz .toEa dn ea s alu) : ChangesEa i sz ea 0 s :=
  changesEa_of_modifyEa (alu := alu (lowPart sz s.d[dn])) runs

theorem readsFirst_opmode {dn : RegNum} {alu : BitVec sz.bits → BitVec sz.bits → Effect sz.bits}
    (runs : exec i s = opmode i sz .toDn dn ea s alu) : ReadsFirst i sz ea 0 s :=
  readsFirst_eaToDn (alu := fun S D => ⟨mergeLow sz D (alu S (lowPart sz D)).result, (alu S (lowPart sz D)).ccr,
    (alu S (lowPart sz D)).spent⟩) (stop := fun _ => none) runs

theorem changesEa_of_shiftEa {k : Shift} (runs : exec i s = shiftEa i k ea s) : ChangesEa i .word ea 0 s :=
  changesEa_of_modifyEa (alu := fun D => shiftEffect k s.cfg.aslCarryInverted s.ccr 1 D) runs

/-- The operand of a bit instruction: a data register, read and stored always, or a byte of memory. -/
theorem eaStops_bitSize (ea : Ea) (before : Nat) (s : State) :
    eaReadStop (bitSize ea) ea before s = eaReadStop .byte ea before s ∧
      eaWriteStop (bitSize ea) ea before s = eaWriteStop .byte ea before s := by
  cases ea <;> exact ⟨rfl, rfl⟩

theorem changesEa_of_modifyBit {b : Nat} {change : {n : Nat} → BitVec n → BitVec n → BitVec n}
    (runs : exec i s = modifyBit i ea before b s change) : ChangesEa i .byte ea before s := by
  rw [modifyBit] at runs
  obtain ⟨reads, stores⟩ := changesEa_of_modifyEa runs
  obtain ⟨hread, hwrite⟩ := eaStops_bitSize ea before s
  rw [ReadsFirst, hread] at reads
  rw [hread, hwrite] at stores
  exact ⟨reads, stores⟩

theorem readsFirst_testBit {b : Nat} (runs : exec i s = testBit i ea before b s) : ReadsFirst i .byte ea before s := by
  rw [testBit] at runs
  have reads := readsFirst_testEa runs
  rwa [ReadsFirst, (eaStops_bitSize ea before s).1] at reads

theorem readsFirst_chk {dn : RegNum} : ReadsFirst (.chk sz dn ea) sz ea 0 s := fun wf _ h =>
  (check_formStop wf _).trans (check_of_some h _)

theorem readsFirst_move {dst : Ea} : ReadsFirst (.move sz ea dst) sz ea 0 s := fun wf _ h =>
  (check_formStop wf _).trans (check_of_some h _)

/-- MOVE, its source read, stops with the reason of its destination. -/
theorem stopsAs_write_of_move {src dst : Ea} (wf : (Instr.move sz src dst).wf = true)
    (read : eaReadStop sz src 0 s = none) :
    StopsAs (.move sz src dst) s (eaWriteStop sz dst (src.extWords sz) (eaAfter sz src s)) := by
  intro st h
  exact (check_formStop wf _).trans ((congrArg (check · _) read).trans (check_of_some h _))

/-- The 16-bit multiplies, which no parameter leaves out. -/
theorem execMuls_word {dn : RegNum} :
    exec (.muls .word dn ea) s = eaToDn (.muls .word dn ea) .word dn ea 0 s
      fun S D => mulsEffect s.ccr S (lowPart .word D) := rfl

theorem execMulu_word {dn : RegNum} :
    exec (.mulu .word dn ea) s = eaToDn (.mulu .word dn ea) .word dn ea 0 s
      fun S D => muluEffect s.ccr S (lowPart .word D) := rfl

/-- The 32-bit multiplies where the parameter admits them. -/
theorem execMuls_long {dn : RegNum} (h : s.cfg.longMultiply = true) :
    exec (.muls .long dn ea) s = eaToDn (.muls .long dn ea) .long dn ea 1 s
      fun S D => mulsEffect s.ccr S (lowPart .long D) :=
  (congrArg (check · _) (mulFormStop_long h)).trans rfl

theorem execMulu_long {dn : RegNum} (h : s.cfg.longMultiply = true) :
    exec (.mulu .long dn ea) s = eaToDn (.mulu .long dn ea) .long dn ea 1 s
      fun S D => muluEffect s.ccr S (lowPart .long D) :=
  (congrArg (check · _) (mulFormStop_long h)).trans rfl

end Operations

/-! ### The instructions with an `<ea>` -/

/-- Every instruction listed as reading and storing `<ea>` does so. -/
theorem changesEa_of_mem {sz : Size} {dn : RegNum} {imm : Long} {q : Fin 8} {bit : Byte} {p : Nat × (Ea → Instr)}
    (h : p ∈ eaChangers sz dn imm q bit) (ea : Ea) (s : State) : ChangesEa (p.2 ea) sz ea p.1 s := by
  unfold eaChangers at h
  rw [List.mem_append] at h
  rcases h with h | h
  · simp only [List.mem_cons, List.not_mem_nil, or_false] at h
    rcases h with rfl | rfl | rfl | rfl | rfl | rfl | rfl | rfl | rfl | rfl | rfl | rfl | rfl | rfl | rfl
    · exact changesEa_of_opmode (alu := addEffect s.ccr) rfl
    · exact changesEa_of_opmode (alu := subEffect s.ccr) rfl
    · exact changesEa_of_opmode (alu := fun S D => logicEffect s.ccr (S &&& D)) rfl
    · exact changesEa_of_opmode (alu := fun S D => logicEffect s.ccr (S ||| D)) rfl
    · exact changesEa_of_modifyEa (alu := fun D => logicEffect s.ccr (lowPart sz s.d[dn] ^^^ D)) rfl
    · exact changesEa_of_modifyEa (alu := addEffect s.ccr (quickValue sz q)) rfl
    · exact changesEa_of_modifyEa (alu := subEffect s.ccr (quickValue sz q)) rfl
    · exact changesEa_of_modifyEa (alu := fun D => logicEffect s.ccr (~~~D)) rfl
    · exact changesEa_of_modifyEa (alu := negEffect s.ccr) rfl
    · exact changesEa_of_modifyEa (alu := negxEffect s.ccr) rfl
    · exact changesEa_of_modifyEa (alu := addEffect s.ccr (lowPart sz imm)) rfl
    · exact changesEa_of_modifyEa (alu := subEffect s.ccr (lowPart sz imm)) rfl
    · exact changesEa_of_modifyEa (alu := fun D => logicEffect s.ccr (lowPart sz imm &&& D)) rfl
    · exact changesEa_of_modifyEa (alu := fun D => logicEffect s.ccr (lowPart sz imm ||| D)) rfl
    · exact changesEa_of_modifyEa (alu := fun D => logicEffect s.ccr (lowPart sz imm ^^^ D)) rfl
  · cases sz with
    | byte =>
      simp only [List.mem_cons, List.not_mem_nil, or_false] at h
      rcases h with rfl | rfl | rfl | rfl | rfl | rfl | rfl
      · exact changesEa_of_modifyEa (sz := .byte) (alu := tasEffect s.ccr) rfl
      · exact changesEa_of_modifyBit (change := fun D mask => D ^^^ mask) rfl
      · exact changesEa_of_modifyBit (change := fun D mask => D &&& ~~~mask) rfl
      · exact changesEa_of_modifyBit (change := fun D mask => D ||| mask) rfl
      · exact changesEa_of_modifyBit (change := fun D mask => D ^^^ mask) rfl
      · exact changesEa_of_modifyBit (change := fun D mask => D &&& ~~~mask) rfl
      · exact changesEa_of_modifyBit (change := fun D mask => D ||| mask) rfl
    | word =>
      simp only [List.mem_cons, List.not_mem_nil, or_false] at h
      rcases h with rfl | rfl | rfl | rfl | rfl | rfl | rfl | rfl <;> exact changesEa_of_shiftEa rfl
    | long => cases h

/-- Every instruction listed as reading `<ea>` reads it first, the 32-bit multiply where admitted. -/
theorem readsFirst_of_mem {sz : Size} {dn : RegNum} {imm : Long} {q : Fin 8} {bit : Byte} {dst : Ea} {s : State}
    {p : Nat × (Ea → Instr)} (h : p ∈ eaReaders s.cfg sz dn imm q bit dst) (ea : Ea) :
    ReadsFirst (p.2 ea) sz ea p.1 s := by
  unfold eaReaders at h
  rw [List.mem_append, List.mem_append] at h
  rcases h with (h | h) | h
  · exact (changesEa_of_mem h ea s).reads
  · simp only [List.mem_cons, List.not_mem_nil, or_false] at h
    rcases h with rfl | rfl | rfl | rfl | rfl | rfl | rfl | rfl | rfl
    · exact readsFirst_opmode (alu := addEffect s.ccr) rfl
    · exact readsFirst_opmode (alu := subEffect s.ccr) rfl
    · exact readsFirst_opmode (alu := fun S D => logicEffect s.ccr (S &&& D)) rfl
    · exact readsFirst_opmode (alu := fun S D => logicEffect s.ccr (S ||| D)) rfl
    · exact readsFirst_testEa (exec_cmpOf sz dn ea s)
    · exact readsFirst_chk
    · exact readsFirst_testEa rfl
    · exact readsFirst_move
    · exact readsFirst_testEa rfl
  · cases sz with
    | byte =>
      simp only [List.mem_cons, List.not_mem_nil, or_false] at h
      rcases h with rfl | rfl | rfl
      · exact readsFirst_modifyEa (sz := .byte) rfl
      iterate 2 exact readsFirst_testBit rfl
    | word =>
      simp only [List.mem_cons, List.not_mem_nil, or_false] at h
      rcases h with rfl | rfl | rfl | rfl
      iterate 2 exact readsFirst_eaToDn (sz := .word) rfl
      · exact readsFirst_eaToDn (sz := .word) execMuls_word
      · exact readsFirst_eaToDn (sz := .word) execMulu_word
    | long =>
      cases hlong : s.cfg.longMultiply with
      | false => simp [hlong] at h
      | true =>
        simp only [hlong, if_true, List.mem_cons, List.not_mem_nil, or_false] at h
        rcases h with rfl | rfl
        · exact readsFirst_eaToDn (sz := .long) (execMuls_long hlong)
        · exact readsFirst_eaToDn (sz := .long) (execMulu_long hlong)

/-- Every instruction listed as storing `<ea>` unread stops with the reason of its store. -/
theorem stopsAs_write_of_mem {sz : Size} {dn : RegNum} {op : Ea → Instr} (h : op ∈ eaStorers sz dn)
    {ea : Ea} {s : State}
    (wf : (op ea).wf = true) : StopsAs (op ea) s (eaWriteStop sz ea 0 s) := by
  unfold eaStorers at h
  rw [List.mem_append] at h
  rcases h with h | h
  · simp only [List.mem_cons, List.not_mem_nil, or_false] at h
    rcases h with rfl | rfl
    · exact stopsAs_write_of_storeEa rfl wf
    · exact stopsAs_write_of_move (src := .dn dn) wf rfl
  · cases sz with
    | byte =>
      simp only [List.mem_cons, List.not_mem_nil, or_false] at h
      rcases h with rfl | rfl | rfl | rfl | rfl | rfl | rfl | rfl | rfl | rfl | rfl | rfl | rfl | rfl | rfl | rfl <;>
        exact stopsAs_write_of_storeEa (sz := .byte) rfl wf
    | _ => cases h

theorem eaRule (sz : Size) (dn : RegNum) (imm : Long) (q : Fin 8) (bit : Byte) (ea dst : Ea) (s : State) :
    EaRule sz dn imm q bit ea dst s :=
  ⟨fun _ h => readsFirst_of_mem h ea, fun _ h => (changesEa_of_mem h ea s).stores,
    fun wf read runs => stopsAs_write_of_modifyEa (sz := .byte) (stop := fun D => bcdStop s D D) rfl wf read
      (bcdStop_eq_none.2 runs),
    fun _ h => stopsAs_write_of_mem h, stopsAs_write_of_move⟩

/-! ### Two operands by predecrement or postincrement -/

/-- Checks of two reasons in order. -/
theorem check_or (a b : Option Stop) (k : Result) : check (a.or b) k = check a (check b k) := by
  cases a <;> rfl

section TwoOperands
variable {i : Instr} {sz : Size} {dst src : RegNum} {s : State}

/-- A predecrement operand: its decrement, then its access. -/
theorem eaReadStop_preDec (sz : Size) (r : RegNum) (before : Nat) (s : State) :
    eaReadStop sz (.preDec r) before s = (predecStop sz r s).or (accessStop sz (predec sz r s).a[r] s) := by
  rw [predec_self, accessStop_congr (s := s) (t := predec sz r s) rfl]
  exact congrArg (Option.or _) Option.or_none

/-- The place of a predecrement operand: its decrement, then its store. -/
theorem eaWriteStop_preDec (sz : Size) (r : RegNum) (before : Nat) (s : State) :
    eaWriteStop sz (.preDec r) before s = (predecStop sz r s).or (storeStop sz (predec sz r s).a[r] s) := by
  rw [predec_self, storeStop_congr (s := s) (t := predec sz r s) rfl]
  exact congrArg (Option.or _) Option.or_none

/-- A postincrement operand: its access, then its increment. -/
theorem eaReadStop_postInc (sz : Size) (r : RegNum) (before : Nat) (s : State) :
    eaReadStop sz (.postInc r) before s = (accessStop sz s.a[r] s).or (postincStop sz r s) := by
  rw [accessStop_congr (s := s) (t := postinc sz r s) rfl]
  rfl

/-- The operand of a predecrement. -/
theorem eaRead_preDec (sz : Size) (r : RegNum) (before : Nat) (s : State) :
    eaRead sz (.preDec r) before s = memRead sz (predec sz r s).a[r] s := by
  rw [predec_self]
  rfl

/-- The memory form of an extended instruction: the source, the destination, the digits of both, the store (rule
R34). -/
theorem extended_predec_eq (sz : Size) (dst src : RegNum) (s : State)
    (alu : BitVec sz.bits → BitVec sz.bits → Effect sz.bits) (stop : BitVec sz.bits → BitVec sz.bits → Option Stop) :
    ∃ k, extended sz .predec dst src s alu stop =
      check (eaReadStop sz (.preDec src) 0 s) (check (eaReadStop sz (.preDec dst) 0 (predec sz src s))
        (check (stop (eaRead sz (.preDec src) 0 s) (eaRead sz (.preDec dst) 0 (predec sz src s)))
          (check (storeStop sz (predec sz dst (predec sz src s)).a[dst] s) k))) := by
  simp only [eaReadStop_preDec, eaRead_preDec, check_or]
  exact ⟨_, rfl⟩

/-- The reasons of the memory form of an extended instruction, in their order: the source's, the destination's, what
stops on the two operands, the store's. -/
structure StopsExtended (i : Instr) (sz : Size) (dst src : RegNum) (s : State)
    (stop : BitVec sz.bits → BitVec sz.bits → Option Stop) : Prop where
  source : StopsAs i s (eaReadStop sz (.preDec src) 0 s)
  destination : eaReadStop sz (.preDec src) 0 s = none →
    StopsAs i s (eaReadStop sz (.preDec dst) 0 (predec sz src s))
  operands : eaReadStop sz (.preDec src) 0 s = none → eaReadStop sz (.preDec dst) 0 (predec sz src s) = none →
    StopsAs i s (stop (eaRead sz (.preDec src) 0 s) (eaRead sz (.preDec dst) 0 (predec sz src s)))
  store : eaReadStop sz (.preDec src) 0 s = none → eaReadStop sz (.preDec dst) 0 (predec sz src s) = none →
    stop (eaRead sz (.preDec src) 0 s) (eaRead sz (.preDec dst) 0 (predec sz src s)) = none →
    StopsAs i s (eaWriteStop sz (.preDec dst) 0 (predec sz src s))

theorem stopsExtended {alu : BitVec sz.bits → BitVec sz.bits → Effect sz.bits}
    {stop : BitVec sz.bits → BitVec sz.bits → Option Stop} (runs : exec i s = extended sz .predec dst src s alu stop) :
    StopsExtended i sz dst src s stop := by
  obtain ⟨k, eq⟩ := extended_predec_eq sz dst src s alu stop
  rw [eq] at runs
  refine ⟨fun st h => ?_, fun h1 st h => ?_, fun h1 h2 st h => ?_, fun h1 h2 h3 st h => ?_⟩
  · rw [runs, check_of_some h]
  · rw [runs, h1, check_none, check_of_some h]
  · rw [runs, h1, check_none, h2, check_none, check_of_some h]
  · have formed : predecStop sz dst (predec sz src s) = none := by
      rw [eaReadStop_preDec, Option.or_eq_none_iff] at h2
      exact h2.1
    rw [eaWriteStop_preDec, formed, Option.none_or, storeStop_congr (s := predec sz src s) (t := s) rfl] at h
    rw [runs, h1, check_none, h2, check_none, h3, check_none, check_of_some h]

/-- The extended instructions listed stop so: ABCD and SBCD on their digits as well. -/
theorem stopsExtended_of_mem {op : XForm → RegNum → RegNum → Instr} (h : op ∈ extendedOps sz) (dst src : RegNum)
    (s : State) : ∃ stop, StopsExtended (op .predec dst src) sz dst src s stop := by
  unfold extendedOps at h
  rw [List.mem_append] at h
  rcases h with h | h
  · simp only [List.mem_cons, List.not_mem_nil, or_false] at h
    rcases h with rfl | rfl
    · exact ⟨_, stopsExtended (exec_addxOf sz .predec dst src s)⟩
    · exact ⟨_, stopsExtended (exec_subxOf sz .predec dst src s)⟩
  · cases sz with
    | byte =>
      simp only [List.mem_cons, List.not_mem_nil, or_false] at h
      rcases h with rfl | rfl
      · exact ⟨bcdStop s, stopsExtended (sz := .byte) (alu := abcdEffect s) rfl⟩
      · exact ⟨bcdStop s, stopsExtended (sz := .byte) (alu := sbcdEffect s) rfl⟩
    | _ => cases h

/-- CMPM: the source, then the destination (log 16). -/
theorem execCmpm_eq (sz : Size) (dst src : RegNum) (s : State) :
    ∃ k, exec (.cmpm sz dst src) s =
      check (eaReadStop sz (.postInc src) 0 s) (check (eaReadStop sz (.postInc dst) 0 (postinc sz src s)) k) := by
  simp only [eaReadStop_postInc, check_or]
  exact ⟨_, rfl⟩

theorem extendedRule (sz : Size) (dst src : RegNum) (s : State) : ExtendedRule sz dst src s := by
  obtain ⟨k, runs⟩ := execCmpm_eq sz dst src s
  refine ⟨fun op h => ?_, fun h1 h2 => ⟨?_, ?_, ?_⟩, fun st h => ?_, fun h1 st h => ?_⟩
  · obtain ⟨stop, stops⟩ := stopsExtended_of_mem h dst src s
    exact ⟨stops.source, stops.destination⟩
  · exact (stopsExtended (exec_addxOf sz .predec dst src s)).store h1 h2 rfl
  · exact (stopsExtended (exec_subxOf sz .predec dst src s)).store h1 h2 rfl
  · rintro rfl digits
    exact ⟨(stopsExtended (sz := .byte) (alu := abcdEffect s) (stop := bcdStop s) rfl).store h1 h2
        (bcdStop_eq_none.2 digits),
      (stopsExtended (sz := .byte) (alu := sbcdEffect s) (stop := bcdStop s) rfl).store h1 h2
        (bcdStop_eq_none.2 digits)⟩
  · rw [runs, check_of_some h]
  · rw [runs, h1, check_none]
    exact check_of_some h k

end TwoOperands

/-! ### CHK2 -/

theorem chk2Rule (sz : Size) (isAddr : Bool) (reg : RegNum) (ea : Ea) (s : State) : Chk2Rule sz isAddr reg ea s := by
  intro present wf
  obtain ⟨k, runs⟩ : ∃ k, exec (.chk2 sz isAddr reg ea) s = check (eaStop sz ea (s.extAddr 1) s)
      (check (accessStop sz (chk2Addr sz ea s) s) (check (chk2WrapStop sz ea s)
        (check (accessStop sz (chk2UpperAddr sz ea s) s) k))) := by
    simp only [exec, execChk2, present, check_formStop wf]
    exact ⟨_, rfl⟩
  refine ⟨fun st h => by rw [runs, check_of_some h], fun lower hloc => ?_⟩
  have haddr : chk2Addr sz ea s = lower := by rw [chk2Addr, hloc]
  have hupper : chk2UpperAddr sz ea s = lower + BitVec.ofNat 32 sz.bytes := by rw [chk2UpperAddr, haddr]
  refine ⟨haddr, hupper, fun formed => ⟨fun st h => ?_, fun read => ⟨fun wrap => ?_, fun inside st h => ?_⟩⟩⟩
  · rw [runs, formed, check_none, haddr, check_of_some h]
  · have stop : chk2WrapStop sz ea s = some (.refused .addressWrap) := by
      rw [chk2WrapStop, haddr]
      exact if_pos (decide_eq_true wrap)
    rw [runs, formed, check_none, haddr, read, check_none, check_of_some stop]
    rfl
  · have go : chk2WrapStop sz ea s = none := chk2WrapStop_eq_none.2 (haddr ▸ inside)
    rw [runs, formed, check_none, haddr, read, check_none, go, check_none, hupper, check_of_some h]

/-! ### The obligations -/

/-- What a completed instruction has stored was allowed. -/
theorem stored_allowed {i : Instr} {s t : State} {addr : Long} {n : Nat} (h : exec i s = .next t)
    (stored : i.stored s = some (addr, n)) :
    (n = 1 ∨ addr.toNat % 2 = 0 ∨ s.cfg.misaligned = .perform) ∧
      ∀ k, k < n → allocated s.cfg (addr.toNat + k) = true ∧ inRegion s.cfg.text (addr.toNat + k) = false := by
  have mem := (exec_framed h).1.mem
  rw [stored] at mem
  obtain ⟨sz, v, hn, stop, -⟩ := mem
  obtain ⟨access, text⟩ := storeStop_eq_none.1 stop
  obtain ⟨aligned, map⟩ := accessStop_eq_none.1 access
  subst hn
  exact ⟨aligned.imp_left fun hsz => by rw [hsz]; rfl, fun k hk => ⟨map k hk, text k hk⟩⟩

/-- Settles O58: the rules above, and the store of the frame. -/
theorem accessStops : Obligations.AccessStops :=
  ⟨accessRule, addressRule, operandRule, eaRule, extendedRule, chk2Rule, fun _ _ _ _ _ => stored_allowed⟩

/-- Why a predecrement is refused (rule R33). -/
theorem predecStop_eq_some {sz : Size} {r : RegNum} {s : State} {why : Refusal}
    (h : (sz = .byte ∧ r = 7 ∧ why = .byteStackPredecrement) ∨
      (¬ (sz = .byte ∧ r = 7) ∧ s.a[r].toNat < sz.bytes ∧ why = .predecrementWrap r)) :
    predecStop sz r s = some (.refused why) := by
  rcases h with ⟨hsz, hr, rfl⟩ | ⟨h7, low, rfl⟩
  · exact if_pos ⟨hsz, hr⟩
  · exact (if_neg h7).trans (if_pos low)

/-- An operand whose predecrement is refused is neither read nor stored to. -/
theorem preDec_refused {sz : Size} {r : RegNum} {s : State} {why : Refusal}
    (h : predecStop sz r s = some (.refused why)) (before : Nat) :
    eaReadStop sz (.preDec r) before s = some (.refused why) ∧
      eaWriteStop sz (.preDec r) before s = some (.refused why) := by
  rw [eaReadStop_preDec, eaWriteStop_preDec, h]
  exact ⟨rfl, rfl⟩

/-- Settles O59: the operand stops with the refusal of its predecrement, and the instruction with the operand's
reason. -/
theorem predecrementStops : Obligations.PredecrementStops := by
  intro sz r other s s1 refusedIn why
  refine ⟨fun h => ?_, fun read h op hop => ?_⟩
  · have stops := preDec_refused (predecStop_eq_some h)
    refine ⟨fun op hop => ?_, fun dn imm q bit dst p hp wf => ?_, fun dn op hop wf => ?_⟩
    · obtain ⟨stop, extended⟩ := stopsExtended_of_mem hop other r s
      exact extended.source _ (stops 0).1
    · exact readsFirst_of_mem hp _ wf _ (stops p.1).1
    · exact stopsAs_write_of_mem hop wf _ (stops 0).2
  · obtain ⟨stop, extended⟩ := stopsExtended_of_mem hop r other s
    exact extended.destination read _ (preDec_refused (predecStop_eq_some h) 0).1

/-- The words of an instruction that do not fit below the top of the address space (rule R20). -/
theorem pcStop_of_past {words : Nat} {s : State} (h : 2 ^ 32 ≤ s.pc.toNat + 2 * words) :
    pcStop words s = some (.refused .pcWrap) :=
  if_pos (decide_eq_true h)

/-- The instruction of a branch condition branches on it. -/
theorem exec_of_bccOf {c : Cond} {k : Disp → Instr} (isBranch : bccOf c = some k) (disp : Disp) (s : State) :
    exec (k disp) s = branch (k disp) c disp s ∧ (k disp).wf = wfDisp disp := by
  cases c <;> cases isBranch <;> exact ⟨rfl, rfl⟩

/-- A one-word register form checks nothing but the pc. -/
theorem exec_eq_check_pcStop {sz : Size} {dst src : RegNum} {data : Byte} {count : ShiftCount} {i : Instr} (s : State)
    (h : i ∈ [Instr.moveq dst data, .extW dst, .extL dst, addxOf sz .data dst src, subxOf sz .data dst src,
      .asrReg sz count dst, .aslReg sz count dst, .lsrReg sz count dst, .lslReg sz count dst,
      .roxrReg sz count dst, .roxlReg sz count dst, .rorReg sz count dst, .rolReg sz count dst]) :
    ∃ k, exec i s = check (pcStop 1 s) k := by
  simp only [List.mem_cons, List.not_mem_nil, or_false] at h
  rcases h with rfl | rfl | rfl | rfl | rfl | rfl | rfl | rfl | rfl | rfl | rfl | rfl | rfl
  iterate 3 exact ⟨_, rfl⟩
  · exact ⟨_, exec_addxOf sz .data dst src s⟩
  · exact ⟨_, exec_subxOf sz .data dst src s⟩
  iterate 8 exact ⟨_, rfl⟩

/-- Settles O60: the fetch refuses an odd pc, the branch an odd target, and the frame has the pc past the
instruction. -/
theorem oddAddressesAndWrap : Obligations.OddAddressesAndWrap := by
  refine ⟨fun s odd => ?_, fun c k disp s isBranch wf => ?_, fun i s t words h => ?_,
    fun sz dst src data count s past i hi => ?_⟩
  · have refused : fetch s = .error (.refused (.oddFetch s.pc)) := if_pos odd
    rw [step, refused]
    rfl
  · obtain ⟨runs, hwf⟩ := exec_of_bccOf isBranch disp s
    rw [runs, branch, check_formStop (hwf ▸ wf)]
    refine ⟨fun taken odd => ?_, fun untaken past => ?_⟩
    · rw [if_pos taken, refuseIf, if_pos (decide_eq_true odd)]
      rfl
    · rw [untaken, check_of_some (pcStop_of_past past)]
      rfl
  · obtain ⟨n, length, fits, hpc⟩ | ⟨c, k, disp, isBranch, eq, taken, hpc, -⟩ := (exec_framed h).2
    · exact .inl (by rw [hpc, State.pcPast_toNat fits, length words])
    · exact .inr ⟨c, k, disp, isBranch, eq, taken, hpc⟩
  · obtain ⟨k, runs⟩ := exec_eq_check_pcStop s hi
    rw [runs, check_of_some (pcStop_of_past past)]
    rfl

/-! ### Operands that are not packed decimal -/

/-- The decimal instructions refuse them where `P_BCD_INVALID` is refuse (decision D18). -/
theorem bcdStop_eq_some {s : State} {S D : Byte} (refuse : s.cfg.bcdInvalid = .refuse)
    (h : bcdValid S = false ∨ bcdValid D = false) : bcdStop s S D = some (.refused .invalidDecimal) := by
  refine if_pos ?_
  rcases h with h | h <;> simp [h, refuse]

/-- A free decimal effect: result and carry are draws, X is the carry, Z accumulates (log 11). -/
theorem decimal_free {s : State} {e : Effect 8} (h : e = bcdFree s) :
    e.result = Config.freeByte s.draws ∧ e.ccr.c = Config.freeBit (s.draws + 2) ∧ e.ccr.x = e.ccr.c ∧
      e.ccr.z = (s.ccr.z && e.result == 0) := by
  rw [h]
  exact ⟨rfl, rfl, rfl, rfl⟩

/-- Settles O35. -/
theorem invalidDecimalIsRefusedOrFree : Obligations.InvalidDecimalIsRefusedOrFree := by
  refine ⟨?_, fun s S D => ?_⟩
  · intro s dst src ea refuse invalid s1
    refine ⟨fun h => ⟨?_, ?_⟩, fun h1 h2 h => ⟨?_, ?_⟩, fun wf read h => ?_⟩
    · exact check_of_some (bcdStop_eq_some refuse h) _
    · exact check_of_some (bcdStop_eq_some refuse h) _
    · exact (stopsExtended (sz := .byte) (alu := abcdEffect s) (stop := bcdStop s) rfl).operands h1 h2 _
        (bcdStop_eq_some refuse h)
    · exact (stopsExtended (sz := .byte) (alu := sbcdEffect s) (stop := bcdStop s) rfl).operands h1 h2 _
        (bcdStop_eq_some refuse h)
    · exact (check_formStop wf _).trans ((congrArg (check · _) read).trans
        (check_of_some (bcdStop_eq_some refuse (.inl h)) _))
  · intro free
    refine ⟨fun h => ?_, fun h => decimal_free (if_neg (by simp [h]))⟩
    have invalid : ¬ (bcdValid S && bcdValid D) = true := by
      rcases h with h | h <;> simp [h]
    exact ⟨decimal_free (if_neg invalid), decimal_free (if_neg invalid)⟩

end Sys2Proof.Machine
end

section
/-! PROOFS. Shifts and rotates by any count (47_shift_rotate.md). A single-bit step is a shift or a turn by one, of the
value or, for ROXL and ROXR, of the ring of X and the value; so `r` steps are the shift or turn by `r` (by induction on
`r`), the last bit shifted out is a bit of the value after `r - 1` steps, and V of ASL collects whether the product with
`2^r` has left the signed numbers. -/

namespace Sys2Proof.Machine

section Bits
variable {n : Nat}

/-! ### Turning a value -/

/-- Turning left by `r + 1` is turning left by `r` and by one. -/
theorem rotateLeft_succ (v : BitVec n) (r : Nat) : v.rotateLeft (r + 1) = (v.rotateLeft r).rotateLeft 1 := by
  refine BitVec.eq_of_getMsbD_eq fun i hi => ?_
  have hpos : (1 + i) % n < n := Nat.mod_lt _ (by omega)
  simp [BitVec.getMsbD_rotateLeft, hi, hpos, Nat.add_assoc]

/-- A bit of a value turned right. -/
theorem getLsbD_rotateRight_mod (v : BitVec n) (r : Nat) {i : Nat} (hi : i < n) :
    (v.rotateRight r).getLsbD i = v.getLsbD ((r + i) % n) := by
  have hr := Nat.mod_lt r (by omega : 0 < n)
  rw [BitVec.getLsbD_rotateRight, Nat.add_mod, Nat.mod_eq_of_lt hi]
  generalize r % n = q at hr
  by_cases h : i < n - q
  · rw [decide_eq_true h, cond_true, Nat.mod_eq_of_lt (by omega : q + i < n)]
  · rw [decide_eq_false h, cond_false, decide_eq_true hi, Bool.true_and, Nat.mod_eq_sub_mod (by omega),
      Nat.mod_eq_of_lt (by omega : q + i - n < n), show i - (n - q) = q + i - n by omega]

/-- Turning right by `r + 1` is turning right by `r` and by one. -/
theorem rotateRight_succ (v : BitVec n) (r : Nat) : v.rotateRight (r + 1) = (v.rotateRight r).rotateRight 1 := by
  refine BitVec.eq_of_getLsbD_eq fun i hi => ?_
  rw [getLsbD_rotateRight_mod _ _ hi, getLsbD_rotateRight_mod _ _ hi,
    getLsbD_rotateRight_mod _ _ (Nat.mod_lt _ (by omega)), Nat.add_mod_mod, Nat.add_assoc]

theorem getLsbD_rotateLeft_one (v : BitVec n) {i : Nat} (hi : i < n) :
    (v.rotateLeft 1).getLsbD i = if i = 0 then v.getLsbD (n - 1) else v.getLsbD (i - 1) := by
  rw [BitVec.getLsbD_rotateLeft]
  by_cases h1 : n = 1
  · obtain rfl : i = 0 := by omega
    simp [h1]
  · rw [Nat.mod_eq_of_lt (by omega : 1 < n)]
    by_cases h0 : i = 0 <;> simp [h0, hi]

theorem getLsbD_rotateRight_one (v : BitVec n) {i : Nat} (hi : i < n) :
    (v.rotateRight 1).getLsbD i = if i = n - 1 then v.getLsbD 0 else v.getLsbD (1 + i) := by
  rw [getLsbD_rotateRight_mod v 1 hi]
  split
  · next h => rw [h, Nat.add_sub_cancel' (by omega), Nat.mod_self]
  · rw [Nat.mod_eq_of_lt (by omega)]

/-! ### One step -/

theorem getLsbD_lowBit (b : Bool) {i : Nat} (hi : i < n) : (lowBit n b).getLsbD i = (decide (i = 0) && b) := by
  rw [lowBit, BitVec.getLsbD_ofNat, Bool.eq_iff_iff]
  cases b <;> simp [hi, Nat.testBit_one_eq_true_iff_self_eq_zero]

theorem getLsbD_highBit (b : Bool) {i : Nat} (hi : i < n) :
    (highBit n b).getLsbD i = (decide (i = n - 1) && b) := by
  rw [highBit, BitVec.getLsbD_ofNat]
  cases b <;> simp [hi, Nat.testBit_two_pow, eq_comm]

/-- A bit shifted in at the bottom. -/
theorem getLsbD_shiftLeft_lowBit (v : BitVec n) (b : Bool) {i : Nat} (hi : i < n) :
    (v <<< 1 ||| lowBit n b).getLsbD i = if i = 0 then b else v.getLsbD (i - 1) := by
  rw [BitVec.getLsbD_or, BitVec.getLsbD_shiftLeft, getLsbD_lowBit b hi]
  by_cases h : i = 0 <;> simp [h, hi]

/-- A bit shifted in at the top. -/
theorem getLsbD_shiftRight_highBit (v : BitVec n) (b : Bool) {i : Nat} (hi : i < n) :
    (v >>> 1 ||| highBit n b).getLsbD i = if i = n - 1 then b else v.getLsbD (1 + i) := by
  rw [BitVec.getLsbD_or, BitVec.getLsbD_ushiftRight, getLsbD_highBit b hi]
  by_cases h : i = n - 1
  · rw [BitVec.getLsbD_of_ge v (1 + i) (by omega)]
    simp [h]
  · simp [h]

/-! ### Steps, one and many -/

theorem shiftStep_asr_v (hn : 0 < n) (t : ShiftState n) : (shiftStep .asr t).v = t.v.sshiftRight 1 := by
  refine BitVec.eq_of_getLsbD_eq fun i hi => (getLsbD_shiftRight_highBit _ _ hi).trans ?_
  rw [BitVec.getLsbD_sshiftRight, decide_eq_false (by omega : ¬ n ≤ i), Bool.not_false, Bool.true_and]
  by_cases h : i = n - 1
  · rw [if_pos h, if_neg (by omega)]
  · rw [if_neg h, if_pos (by omega)]

theorem shiftStep_rol_v (t : ShiftState n) : (shiftStep .rol t).v = t.v.rotateLeft 1 := by
  refine BitVec.eq_of_getLsbD_eq fun i hi => (getLsbD_shiftLeft_lowBit _ _ hi).trans ?_
  rw [getLsbD_rotateLeft_one _ hi, BitVec.msb_eq_getLsbD_last]

theorem shiftStep_ror_v (t : ShiftState n) : (shiftStep .ror t).v = t.v.rotateRight 1 := by
  refine BitVec.eq_of_getLsbD_eq fun i hi => (getLsbD_shiftRight_highBit _ _ hi).trans ?_
  rw [getLsbD_rotateRight_one _ hi]

/-- The ring of X and the value, between steps. -/
def ShiftState.ring (t : ShiftState n) : BitVec (n + 1) := extendRing t.x t.v

/-- A step of ROXL turns the ring left by one. -/
theorem shiftStep_roxl_ring (hn : 0 < n) (t : ShiftState n) : (shiftStep .roxl t).ring = t.ring.rotateLeft 1 := by
  refine BitVec.eq_of_getLsbD_eq fun i hi => ?_
  rw [getLsbD_rotateLeft_one _ hi]
  simp only [ShiftState.ring, extendRing, BitVec.getLsbD_cons, Nat.add_sub_cancel]
  by_cases h : i = n
  · rw [if_pos h, if_neg (by omega), if_neg (by omega), h]
    exact BitVec.msb_eq_getLsbD_last _
  · rw [if_neg h, if_pos trivial, if_neg (by omega : ¬ i - 1 = n)]
    exact getLsbD_shiftLeft_lowBit _ _ (by omega)

/-- A step of ROXR turns the ring right by one. -/
theorem shiftStep_roxr_ring (hn : 0 < n) (t : ShiftState n) : (shiftStep .roxr t).ring = t.ring.rotateRight 1 := by
  refine BitVec.eq_of_getLsbD_eq fun i hi => ?_
  rw [getLsbD_rotateRight_one _ hi]
  simp only [ShiftState.ring, extendRing, BitVec.getLsbD_cons, Nat.add_sub_cancel]
  by_cases h : i = n
  · rw [if_pos h, if_pos h, if_neg (by omega)]
    rfl
  · rw [if_neg h, if_neg h]
    refine (getLsbD_shiftRight_highBit _ _ (by omega)).trans ?_
    by_cases h1 : i = n - 1
    · rw [if_pos h1, if_pos (by omega)]
    · rw [if_neg h1, if_neg (by omega)]

theorem shiftSteps_asr_v (hn : 0 < n) (r : Nat) (t : ShiftState n) : (shiftSteps .asr r t).v = t.v.sshiftRight r := by
  induction r with
  | zero => exact BitVec.sshiftRight_zero.symm
  | succ r ih => rw [shiftSteps_succ, shiftStep_asr_v hn, ih, BitVec.sshiftRight_add]

theorem rotateLeft_zero (v : BitVec n) : v.rotateLeft 0 = v := by
  refine BitVec.eq_of_getMsbD_eq fun i hi => ?_
  rw [BitVec.getMsbD_rotateLeft, Nat.zero_add, Nat.mod_eq_of_lt hi, decide_eq_true hi, Bool.true_and]

theorem rotateRight_zero (v : BitVec n) : v.rotateRight 0 = v := by
  simp [BitVec.rotateRight_def]

theorem shiftSteps_rol_v (r : Nat) (t : ShiftState n) : (shiftSteps .rol r t).v = t.v.rotateLeft r := by
  induction r with
  | zero => exact (rotateLeft_zero t.v).symm
  | succ r ih => rw [shiftSteps_succ, shiftStep_rol_v, ih, ← rotateLeft_succ]

theorem shiftSteps_ror_v (r : Nat) (t : ShiftState n) : (shiftSteps .ror r t).v = t.v.rotateRight r := by
  induction r with
  | zero => exact (rotateRight_zero t.v).symm
  | succ r ih => rw [shiftSteps_succ, shiftStep_ror_v, ih, ← rotateRight_succ]

theorem shiftSteps_roxl_ring (hn : 0 < n) (r : Nat) (t : ShiftState n) :
    (shiftSteps .roxl r t).ring = t.ring.rotateLeft r := by
  induction r with
  | zero => exact (rotateLeft_zero t.ring).symm
  | succ r ih => rw [shiftSteps_succ, shiftStep_roxl_ring hn, ih, ← rotateLeft_succ]

theorem shiftSteps_roxr_ring (hn : 0 < n) (r : Nat) (t : ShiftState n) :
    (shiftSteps .roxr r t).ring = t.ring.rotateRight r := by
  induction r with
  | zero => exact (rotateRight_zero t.ring).symm
  | succ r ih => rw [shiftSteps_succ, shiftStep_roxr_ring hn, ih, ← rotateRight_succ]

/-! ### V of ASL -/

/-- A value shifted left by one: its sign bit changes exactly where twice its signed number does not fit, and is that
number where it does. -/
theorem shiftLeft_one_signed (hn : 0 < n) (v : BitVec n) :
    ((v <<< 1).msb != v.msb) = !fitsSigned n (v.toInt * 2) ∧
      (fitsSigned n (v.toInt * 2) = true → (v <<< 1).toInt = v.toInt * 2) := by
  have hpow := two_pow_eq hn
  have hv := toInt_cases hn v
  have hw := toInt_cases hn (v <<< 1)
  have hlt := v.isLt
  have hshift : (v <<< 1).toNat = if v.toNat < 2 ^ (n - 1) then 2 * v.toNat else 2 * v.toNat - 2 ^ n := by
    rw [BitVec.toNat_shiftLeft, Nat.shiftLeft_eq, pow_one, Nat.mul_comm]
    split
    · exact Nat.mod_eq_of_lt (by omega)
    · rw [Nat.mod_eq_sub_mod (by omega), Nat.mod_eq_of_lt (by omega)]
  simp only [fitsSigned_eq_decide, BitVec.msb_eq_decide, bne, ← decide_not, decide_eq_decide, decide_eq_true_eq,
    Bool.beq_eq_decide_eq]
  split at hshift <;> omega

/-- The steps of ASL: the sign bit has changed exactly where the product with the power of two does not fit, and the
value is that product where it does. -/
theorem shiftSteps_asl_signed (hn : 0 < n) (D : BitVec n) (x : Bool) (r : Nat) :
    (shiftSteps .asl r ⟨D, x, false, false⟩).changed = !fitsSigned n (D.toInt * 2 ^ r) ∧
      (fitsSigned n (D.toInt * 2 ^ r) = true → (D <<< r).toInt = D.toInt * 2 ^ r) := by
  induction r with
  | zero =>
    have fits : fitsSigned n D.toInt = true := by
      rw [fitsSigned_eq_decide, decide_eq_true_eq]
      have := toInt_cases hn D
      have := D.isLt
      have := two_pow_eq hn
      omega
    rw [pow_zero, mul_one, fits, BitVec.shiftLeft_zero]
    exact ⟨rfl, fun _ => rfl⟩
  | succ r ih =>
    have step : (shiftSteps .asl (r + 1) ⟨D, x, false, false⟩).changed =
        ((shiftSteps .asl r ⟨D, x, false, false⟩).changed || (D <<< r <<< 1).msb != (D <<< r).msb) := by
      simp [shiftSteps_succ, shiftStep]
    rw [step, ih.1, BitVec.shiftLeft_add, pow_succ, ← mul_assoc]
    cases hf : fitsSigned n (D.toInt * 2 ^ r) with
    | true => exact ih.2 hf ▸ shiftLeft_one_signed hn (D <<< r)
    | false =>
      have further : fitsSigned n (D.toInt * 2 ^ r * 2) = false := by
        rw [fitsSigned_eq_decide, decide_eq_false_iff_not] at hf ⊢
        omega
      rw [further]
      exact ⟨rfl, fun h => absurd h (by decide)⟩

/-! ### The effect of each shift and rotate -/

section Effects
variable (inverted : Bool) (f : CCR) (r : Nat) (D : BitVec n)

/-- The bit that left shift `r + 1` shifts out. -/
theorem getMsbD_eq_bitAt : D.getMsbD r = bitAt D ((n : Int) - (r + 1)) := by
  rw [BitVec.getMsbD, bitAt, show ((n : Int) - (r + 1)).toNat = n - 1 - r by omega]
  congr 1
  rw [decide_eq_decide]
  omega

theorem shiftEffect_asl (hn : 0 < n) :
    let asl := bitAt D ((n : Int) - r) != inverted
    shiftEffect .asl inverted f r D = ⟨D <<< r, if r = 0 then shiftFlags (D <<< r) f.x false false
      else shiftFlags (D <<< r) asl (!fitsSigned n (D.toInt * 2 ^ r)) asl, 0⟩ := by
  intro asl
  cases r with
  | zero => simp [shiftEffect, shiftFlags, Shift.throughX, isZero]
  | succ r =>
    have overflow := (shiftSteps_asl_signed hn D f.x (r + 1)).1
    cases inverted <;>
      simp [shiftEffect, shiftFlags, Shift.keepsX, isZero, shiftSteps_asl_out, getMsbD_eq_bitAt, overflow, asl]

theorem shiftEffect_lsl :
    let out := bitAt D ((n : Int) - r)
    shiftEffect .lsl inverted f r D = ⟨D <<< r, if r = 0 then shiftFlags (D <<< r) f.x false false
      else shiftFlags (D <<< r) out false out, 0⟩ := by
  intro out
  cases r with
  | zero => simp [shiftEffect, shiftFlags, Shift.throughX, isZero]
  | succ r => simp [shiftEffect, shiftFlags, Shift.keepsX, isZero, shiftSteps_lsl_out, getMsbD_eq_bitAt, out]

theorem shiftEffect_asr (hn : 0 < n) :
    let out := if r ≤ n then D.getLsbD (r - 1) else D.msb
    shiftEffect .asr inverted f r D = ⟨D.sshiftRight r, if r = 0 then shiftFlags (D.sshiftRight r) f.x false false
      else shiftFlags (D.sshiftRight r) out false out, 0⟩ := by
  intro out
  cases r with
  | zero => simp [shiftEffect, shiftFlags, Shift.throughX, isZero, shiftSteps]
  | succ r =>
    have last : (shiftSteps .asr (r + 1) ⟨D, f.x, false, false⟩).out = out := by
      rw [shiftSteps_succ]
      refine (congrArg (BitVec.getLsbD · 0) (shiftSteps_asr_v hn r _)).trans ?_
      rw [BitVec.getLsbD_sshiftRight, decide_eq_false (by omega : ¬ n ≤ 0), Bool.not_false, Bool.true_and]
      rfl
    simp [shiftEffect, shiftFlags, Shift.keepsX, isZero, shiftSteps_asr_v hn, last]

theorem shiftEffect_lsr :
    let out := D.getLsbD (r - 1)
    shiftEffect .lsr inverted f r D = ⟨D >>> r, if r = 0 then shiftFlags (D >>> r) f.x false false
      else shiftFlags (D >>> r) out false out, 0⟩ := by
  intro out
  cases r with
  | zero => simp [shiftEffect, shiftFlags, Shift.throughX, isZero]
  | succ r => simp [shiftEffect, shiftFlags, Shift.keepsX, isZero, shiftSteps_lsr_out, out]

theorem shiftEffect_rol (hn : 0 < n) :
    let R := D.rotateLeft r
    shiftEffect .rol inverted f r D = ⟨R, shiftFlags R f.x false (r ≠ 0 && R.getLsbD 0), 0⟩ := by
  intro R
  cases r with
  | zero => simp [shiftEffect, shiftFlags, Shift.throughX, isZero, shiftSteps_rol_v, R]
  | succ r =>
    have last : (shiftSteps .rol (r + 1) ⟨D, f.x, false, false⟩).out = R.getLsbD 0 := by
      rw [shiftSteps_succ, show R = (D.rotateLeft r).rotateLeft 1 from rotateLeft_succ D r,
        getLsbD_rotateLeft_one _ hn, if_pos rfl, ← BitVec.msb_eq_getLsbD_last]
      exact congrArg BitVec.msb (shiftSteps_rol_v r _)
    simp [shiftEffect, shiftFlags, Shift.keepsX, isZero, shiftSteps_rol_v, last, R]

theorem shiftEffect_ror (hn : 0 < n) :
    let R := D.rotateRight r
    shiftEffect .ror inverted f r D = ⟨R, shiftFlags R f.x false (r ≠ 0 && R.msb), 0⟩ := by
  intro R
  cases r with
  | zero => simp [shiftEffect, shiftFlags, Shift.throughX, isZero, shiftSteps_ror_v, R]
  | succ r =>
    have last : (shiftSteps .ror (r + 1) ⟨D, f.x, false, false⟩).out = R.msb := by
      rw [shiftSteps_succ, show R = (D.rotateRight r).rotateRight 1 from rotateRight_succ D r,
        BitVec.msb_eq_getLsbD_last, getLsbD_rotateRight_one _ (by omega), if_pos rfl]
      exact congrArg (BitVec.getLsbD · 0) (shiftSteps_ror_v r _)
    simp [shiftEffect, shiftFlags, Shift.keepsX, isZero, shiftSteps_ror_v, last, R]

/-- A ring holds the value below X. -/
theorem setWidth_ring (t : ShiftState n) : t.ring.setWidth n = t.v := BitVec.setWidth_cons

theorem msb_ring (t : ShiftState n) : t.ring.msb = t.x := BitVec.msb_cons

/-- A turn of the ring: the bit turned out is the new X, and so is C, for a count of zero as well. -/
theorem shiftEffect_of_ring {k : Shift} {ring : BitVec (n + 1)} (through : k.throughX = true)
    (out : ∀ t : ShiftState n, (shiftStep k t).out = (shiftStep k t).x)
    (turned : (shiftSteps k r ⟨D, f.x, false, false⟩).ring = ring) :
    shiftEffect k inverted f r D = ⟨ring.setWidth n, ringFlags ring, 0⟩ := by
  subst turned
  have other : k.keepsX = false ∧ k ≠ .asl := by
    cases k with
    | roxl | roxr => exact ⟨rfl, by decide⟩
    | _ => cases through
  rw [ringFlags, setWidth_ring, msb_ring]
  cases r with
  | zero => simp [shiftEffect, shiftFlags, through, isZero, shiftSteps]
  | succ r => simp [shiftEffect, shiftFlags, other, isZero, shiftSteps_succ, out]

theorem shiftEffect_roxl (hn : 0 < n) :
    let ring := (extendRing f.x D).rotateLeft r
    shiftEffect .roxl inverted f r D = ⟨ring.setWidth n, ringFlags ring, 0⟩ :=
  shiftEffect_of_ring inverted f r D rfl (fun _ => rfl) (shiftSteps_roxl_ring hn r _)

theorem shiftEffect_roxr (hn : 0 < n) :
    let ring := (extendRing f.x D).rotateRight r
    shiftEffect .roxr inverted f r D = ⟨ring.setWidth n, ringFlags ring, 0⟩ :=
  shiftEffect_of_ring inverted f r D rfl (fun _ => rfl) (shiftSteps_roxr_ring hn r _)

end Effects

end Bits

/-! ### The obligations -/

section Shapes
variable {i : Instr} {s : State} {sz : Size}

/-- A shift of a register, as the shape of the statements. -/
theorem setsDn_of_shiftDn {k : Shift} {count : ShiftCount} {dn : RegNum} {result : BitVec sz.bits} {flags : CCR}
    (runs : exec i s = shiftDn k sz count dn s)
    (effect : shiftEffect k s.cfg.aslCarryInverted s.ccr (shiftCount count s) (lowPart sz s.d[dn]) =
      ⟨result, flags, 0⟩) : SetsDn i dn s (mergeLow sz s.d[dn] result) flags 0 := by
  refine setsDn_of_check (fun _ => ?_) rfl rfl
  rw [runs, shiftDn, effect]
  rfl

/-- A shift of a word of memory by one, as the shape of the statements. -/
theorem replaces_of_shiftEa {k : Shift} {ea : Ea}
    {result : BitVec Size.word.bits → BitVec Size.word.bits} {flags : BitVec Size.word.bits → CCR}
    (runs : exec i s = shiftEa i k ea s)
    (effect : ∀ D, shiftEffect k s.cfg.aslCarryInverted s.ccr 1 D = ⟨result D, flags D, 0⟩) :
    Replaces i .word ea 0 s result flags :=
  replaces_of_modifyEa (sz := .word) (fun D => shiftEffect k s.cfg.aslCarryInverted s.ccr 1 D) runs
    (fun D => by rw [effect]) (fun D => by rw [effect]) (fun D => by rw [effect])

end Shapes

/-- Settles O50. -/
theorem leftShifts : Obligations.LeftShifts := by
  intro sz count dn s r D R out asl
  have hr : shiftCount count s = r := by cases count <;> rfl
  exact ⟨setsDn_of_shiftDn rfl (hr ▸ shiftEffect_asl _ _ _ _ (bits_pos sz)),
    setsDn_of_shiftDn rfl (hr ▸ shiftEffect_lsl _ _ _ _)⟩

/-- Settles O51. -/
theorem rightShifts : Obligations.RightShifts := by
  intro sz count dn s r D signed signedOut out
  have hr : shiftCount count s = r := by cases count <;> rfl
  exact ⟨setsDn_of_shiftDn rfl (hr ▸ shiftEffect_asr _ _ _ _ (bits_pos sz)),
    setsDn_of_shiftDn rfl (hr ▸ shiftEffect_lsr _ _ _ _)⟩

/-- Settles O52. -/
theorem rotates : Obligations.Rotates := by
  intro sz count dn s r D left right
  have hr : shiftCount count s = r := by cases count <;> rfl
  exact ⟨setsDn_of_shiftDn rfl (hr ▸ shiftEffect_rol _ _ _ _ (bits_pos sz)),
    setsDn_of_shiftDn rfl (hr ▸ shiftEffect_ror _ _ _ _ (bits_pos sz))⟩

/-- Settles O53. -/
theorem rotatesThroughExtend : Obligations.RotatesThroughExtend := by
  intro sz count dn s r ring
  have hr : shiftCount count s = r := by cases count <;> rfl
  exact ⟨setsDn_of_shiftDn rfl (hr ▸ shiftEffect_roxl _ _ _ _ (bits_pos sz)),
    setsDn_of_shiftDn rfl (hr ▸ shiftEffect_roxr _ _ _ _ (bits_pos sz))⟩

/-- The first bit that a left shift of a word shifts out. -/
theorem msb_eq_bitAt_word (D : Word) : D.msb = bitAt D (((16 : Nat) : Int) - (1 : Nat)) := getMsbD_eq_bitAt 0 D

/-- Settles O54: the effects for a count of one. -/
theorem memoryShifts : Obligations.MemoryShifts := by
  intro ea s x asl ring replaces
  refine ⟨replaces_of_shiftEa rfl fun D => ?_, replaces_of_shiftEa rfl fun D => ?_, replaces_of_shiftEa rfl fun D => ?_,
    replaces_of_shiftEa rfl fun D => ?_, replaces_of_shiftEa rfl fun D => ?_, replaces_of_shiftEa rfl fun D => ?_,
    replaces_of_shiftEa rfl fun D => ?_, replaces_of_shiftEa rfl fun D => ?_⟩
  · have effect := shiftEffect_asl s.cfg.aslCarryInverted s.ccr 1 D (by decide)
    rwa [← msb_eq_bitAt_word, pow_one] at effect
  · have effect := shiftEffect_lsl s.cfg.aslCarryInverted s.ccr 1 D
    rwa [← msb_eq_bitAt_word] at effect
  · exact shiftEffect_asr _ _ 1 D (by decide)
  · exact shiftEffect_lsr _ _ 1 D
  · have out : (D.rotateLeft 1).getLsbD 0 = D.msb := by
      rw [getLsbD_rotateLeft_one D (by decide), if_pos rfl, BitVec.msb_eq_getLsbD_last]
    exact out ▸ shiftEffect_rol s.cfg.aslCarryInverted s.ccr 1 D (by decide)
  · have out : (D.rotateRight 1).msb = D.getLsbD 0 := by
      rw [BitVec.msb_eq_getLsbD_last, getLsbD_rotateRight_one D (by decide), if_pos rfl]
    exact out ▸ shiftEffect_ror s.cfg.aslCarryInverted s.ccr 1 D (by decide)
  · exact shiftEffect_roxl _ _ _ _ (by decide)
  · exact shiftEffect_roxr _ _ _ _ (by decide)

end Sys2Proof.Machine
end
